-- ==== Sys2Proof/Word.lean ====
section
/-! DEFINITION. The widths, index types and plainest arithmetic of HUFFENC (00_scope.md R5 to R8, R12). -/

namespace Sys2Proof

/-- One byte of a memory space (20_memory.md R61, R64). -/
abbrev Byte := BitVec 8

/-- A symbol: one of exactly 256 byte values (00_scope.md R5). -/
abbrev Symbol := Fin 256

/-- The index of one of the 511 nodes (00_scope.md R6, R8). `NONE` is `none` of `Option NodeIdx`. -/
abbrev NodeIdx := Fin 511

/-- `n` as a register of `w` bits holds it: all numbers are unsigned (00_scope.md R12). -/
def narrow (w n : Nat) : Nat := n % 2 ^ w

/-- `ceil8(n) = (n + 7) div 8` (00_scope.md R12). -/
def ceil8 (n : Nat) : Nat := (n + 7) / 8

end Sys2Proof
end

