-- ==== Sys2Proof/Config.lean ====
section
/-! DEFINITION. What one implementation fixes (the width `CW`), the widths that follow from it, what an unlisted
address of each memory space reads as, and the free values (constants with no body). -/

namespace Sys2Proof

/-- The open parameter of the block that can be observed: `CW`, the width of a count (00_scope.md R9). It is plain
data that no step writes; the other open parameters are arguments of the functions they concern. -/
structure Config where
  cw : Nat
  deriving DecidableEq, Repr

/-- The default `CW = 64` (00_scope.md R9, 92_eei_decisions.md D6). -/
def Config.standard : Config := { cw := 64 }

/-- `NCW = CW + 8`, the width of a node's count (00_scope.md R9). -/
def Config.ncw (c : Config) : Nat := c.cw + 8

/-- `BW = CW + 16`, the width of `BITS_REQ`, `OUT_LEN`, `FINFO` and the data ports (00_scope.md R9). -/
def Config.bw (c : Config) : Nat := c.cw + 16

/-- `CW` is between 16 and 255 (10_state.md R44). -/
def Config.legal (c : Config) : Bool := decide (16 ≤ c.cw) && decide (c.cw ≤ 255)

/-- The two memory spaces the block reaches (20_memory.md R60). -/
inductive Space where
  | input
  | output
  deriving DecidableEq, Repr

/-- What an address with no listed cell reads as. DESIGN CHOICE (log 5): a byte of `IN` that the host has not filled
reads 0; a byte of `OUT` that nothing has written has no value. -/
def Config.unlisted : Space → Option Byte
  | .input => some 0
  | .output => none

/-! Free values (log 4). Each is applied to the value of the model's counter `fresh` at the draw, and to an index.
They have no body: nothing can be proved of a value of theirs. -/

/-- `NODE[i].count` after `CLR` (44_host_access.md R211, 93_implementation_defined.md U9). -/
opaque Config.freeCount : Nat → Nat → Nat

/-- `NODE[i].parent` after `CLR` (44_host_access.md R211). -/
opaque Config.freeParent : Nat → Nat → Option NodeIdx

/-- `NODE[i].right` after `CLR` (44_host_access.md R211). -/
opaque Config.freeRight : Nat → Nat → Option NodeIdx

/-- `NODE[i].bit` after `CLR` (44_host_access.md R211). -/
opaque Config.freeNodeBit : Nat → Nat → Bool

/-- `INQ[i]` after `CLR` (44_host_access.md R211). -/
opaque Config.freeMember : Nat → Nat → Bool

/-- `NEXT` after `CLR` (44_host_access.md R211). -/
opaque Config.freeNext : Nat → BitVec 9

/-- The length half of `LUT[i]` (and, at index 256, of `ET`) after `CLR` (44_host_access.md R211, U9). -/
opaque Config.freeCodeLen : Nat → Nat → BitVec 8

/-- The bit half of `LUT[i]` (and, at index 256, of `ET`) after `CLR` (44_host_access.md R211, U9). -/
opaque Config.freeCodeBits : Nat → Nat → BitVec 256

/-- The byte of `OUT` at an address below `ceil8(BITS_REQ)` after a fault raised by `PACK`
(60_exceptions.md R241, 93_implementation_defined.md U10). -/
opaque Config.freeOutByte : Nat → Nat → Byte

end Sys2Proof
end

