-- ==== Sys2Proof/Syntax.lean ====
section
/-! DEFINITION. The 24 commands, one constructor per row of spec/opcode_table.json (30_encoding.md R100), and the
command as it stands on the port (R90). -/

namespace Sys2Proof

/-- What the host presents on the command port: the 32-bit command word and the write-data word (30_encoding.md
R90). `wdata` is an unsigned number of `BW` bits. -/
structure Command where
  word : BitVec 32
  wdata : Nat
  deriving DecidableEq, Repr

/-- A command with its operands. An operand field has the width of its format (30_encoding.md R95 to R99); the two
commands that use `wdata` (R93) carry it. -/
inductive Instr where
  | nop
  | clr
  | rdreg (r : BitVec 8)
  | wrreg (r : BitVec 8) (wdata : Nat)
  | enew
  | epush (b : Bool)
  | elen
  | eempty
  | erev
  | eeq
  | exch
  | elut (s : BitVec 8)
  | erd
  | wrfreq (s : BitVec 8) (wdata : Nat)
  | rdfreq (s : BitVec 8)
  | rdnode (i : BitVec 9)
  | rdlut (s : BitVec 8)
  | count
  | build
  | extract
  | size
  | pack
  | genenc
  | compress
  deriving DecidableEq, Repr

end Sys2Proof
end

