-- ==== Sys2Proof/WellFormed.lean ====
section
/-! DEFINITION. Which operands a command may carry: the cases (c) to (f) of 30_encoding.md R101. The cases (a) and
(b) concern words that stand for no term of `Instr`; the decoder refuses those. -/

namespace Sys2Proof

/-- No operand of the command makes its word illegal, for counts of `cw` bits (30_encoding.md R101 c to f). -/
def Instr.wellFormed (cw : Nat) : Instr → Bool
  | .rdreg r => decide (r.toNat < 8)
  | .wrreg r wdata => decide (r.toNat = 4) && decide (wdata < 2 ^ cw)
  | .wrfreq _ wdata => decide (wdata < 2 ^ cw)
  | .rdnode i => decide (i.toNat < 511)
  | .nop => true
  | .clr => true
  | .enew => true
  | .epush _ => true
  | .elen => true
  | .eempty => true
  | .erev => true
  | .eeq => true
  | .exch => true
  | .elut _ => true
  | .erd => true
  | .rdfreq _ => true
  | .rdlut _ => true
  | .count => true
  | .build => true
  | .extract => true
  | .size => true
  | .pack => true
  | .genenc => true
  | .compress => true

end Sys2Proof
end

