-- ==== Sys2Proof/Decode.lean ====
section
/-! DEFINITION. The decoder, total on every command word, and the encoder (30_encoding.md R91 to R102, R106). -/

namespace Sys2Proof

/-- Why a command word is illegal: the six cases of 30_encoding.md R101. -/
inductive DecodeError where
  /-- Case (a): the opcode is none of the 24. -/
  | unassignedOpcode
  /-- Case (b): a bit the format marks "must be 0" is 1. -/
  | reservedBits
  /-- Case (c): node index 511. -/
  | nodeIndex
  /-- Case (d): a register number of 8 or more. -/
  | registerNumber
  /-- Case (e): `WRREG` of a register other than 4. -/
  | readOnlyRegister
  /-- Case (f): `wdata` does not fit `CW` bits. -/
  | wdataTooWide
  deriving DecidableEq, Repr

/-- `cw[31:24]`, the opcode (30_encoding.md R91). -/
def opField (w : BitVec 32) : BitVec 8 := w.extractLsb' 24 8

/-- `cw[23:0]`, the argument field (30_encoding.md R91). -/
def argField (w : BitVec 32) : BitVec 24 := w.extractLsb' 0 24

/-- Format N: the whole argument must be 0 (30_encoding.md R95). -/
def formatN (arg : BitVec 24) (i : Instr) : Except DecodeError Instr :=
  if arg = 0 then .ok i else .error .reservedBits

/-- Format B: one operand bit at bit 0 (30_encoding.md R96). -/
def formatB (arg : BitVec 24) (f : Bool → Instr) : Except DecodeError Instr :=
  if arg.extractLsb' 1 23 = 0 then .ok (f (arg.getLsbD 0)) else .error .reservedBits

/-- Format S: a symbol in bits 7 to 0 (30_encoding.md R97). -/
def formatS (arg : BitVec 24) (f : BitVec 8 → Except DecodeError Instr) : Except DecodeError Instr :=
  if arg.extractLsb' 8 16 = 0 then f (arg.extractLsb' 0 8) else .error .reservedBits

/-- Format I: a node index in bits 8 to 0, not 511 (30_encoding.md R98). -/
def formatI (arg : BitVec 24) (f : BitVec 9 → Instr) : Except DecodeError Instr :=
  if arg.extractLsb' 9 15 = 0 then
    if (arg.extractLsb' 0 9).toNat < 511 then .ok (f (arg.extractLsb' 0 9)) else .error .nodeIndex
  else .error .reservedBits

/-- Format R: a register number in bits 7 to 0, below 8 (30_encoding.md R99). -/
def formatR (arg : BitVec 24) (f : BitVec 8 → Except DecodeError Instr) : Except DecodeError Instr :=
  if arg.extractLsb' 8 16 = 0 then
    if (arg.extractLsb' 0 8).toNat < 8 then f (arg.extractLsb' 0 8) else .error .registerNumber
  else .error .reservedBits

/-- `wdata` is used at the width of its destination and must fit it (30_encoding.md R106, R101 f). -/
def fitWdata (cw wdata : Nat) (i : Instr) : Except DecodeError Instr :=
  if wdata < 2 ^ cw then .ok i else .error .wdataTooWide

/-- The command a port word and its write data stand for, or why the word is illegal (30_encoding.md R100, R101). -/
def decode (cw : Nat) (c : Command) : Except DecodeError Instr :=
  let arg := argField c.word
  match (opField c.word).toNat with
  | 0x00 => formatN arg .nop
  | 0x01 => formatN arg .clr
  | 0x02 => formatR arg fun r => .ok (.rdreg r)
  | 0x03 => formatR arg fun r =>
      if r.toNat = 4 then fitWdata cw c.wdata (.wrreg r c.wdata) else .error .readOnlyRegister
  | 0x10 => formatN arg .enew
  | 0x11 => formatB arg .epush
  | 0x12 => formatN arg .elen
  | 0x13 => formatN arg .eempty
  | 0x14 => formatN arg .erev
  | 0x15 => formatN arg .eeq
  | 0x16 => formatN arg .exch
  | 0x17 => formatS arg fun s => .ok (.elut s)
  | 0x18 => formatN arg .erd
  | 0x20 => formatS arg fun s => fitWdata cw c.wdata (.wrfreq s c.wdata)
  | 0x21 => formatS arg fun s => .ok (.rdfreq s)
  | 0x22 => formatI arg .rdnode
  | 0x23 => formatS arg fun s => .ok (.rdlut s)
  | 0x30 => formatN arg .count
  | 0x31 => formatN arg .build
  | 0x32 => formatN arg .extract
  | 0x33 => formatN arg .size
  | 0x34 => formatN arg .pack
  | 0x38 => formatN arg .genenc
  | 0x39 => formatN arg .compress
  | _ => .error .unassignedOpcode

/-- The opcode of each command (30_encoding.md R100). -/
def Instr.opcode : Instr → BitVec 8
  | .nop => 0x00
  | .clr => 0x01
  | .rdreg _ => 0x02
  | .wrreg _ _ => 0x03
  | .enew => 0x10
  | .epush _ => 0x11
  | .elen => 0x12
  | .eempty => 0x13
  | .erev => 0x14
  | .eeq => 0x15
  | .exch => 0x16
  | .elut _ => 0x17
  | .erd => 0x18
  | .wrfreq _ _ => 0x20
  | .rdfreq _ => 0x21
  | .rdnode _ => 0x22
  | .rdlut _ => 0x23
  | .count => 0x30
  | .build => 0x31
  | .extract => 0x32
  | .size => 0x33
  | .pack => 0x34
  | .genenc => 0x38
  | .compress => 0x39

/-- The argument field of each command: the operand zero-extended to 24 bits (30_encoding.md R95 to R99, R106). -/
def Instr.argument : Instr → BitVec 24
  | .rdreg r => r.setWidth 24
  | .wrreg r _ => r.setWidth 24
  | .epush b => (BitVec.ofBool b).setWidth 24
  | .elut s => s.setWidth 24
  | .wrfreq s _ => s.setWidth 24
  | .rdfreq s => s.setWidth 24
  | .rdnode i => i.setWidth 24
  | .rdlut s => s.setWidth 24
  | .nop => 0
  | .clr => 0
  | .enew => 0
  | .elen => 0
  | .eempty => 0
  | .erev => 0
  | .eeq => 0
  | .exch => 0
  | .erd => 0
  | .count => 0
  | .build => 0
  | .extract => 0
  | .size => 0
  | .pack => 0
  | .genenc => 0
  | .compress => 0

/-- The write data that goes with the word; 0 for a command that ignores it (30_encoding.md R93). -/
def Instr.writeData : Instr → Nat
  | .wrreg _ wdata => wdata
  | .wrfreq _ wdata => wdata
  | .nop => 0
  | .clr => 0
  | .rdreg _ => 0
  | .enew => 0
  | .epush _ => 0
  | .elen => 0
  | .eempty => 0
  | .erev => 0
  | .eeq => 0
  | .exch => 0
  | .elut _ => 0
  | .erd => 0
  | .rdfreq _ => 0
  | .rdnode _ => 0
  | .rdlut _ => 0
  | .count => 0
  | .build => 0
  | .extract => 0
  | .size => 0
  | .pack => 0
  | .genenc => 0
  | .compress => 0

/-- The command word of a command (30_encoding.md R91). -/
def Instr.word (i : Instr) : BitVec 32 := i.opcode ++ i.argument

/-- What the host puts on the port to issue a command (30_encoding.md R90, R91). -/
def encode (i : Instr) : Command := { word := i.word, wdata := i.writeData }

/-- One row of the opcode table: the bits of the word that are fixed and their values (30_encoding.md R91, R100). -/
structure OpcodeRow where
  mnemonic : String
  bits : BitVec 32
  mask : BitVec 32
  deriving DecidableEq, Repr

/-- The fixed bits of a word are those of the row. -/
def OpcodeRow.covers (r : OpcodeRow) (w : BitVec 32) : Bool := decide (w &&& r.mask = r.bits)

/-- The opcode table, spec/opcode_table.json (30_encoding.md R100). -/
def opcodeRows : List OpcodeRow :=
  [
    ⟨"NOP", 0x00000000#32, 0xFFFFFFFF#32⟩,
    ⟨"CLR", 0x01000000#32, 0xFFFFFFFF#32⟩,
    ⟨"RDREG", 0x02000000#32, 0xFFFFFF00#32⟩,
    ⟨"WRREG", 0x03000000#32, 0xFFFFFF00#32⟩,
    ⟨"ENEW", 0x10000000#32, 0xFFFFFFFF#32⟩,
    ⟨"EPUSH", 0x11000000#32, 0xFFFFFFFE#32⟩,
    ⟨"ELEN", 0x12000000#32, 0xFFFFFFFF#32⟩,
    ⟨"EEMPTY", 0x13000000#32, 0xFFFFFFFF#32⟩,
    ⟨"EREV", 0x14000000#32, 0xFFFFFFFF#32⟩,
    ⟨"EEQ", 0x15000000#32, 0xFFFFFFFF#32⟩,
    ⟨"EXCH", 0x16000000#32, 0xFFFFFFFF#32⟩,
    ⟨"ELUT", 0x17000000#32, 0xFFFFFF00#32⟩
  ] ++ [
    ⟨"ERD", 0x18000000#32, 0xFFFFFFFF#32⟩,
    ⟨"WRFREQ", 0x20000000#32, 0xFFFFFF00#32⟩,
    ⟨"RDFREQ", 0x21000000#32, 0xFFFFFF00#32⟩,
    ⟨"RDNODE", 0x22000000#32, 0xFFFFFE00#32⟩,
    ⟨"RDLUT", 0x23000000#32, 0xFFFFFF00#32⟩,
    ⟨"COUNT", 0x30000000#32, 0xFFFFFFFF#32⟩,
    ⟨"BUILD", 0x31000000#32, 0xFFFFFFFF#32⟩,
    ⟨"EXTRACT", 0x32000000#32, 0xFFFFFFFF#32⟩,
    ⟨"SIZE", 0x33000000#32, 0xFFFFFFFF#32⟩,
    ⟨"PACK", 0x34000000#32, 0xFFFFFFFF#32⟩,
    ⟨"GENENC", 0x38000000#32, 0xFFFFFFFF#32⟩,
    ⟨"COMPRESS", 0x39000000#32, 0xFFFFFFFF#32⟩
  ]

/-- The command the decoder reads from a table row's bits, with `wdata = 0`. A row has one 32-bit word; with
`wdata = 0` the answer is the same for every `CW`. -/
def decodeTableWord (nbits w : Nat) : Option Instr :=
  if nbits ≤ 32 ∧ w < 2 ^ nbits then
    match decode Config.standard.cw { word := BitVec.ofNat 32 w, wdata := 0 } with
    | .ok i => some i
    | .error _ => none
  else none

end Sys2Proof
end

