-- ==== Sys2Proof/Machine/State.lean ====
section
/-! DEFINITION. The architectural state of HUFFENC as plain data (10_state.md R20 to R49), the two memory spaces and
the host's pending actions beside it, the reasons a step can stop, and the state after reset. -/

namespace Sys2Proof.Machine

/-- The values `PHASE` can hold (10_state.md R30; 93_implementation_defined.md U15 allows the enumeration). -/
inductive Phase where
  | idle
  | counted
  | built
  | extracted
  | sized
  | packed
  | fault
  deriving DecidableEq, Repr

/-- The causes of a fault (60_exceptions.md R230). `tableSize` is reserved and never raised (R231). -/
inductive Cause where
  | emptyInput
  | tableSize
  | encOverflow
  | doubleMark
  | illegalCmd
  | seqError
  | outOverrun
  | outUnderrun
  | lookupEmpty
  deriving DecidableEq, Repr

/-- The storage of an Encoding: `len` and `v`, bit `i` of the Encoding at `v[255 - i]` (10_state.md R33). -/
structure Encoding where
  len : BitVec 8
  v : BitVec 256
  deriving DecidableEq, Repr

/-- `enc_new()`: the empty Encoding, `len = 0`, `v = 0` (40_encoding_unit.md R121, R122). -/
def Encoding.empty : Encoding := { len := 0, v := 0 }

/-- One record of `NODE` (10_state.md R22 to R26). `none` is the sentinel `NONE = 511` (00_scope.md R8). -/
structure Node where
  count : Nat
  parent : Option NodeIdx
  bit : Bool
  right : Option NodeIdx
  deriving DecidableEq, Repr

/-- A node that no merge has made: the value `build_init` gives one (41_tree_builder.md R142). -/
def Node.unmade : Node := { count := 0, parent := none, bit := false, right := none }

/-- What `BUILD` works on: the node array `NODE` (10_state.md R22), the queue membership `INQ` (R27) and the fill
pointer `NEXT` (R28). -/
structure Arena where
  node : Vector Node 511
  inq : Vector Bool 511
  next : BitVec 9
  deriving DecidableEq, Repr

/-- The response record (30_encoding.md R94). -/
structure Response where
  ok : Bool
  data : Nat
  aux : BitVec 32
  enc : Encoding
  deriving DecidableEq, Repr

/-- The response of a command that raised a fault or was refused (30_encoding.md R94). -/
def Response.failed : Response := { ok := false, data := 0, aux := 0, enc := Encoding.empty }

/-- `resp(ok = 1, data)`, the fields not named being zero (00_scope.md R13). -/
def Response.done (data : Nat) : Response := { ok := true, data := data, aux := 0, enc := Encoding.empty }

/-- One memory space as the list of its cells, addresses strictly rising, no cell holding what an unlisted address
reads as (`Memory.wf`). -/
structure Memory where
  cells : List Host.Cell
  deriving DecidableEq, Repr

/-- What the host can do to the block between two commands (log 3): issue the next command (30_encoding.md R90), set
a byte of `IN` or of `OUT` (70_reset_and_hazards.md R267, R270), cause reset (R261). -/
inductive HostAct where
  | issue (c : Command)
  | writeIn (address : Nat) (value : Byte)
  | writeOut (address : Nat) (value : Byte)
  | reset
  deriving DecidableEq, Repr

/-- The state of the block (10_state.md R20), the two memory spaces (20_memory.md R60), the response the port shows
(30_encoding.md R94), and the model's own fields `cfg` (log 2), `host` (log 3) and `fresh` (log 4). A register of `w`
bits is a `Nat` below `2 ^ w`: every write narrows, and `State.WF` says the bound. -/
structure State where
  cfg : Config
  /-- `PHASE` (10_state.md R30). -/
  phase : Phase
  /-- `FPHASE` (R45). -/
  fphase : Phase
  /-- `FCODE` (R38); `none` is code 0. -/
  fcode : Option Cause
  /-- `FINFO` (R39), `BW` bits. -/
  finfo : Nat
  /-- `IN_LEN` (R41), `CW` bits. -/
  inLen : Nat
  /-- `BITS_REQ` (R42), `BW` bits. -/
  bitsReq : Nat
  /-- `OUT_LEN` (R43), `BW` bits. -/
  outLen : Nat
  /-- `FREQ[0..255]` (R21), `CW` bits each. -/
  freq : Vector Nat 256
  /-- `NODE`, `INQ`, `NEXT` (R22 to R28). -/
  arena : Arena
  /-- `LUT[0..255]` (R29). -/
  lut : Vector Encoding 256
  /-- `EA` (R32). -/
  ea : Encoding
  /-- `EB` (R32). -/
  eb : Encoding
  /-- `ET` (R34). -/
  et : Encoding
  /-- The last response given (30_encoding.md R94). -/
  resp : Response
  /-- `IN` (20_memory.md R61). -/
  inMem : Memory
  /-- `OUT` (20_memory.md R64). -/
  outMem : Memory
  /-- What the host will do next, first action first. -/
  host : List HostAct
  /-- How many draws of free values were made. -/
  fresh : Nat
  deriving DecidableEq, Repr

/-- The ways a step of the model stops with a fault. No command of the block does: a fault of the spec is the NEXT
state of 60_exceptions.md R240. -/
inductive Fault where
  /-- Raised by `step` when the host names an address outside `IN` (`2 ^ CW` addresses, 20_memory.md R61) or outside
  `OUT` (`2 ^ (BW - 3)` addresses, R64). Safe: the spec gives no such address, and the model stops. -/
  | noSuchAddress (space : Space) (address : Nat)
  deriving DecidableEq, Repr

/-- The ways a step of the model refuses. -/
inductive Refusal where
  /-- Raised by an arm of `exec` for a command with no meaning yet, by its mnemonic. No arm raises it now. Safe. -/
  | notModelled (mnemonic : String)
  deriving DecidableEq, Repr

/-- `NODE`, `INQ`, `NEXT` at reset: unspecified by 10_state.md R49; the values are log 1's (DESIGN CHOICE). -/
def Arena.reset : Arena :=
  { node := Vector.replicate 511 Node.unmade, inq := Vector.replicate 511 false, next := 0 }

/-- The machine right after reset (10_state.md R49, 70_reset_and_hazards.md R260). `arena`, `lut`, `et` and `resp` are
unspecified by R49 and hold log 1's values; `cfg` is the spec's default (log 2). -/
def State.reset : State :=
  { cfg := Config.standard
    phase := .idle
    fphase := .idle
    fcode := none
    finfo := 0
    inLen := 0
    bitsReq := 0
    outLen := 0
    freq := Vector.replicate 256 0
    arena := Arena.reset
    lut := Vector.replicate 256 Encoding.empty
    ea := Encoding.empty
    eb := Encoding.empty
    et := Encoding.empty
    resp := Response.failed
    inMem := { cells := [] }
    outMem := { cells := [] }
    host := []
    fresh := 0 }

end Sys2Proof.Machine
end

