-- ==== Sys2Proof/Machine/Flags.lean ====
section
/-! DEFINITION. The codes the host sees for `PHASE` and `FCODE`, the one flag `FAULT`, and the `STATUS` view
(10_state.md R30, R35, R37; 60_exceptions.md R230). No command computes a condition code. -/

namespace Sys2Proof.Machine

/-- The 4-bit value of `PHASE` (10_state.md R30). -/
def Phase.code : Phase → BitVec 4
  | .idle => 0
  | .counted => 1
  | .built => 2
  | .extracted => 3
  | .sized => 4
  | .packed => 5
  | .fault => 15

/-- The cause code of a fault (60_exceptions.md R230). -/
def Cause.code : Cause → BitVec 8
  | .emptyInput => 1
  | .tableSize => 2
  | .encOverflow => 3
  | .doubleMark => 4
  | .illegalCmd => 5
  | .seqError => 6
  | .outOverrun => 7
  | .outUnderrun => 8
  | .lookupEmpty => 9

/-- The 8 bits of `FCODE`: 0 when no fault was taken (10_state.md R38). -/
def fcodeBits : Option Cause → BitVec 8
  | none => 0
  | some c => c.code

/-- The flag `FAULT`: 1 exactly when `PHASE = 15` (10_state.md R35). -/
def State.faultFlag (s : State) : Bool := decide (s.phase = .fault)

/-- `STATUS`: `PHASE` in bits 3 to 0, `FPHASE` in bits 7 to 4, `FAULT` in bit 8, the rest 0 (10_state.md R37). -/
def State.status (s : State) : BitVec 32 :=
  0#23 ++ BitVec.ofBool s.faultFlag ++ s.fphase.code ++ s.phase.code

end Sys2Proof.Machine
end

