-- ==== Sys2Proof/Machine/Operands.lean ====
section
/-! DEFINITION. The operand forms: symbols, node indices, the host register file as it reads, and the word in which
`RDNODE` shows a node (30_encoding.md R97 to R99, R106; 10_state.md R36; 44_host_access.md R216). -/

namespace Sys2Proof.Machine

/-- The index of a table a symbol operand or an input byte stands for: the 8 bits as they stand (30_encoding.md R97,
R106; 20_memory.md R62). -/
def symbolIndex (b : BitVec 8) : Symbol := ⟨b.toNat, b.isLt⟩

/-- The node an index operand names, if it is one: 511 is not (30_encoding.md R98; 00_scope.md R8). -/
def nodeIndex? (i : BitVec 9) : Option NodeIdx := if h : i.toNat < 511 then some ⟨i.toNat, h⟩ else none

/-- The 9 bits of a node index field: `NONE` is 511 (00_scope.md R8). -/
def indexBits : Option NodeIdx → BitVec 9
  | none => 511
  | some i => BitVec.ofNat 9 i.val

/-- `aux` of `RDNODE`: `{13'b0, bit, right, parent}` (44_host_access.md R216). -/
def nodeAux (n : Node) : BitVec 32 := 0#13 ++ BitVec.ofBool n.bit ++ indexBits n.right ++ indexBits n.parent

/-- The hardwired `ID`, the letters "HUF7" (10_state.md R40). -/
def idValue : Nat := 0x48554637

/-- `CONFIG`: `CW` in bits 7 to 0, the rest 0 (10_state.md R44). -/
def configRegister (c : Config) : Nat := narrow 8 c.cw

/-- `REG[r]` as the host reads it (10_state.md R36). Numbers 8 to 255 do not exist: no legal command names one. -/
def State.register (s : State) (r : BitVec 8) : Nat :=
  match r.toNat with
  | 0 => idValue
  | 1 => s.status.toNat
  | 2 => (fcodeBits s.fcode).toNat
  | 3 => s.finfo
  | 4 => s.inLen
  | 5 => s.bitsReq
  | 6 => s.outLen
  | 7 => configRegister s.cfg
  | _ => 0

end Sys2Proof.Machine
end

