-- ==== Sys2Proof/Machine/Ops.lean ====
section
/-! DEFINITION. The shared operations: the memory spaces, the response, fault entry, refusal, the phase table, the four
checks every command goes through, the stages of composite commands, and what the host does between commands. -/

namespace Sys2Proof.Machine

/-! ## Memory -/

/-- The byte listed for address `a`, if any. -/
def cellsFind : List Host.Cell → Nat → Option Byte
  | [], _ => none
  | (k, b) :: cs, a => if k = a then some b else cellsFind cs a

/-- List `v` for address `a`, keeping the addresses strictly rising. -/
def cellsPut : List Host.Cell → Nat → Byte → List Host.Cell
  | [], a, v => [(a, v)]
  | (k, b) :: cs, a, v =>
    if a < k then (a, v) :: (k, b) :: cs
    else if a = k then (a, v) :: cs
    else (k, b) :: cellsPut cs a v

/-- List nothing for address `a`. -/
def cellsDrop : List Host.Cell → Nat → List Host.Cell
  | [], _ => []
  | (k, b) :: cs, a => if k = a then cs else (k, b) :: cellsDrop cs a

/-- What address `a` of a space reads as: its cell, else the space's unlisted value (log 5). -/
def Memory.read (sp : Space) (m : Memory) (a : Nat) : Option Byte :=
  match cellsFind m.cells a with
  | some b => some b
  | none => Config.unlisted sp

/-- The space with the byte at `a` replaced by `v` and nothing else changed (20_memory.md R65). A byte that an
unlisted address reads as is not listed. -/
def Memory.write (sp : Space) (m : Memory) (a : Nat) (v : Byte) : Memory :=
  if Config.unlisted sp = some v then { cells := cellsDrop m.cells a } else { cells := cellsPut m.cells a v }

/-- The cells stand at strictly rising addresses. -/
def cellsRising : List Host.Cell → Bool
  | [] => true
  | c :: cs => cs.all (fun d => decide (c.1 < d.1)) && cellsRising cs

/-- The canonical form of a space of `size` addresses: cells at strictly rising addresses below `size`, none holding
what an unlisted address reads as. -/
def Memory.wf (sp : Space) (size : Nat) (m : Memory) : Bool :=
  cellsRising m.cells && m.cells.all (fun c => decide (Config.unlisted sp ≠ some c.2) && decide (c.1 < size))

/-- How many addresses a space has: `2 ^ CW` for `IN` (20_memory.md R61), `2 ^ (BW - 3)` for `OUT` (R64). -/
def spaceSize (c : Config) : Space → Nat
  | .input => 2 ^ c.cw
  | .output => 2 ^ (c.bw - 3)

/-- `MemRead(IN, j, 1)` (20_memory.md R62): it always succeeds. -/
def State.inByte (s : State) (j : Nat) : Byte := (Memory.read .input s.inMem j).getD 0

/-- What the host finds at address `m` of `OUT`: no value where nothing was written (log 5). The block never reads
`OUT` (20_memory.md R64). -/
def State.outByte (s : State) (m : Nat) : Option Byte := Memory.read .output s.outMem m

/-- `MemWrite(OUT, m, 1, v)` for `m = 0 .. n - 1` with `v = f m` (20_memory.md R65). -/
def writeOutBytes (f : Nat → Byte) : Nat → Memory → Memory
  | 0, m => m
  | n + 1, m => Memory.write .output (writeOutBytes f n m) n (f n)

/-! ## Responses, faults, refusals -/

/-- Give the response `r`. -/
def State.respond (s : State) (r : Response) : State := { s with resp := r }

/-- Fault entry: the meaning of `raise F(info)` (60_exceptions.md R240). `FINFO` holds `BW` bits. -/
def State.raise (s : State) (c : Cause) (info : Nat) : State :=
  { s with
    fphase := s.phase
    fcode := some c
    finfo := narrow s.cfg.bw info
    phase := .fault
    resp := Response.failed }

/-- A command refused in phase `FAULT`: no state changes, the response is `ok = 0` (60_exceptions.md R242). -/
def State.refuse (s : State) : State := s.respond Response.failed

/-- The phases 0 to 5, every phase but `FAULT` (10_state.md R31). -/
def Phase.running : Phase → Bool
  | .idle => true
  | .counted => true
  | .built => true
  | .extracted => true
  | .sized => true
  | .packed => true
  | .fault => false

/-- `NODE` holds a tree: phases 2 to 5 (10_state.md R30, R31). -/
def Phase.hasTree : Phase → Bool
  | .idle => false
  | .counted => false
  | .built => true
  | .extracted => true
  | .sized => true
  | .packed => true
  | .fault => false

/-- `LUT` holds codes: phases 3 to 5 (10_state.md R30, R31). -/
def Phase.hasCodes : Phase → Bool
  | .idle => false
  | .counted => false
  | .built => false
  | .extracted => true
  | .sized => true
  | .packed => true
  | .fault => false

/-- `BITS_REQ` is valid: phases 4 and 5 (10_state.md R30, R42). -/
def Phase.hasSize : Phase → Bool
  | .idle => false
  | .counted => false
  | .built => false
  | .extracted => false
  | .sized => true
  | .packed => true
  | .fault => false

/-- The column "Legal when `PHASE` is" of the phase table (10_state.md R31). -/
def legalIn (i : Instr) (p : Phase) : Bool :=
  match i with
  | .nop => p.running
  | .clr => p.running
  | .rdreg _ => true
  | .wrreg _ _ => decide (p = .idle)
  | .enew => p.running
  | .epush _ => p.running
  | .elen => p.running
  | .eempty => p.running
  | .erev => p.running
  | .eeq => p.running
  | .exch => p.running
  | .elut _ => p.hasCodes
  | .erd => p.running
  | .wrfreq _ _ => decide (p = .idle)
  | .rdfreq _ => p.running
  | .rdnode _ => p.hasTree
  | .rdlut _ => p.hasCodes
  | .count => decide (p = .idle)
  | .build => decide (p = .idle) || decide (p = .counted)
  | .extract => decide (p = .built)
  | .size => decide (p = .extracted)
  | .pack => decide (p = .sized)
  | .genenc => decide (p = .idle)
  | .compress => decide (p = .idle)

/-- A word that is illegal by 30_encoding.md R101: refused in phase `FAULT`, else `ILLEGAL_CMD` with the word as
`FINFO` (R103 checks 1 and 2; 60_exceptions.md R236). -/
def State.illegalWord (s : State) (word : BitVec 32) : State :=
  if s.phase = .fault then s.refuse else s.raise .illegalCmd word.toNat

/-- The four checks of 30_encoding.md R103 in their order, around a command's own rule `own`. -/
def State.command (s : State) (i : Instr) (own : State → State) : State :=
  if i.wellFormed s.cfg.cw then
    if legalIn i s.phase then own s
    else if s.phase = .fault then s.refuse
    else s.raise .seqError i.word.toNat
  else s.illegalWord i.word

/-! ## Stages -/

/-- How one stage ends: done, with the value its response would carry, or in a fault already taken. -/
inductive Stage where
  | done (s : State) (data : Nat)
  | raised (s : State)
  deriving DecidableEq, Repr

/-- The next stage of a composite command, which a fault ends (43_count_size_pack.md R200). -/
def Stage.andThen (r : Stage) (next : State → Stage) : Stage :=
  match r with
  | .done s _ => next s
  | .raised s => .raised s

/-- The state at the end of a command that is one stage or several: its response after success. -/
def Stage.finish (r : Stage) : State :=
  match r with
  | .done s data => s.respond (Response.done data)
  | .raised s => s

/-! ## The host between commands -/

/-- Reset as an event between commands (70_reset_and_hazards.md R260, R261): every element of the block at its reset
value, `IN` and `OUT` untouched; the model's own fields stay. -/
def State.hostReset (s : State) : State :=
  { State.reset with
    cfg := s.cfg
    inMem := s.inMem
    outMem := s.outMem
    host := s.host
    fresh := s.fresh }

/-- The host sets a byte of `IN` (70_reset_and_hazards.md R270). -/
def State.hostWriteIn (s : State) (a : Nat) (v : Byte) : Host.Outcome State Fault Refusal :=
  if a < spaceSize s.cfg .input then .next { s with inMem := Memory.write .input s.inMem a v }
  else .fault (.noSuchAddress .input a)

/-- The host sets a byte of `OUT` (70_reset_and_hazards.md R267 forbids it only during a command). -/
def State.hostWriteOut (s : State) (a : Nat) (v : Byte) : Host.Outcome State Fault Refusal :=
  if a < spaceSize s.cfg .output then .next { s with outMem := Memory.write .output s.outMem a v }
  else .fault (.noSuchAddress .output a)

end Sys2Proof.Machine
end

