-- ==== Sys2Proof/Machine/EncodingOps.lean ====
section
/-! DEFINITION. The functions of the Encoding unit, used by its commands and by `EXTRACT`, `SIZE` and `PACK`
(40_encoding_unit.md R120, R121; 10_state.md R33). -/

namespace Sys2Proof.Machine

/-- `bit[i]`, stored at `v[255 - i]` (10_state.md R33). -/
def Encoding.bitAt (e : Encoding) (i : Nat) : Bool := e.v.getLsbD (255 - i)

/-- The bits `bit[0], ..., bit[len - 1]` in index order: the Encoding as a bit string (00_scope.md R14). -/
def Encoding.bits (e : Encoding) : List Bool := (List.range e.len.toNat).map e.bitAt

/-- The padding `v[255 - i]`, `i >= len`, is all zero (10_state.md R33). -/
def Encoding.padded (e : Encoding) : Bool := decide (e.v <<< e.len.toNat = 0)

/-- `v` with bit `k` set to `b`. -/
def setBit (v : BitVec 256) (k : Nat) (b : Bool) : BitVec 256 :=
  if b then v ||| (1#256 <<< k) else v &&& ~~~(1#256 <<< k)

/-- One more bit at the current length: `v[255 - len] <- b`, `len <- len + 1` (40_encoding_unit.md R121). -/
def Encoding.append (e : Encoding) (b : Bool) : Encoding :=
  { len := e.len + 1, v := setBit e.v (255 - e.len.toNat) b }

/-- `enc_push(e, b)`; `none` is its `ENC_OVERFLOW`, at length 255 (40_encoding_unit.md R121, R132). -/
def encPush (e : Encoding) (b : Bool) : Option Encoding := if e.len = 255 then none else some (e.append b)

/-- The Encoding whose bits are those of the list, the padding zero. -/
def Encoding.ofBits (bits : List Bool) : Encoding := bits.foldl Encoding.append Encoding.empty

/-- `enc_reverse(e)`: the bits in reverse order, the padding zero (40_encoding_unit.md R121). -/
def encReverse (e : Encoding) : Encoding := Encoding.ofBits e.bits.reverse

/-- `enc_is_empty(e)` (40_encoding_unit.md R121). -/
def encIsEmpty (e : Encoding) : Bool := decide (e.len = 0)

/-- `enc_eq(x, y)`: equal lengths and equal bits below the length; padding is ignored (40_encoding_unit.md R120). -/
def encEq (x y : Encoding) : Bool :=
  decide (x.len = y.len) && (List.range x.len.toNat).all fun i => x.bitAt i == y.bitAt i

/-- A Boolean result as response data (40_encoding_unit.md R125, R127). -/
def boolData (b : Bool) : Nat := if b then 1 else 0

end Sys2Proof.Machine
end

