-- ==== Sys2Proof/Machine/TreeBuilder.lean ====
section
/-! DEFINITION. The Huffman-tree builder: `build_init`, the priority-queue encoder, the merges, `build_mark`, and the
command BUILD (41_tree_builder.md). The builder is written over the queue's choice `TIEBREAK` (00_scope.md R11); the
machine uses `INDEX_ASC`. -/

namespace Sys2Proof.Machine

/-- The leaf of a symbol (10_state.md R22). -/
def leafOf (s : Symbol) : NodeIdx := ⟨s.val, by omega⟩

/-- The internal nodes 256 to 510 in the order of their creation (10_state.md R22). -/
def internalNodes : List NodeIdx := (List.finRange 511).filter fun i => decide (256 ≤ i.val)

/-- Node 510, the root after `BUILD` (41_tree_builder.md R150). -/
def rootIdx : NodeIdx := ⟨510, by omega⟩

/-- `build_init`: the 256 leaves with their counts, the internal nodes unmade, all leaves queued, `NEXT = 256`
(41_tree_builder.md R142, R154). -/
def buildInit (freq : Vector Nat 256) : Arena :=
  { node := Vector.ofFn fun i =>
      if h : i.val < 256 then { Node.unmade with count := freq[i.val] } else Node.unmade
    inq := Vector.ofFn fun i => decide (i.val < 256)
    next := 256 }

/-- `TIEBREAK`: a choice among the queue's members, given as pairs of count and index (00_scope.md R11). -/
abbrev Tiebreak := List (Nat × NodeIdx) → Option NodeIdx

/-- The member that comes before all others of the queue in an order `earlier`. -/
def firstBy (earlier : Nat × NodeIdx → Nat × NodeIdx → Bool) : Tiebreak
  | [] => none
  | m :: ms => some (ms.foldl (fun best x => if earlier x best then x else best) m).2

/-- The total order on pairs (count, index) by which `INDEX_ASC` takes members (41_tree_builder.md R143). -/
def queuedBefore (x y : Nat × NodeIdx) : Bool :=
  decide (x.1 < y.1) || (decide (x.1 = y.1) && decide (x.2 < y.2))

/-- `TIEBREAK = INDEX_ASC`, this hardware's choice (41_tree_builder.md R143, 00_scope.md R11). -/
def indexAsc : Tiebreak := firstBy queuedBefore

/-- Another legal choice, "smaller count first, then higher index first" (95_test_vectors.md V25); the hardware does
not use it. -/
def indexDesc : Tiebreak :=
  firstBy fun x y => decide (x.1 < y.1) || (decide (x.1 = y.1) && decide (y.2 < x.2))

/-- The queue's members, in index order, each with its count (10_state.md R27). -/
def queueMembers (a : Arena) : List (Nat × NodeIdx) :=
  ((List.finRange 511).filter fun i => a.inq[i]).map fun i => (a.node[i].count, i)

/-- `pq_min()` (41_tree_builder.md R143); `none` only on an empty queue, where it is never called (R148). -/
def pqMin (tb : Tiebreak) (a : Arena) : Option NodeIdx := tb (queueMembers a)

/-- `pq_pop()` (41_tree_builder.md R144). -/
def pqPop (tb : Tiebreak) (a : Arena) : Option (NodeIdx × Arena) :=
  match pqMin tb a with
  | none => none
  | some i => some (i, { a with inq := a.inq.set i false })

/-- `pq_push(i)` (41_tree_builder.md R144). -/
def pqPush (i : NodeIdx) (a : Arena) : Arena := { a with inq := a.inq.set i true }

/-- `NODE[i].parent <- n`. -/
def setParent (node : Vector Node 511) (i n : NodeIdx) : Vector Node 511 :=
  node.set i { node[i] with parent := some n }

/-- The writes of one merge of `l` and `r` into the new node `n`, with `NODE[n].count` of `ncw` bits; on equal counts
the second-popped `r` is the heavier child (41_tree_builder.md R146). -/
def joinNodes (ncw : Nat) (n l r : NodeIdx) (a : Arena) : Arena :=
  let cl := a.node[l].count
  let cr := a.node[r].count
  let made := a.node.set n
    { a.node[n] with count := narrow ncw (cl + cr), right := some (if cl > cr then l else r) }
  pqPush n { a with node := setParent (setParent made l n) r n, next := BitVec.ofNat 9 (n.val + 1) }

/-- `merge_step` for `n = NEXT` (41_tree_builder.md R146). The queue holds two members whenever it is called (R148),
so the `none` cases are not reached from `build_init`. -/
def mergeStep (tb : Tiebreak) (ncw : Nat) (n : NodeIdx) (a : Arena) : Arena :=
  match pqPop tb a with
  | none => a
  | some (l, a₁) =>
    match pqPop tb a₁ with
    | none => a₁
    | some (r, a₂) => joinNodes ncw n l r a₂

/-- `while NEXT <= 510: merge_step()`, at most `fuel` times (41_tree_builder.md R148). -/
def mergeLoop (tb : Tiebreak) (ncw : Nat) : Nat → Arena → Arena
  | 0, a => a
  | fuel + 1, a =>
    if h : a.next.toNat < 511 then mergeLoop tb ncw fuel (mergeStep tb ncw ⟨a.next.toNat, h⟩ a) else a

/-- `build_merge`: 255 merges from `NEXT = 256`, then the pop of the one remaining entry (41_tree_builder.md R148). -/
def buildMerge (tb : Tiebreak) (ncw : Nat) (a : Arena) : Arena :=
  let merged := mergeLoop tb ncw 255 a
  match pqPop tb merged with
  | none => merged
  | some (_, emptied) => emptied

/-- How `build_mark` ends: marked, or at a node that already carries the bit, with the marks made before it. -/
inductive MarkEnd where
  | marked (a : Arena)
  | twice (a : Arena) (r : NodeIdx)
  deriving DecidableEq, Repr

/-- `NODE[r].bit <- 1`. -/
def markNode (r : NodeIdx) (a : Arena) : Arena :=
  { a with node := a.node.set r { a.node[r] with bit := true } }

/-- `build_mark` over a list of internal nodes: the `right` child of each gets the bit 1, and a node that has it
already is a `DOUBLE_MARK` (41_tree_builder.md R149). Every internal node of a finished merge has a `right`, so the
`none` case is not reached from `build_init`. -/
def buildMark : List NodeIdx → Arena → MarkEnd
  | [], a => .marked a
  | n :: rest, a =>
    match a.node[n].right with
    | none => buildMark rest a
    | some r => if a.node[r].bit then .twice a r else buildMark rest (markNode r a)

/-- The tree `BUILD` makes of a frequency table: `build_init`, `build_merge`, `build_mark`; a function of the table
alone, given `TIEBREAK` (41_tree_builder.md R141, R155). -/
def buildTree (tb : Tiebreak) (ncw : Nat) (freq : Vector Nat 256) : MarkEnd :=
  buildMark internalNodes (buildMerge tb ncw (buildInit freq))

/-- `BUILD` as a stage, for one choice of `TIEBREAK` (41_tree_builder.md R141). -/
def State.buildWith (tb : Tiebreak) (s : State) : Stage :=
  match buildTree tb s.cfg.ncw s.freq with
  | .marked a => .done { s with arena := a, phase := .built } a.node[rootIdx].count
  | .twice a r => .raised ({ s with arena := a }.raise .doubleMark r.val)

/-- `BUILD` as a stage of this hardware, with `INDEX_ASC` (41_tree_builder.md R141, 00_scope.md R11). -/
def State.buildStage (s : State) : Stage := s.buildWith indexAsc

/-- `BUILD` (41_tree_builder.md R141). -/
def execBuild (s : State) : Host.Outcome State Fault Refusal :=
  .next (s.command .build fun s => s.buildStage.finish)

end Sys2Proof.Machine
end

