-- ==== Sys2Proof/Machine/LutGenerator.lean ====
section
/-! DEFINITION. The code-length and code-bit LUT generator: `code_of` and the command EXTRACT
(42_lut_generator.md). -/

namespace Sys2Proof.Machine

/-- How a walk from a leaf ends: at the root with the bits it pushed in `ET`, or at a push onto 255 bits, with `ET` as
it was. -/
inductive WalkEnd where
  | root (et : Encoding)
  | overflow (et : Encoding)
  deriving DecidableEq, Repr

/-- The loop of `code_of`: push each visited node's bit and go to its parent, until the node whose parent is `NONE`
(42_lut_generator.md R172). Each link pushes one bit and the 256th push overflows, so 256 rounds always end it. -/
def walkUp (node : Vector Node 511) : Nat → NodeIdx → Encoding → WalkEnd
  | 0, _, et => .overflow et
  | fuel + 1, i, et =>
    match node[i].parent with
    | none => .root et
    | some p =>
      match encPush et node[i].bit with
      | none => .overflow et
      | some et' => walkUp node fuel p et'

/-- The walk of `code_of(s)` from an empty `ET` (42_lut_generator.md R172). -/
def walkFrom (node : Vector Node 511) (s : Symbol) : WalkEnd := walkUp node 256 (leafOf s) Encoding.empty

/-- `EXTRACT` over a list of symbols: `LUT[s] <- enc_reverse(ET)` for each, or `ENC_OVERFLOW(s)` at the first walk that
overflows (42_lut_generator.md R171, R172). -/
def extractFrom : List Symbol → State → Stage
  | [], s => .done { s with phase := .extracted } 0
  | sym :: rest, s =>
    match walkFrom s.arena.node sym with
    | .root et => extractFrom rest { s with et := et, lut := s.lut.set sym (encReverse et) }
    | .overflow et => .raised ({ s with et := et }.raise .encOverflow sym.val)

/-- `EXTRACT` as a stage: all 256 symbols in order (42_lut_generator.md R171). -/
def State.extractStage (s : State) : Stage := extractFrom (List.finRange 256) s

/-- `EXTRACT` (42_lut_generator.md R171). -/
def execExtract (s : State) : Host.Outcome State Fault Refusal :=
  .next (s.command .extract fun s => s.extractStage.finish)

end Sys2Proof.Machine
end

