-- ==== Sys2Proof/Machine/CountSizePack.lean ====
section
/-! DEFINITION. The frequency counter, the sizer, the bit-packer and the composite commands: COUNT, SIZE, PACK, GENENC,
COMPRESS (43_count_size_pack.md). -/

namespace Sys2Proof.Machine

/-! ## COUNT -/

/-- The symbol at input position `j` (20_memory.md R62). -/
def State.inSymbol (s : State) (j : Nat) : Symbol := symbolIndex (s.inByte j)

/-- `FREQ[s] <- FREQ[s] + 1` in `cw` bits (43_count_size_pack.md R181). -/
def bump (cw : Nat) (freq : Vector Nat 256) (sym : Symbol) : Vector Nat 256 :=
  freq.set sym (narrow cw (freq[sym] + 1))

/-- The table after counting the `n` input positions from `lo` on, into `freq` (43_count_size_pack.md R181). -/
def State.tally (s : State) : Nat → Nat → Vector Nat 256 → Vector Nat 256
  | 0, _, freq => freq
  | n + 1, lo, freq => s.tally n (lo + 1) (bump s.cfg.cw freq (s.inSymbol lo))

/-- `COUNT` as a stage (43_count_size_pack.md R181). -/
def State.countStage (s : State) : Stage :=
  if s.inLen = 0 then .raised (s.raise .emptyInput 0)
  else .done { s with freq := s.tally s.inLen 0 (Vector.replicate 256 0), phase := .counted } s.inLen

/-- `COUNT` (43_count_size_pack.md R181). -/
def execCount (s : State) : Host.Outcome State Fault Refusal :=
  .next (s.command .count fun s => s.countStage.finish)

/-! ## SIZE -/

/-- `t <- t + FREQ[s] * LUT[s].len` over a list of symbols, in `bw` bits (43_count_size_pack.md R186). -/
def sizeSum (bw : Nat) (freq : Vector Nat 256) (lut : Vector Encoding 256) : List Symbol → Nat → Nat
  | [], t => t
  | sym :: rest, t => sizeSum bw freq lut rest (narrow bw (t + freq[sym] * lut[sym].len.toNat))

/-- `SIZE` as a stage (43_count_size_pack.md R186). -/
def State.sizeStage (s : State) : Stage :=
  let t := sizeSum s.cfg.bw s.freq s.lut (List.finRange 256) 0
  .done { s with bitsReq := t, phase := .sized } t

/-- `SIZE` (43_count_size_pack.md R186). -/
def execSize (s : State) : Host.Outcome State Fault Refusal :=
  .next (s.command .size fun s => s.sizeStage.finish)

/-! ## PACK -/

/-- Byte `m` of a bit image: `{OUTBIT[8m], ..., OUTBIT[8m+7]}`, bits beyond the image being 0
(43_count_size_pack.md R190; 20_memory.md R66, R67). -/
def imageByte (image : List Bool) (m : Nat) : Byte :=
  BitVec.ofBool (image.getD (8 * m) false) ++ BitVec.ofBool (image.getD (8 * m + 1) false) ++
  BitVec.ofBool (image.getD (8 * m + 2) false) ++ BitVec.ofBool (image.getD (8 * m + 3) false) ++
  BitVec.ofBool (image.getD (8 * m + 4) false) ++ BitVec.ofBool (image.getD (8 * m + 5) false) ++
  BitVec.ofBool (image.getD (8 * m + 6) false) ++ BitVec.ofBool (image.getD (8 * m + 7) false)

/-- How the scan of the input ends: with the bit image, or at the first failing check. -/
inductive PackEnd where
  | packed (image : List Bool)
  | failed (cause : Cause) (info : Nat)
  deriving DecidableEq, Repr

/-- The loop of `PACK` over the `n` input positions from `j` on, `image` being the bits placed so far and its length
`pos`: the checks of each position in their order, and the check of the length at the end
(43_count_size_pack.md R190, R197; 60_exceptions.md R244). -/
def State.packScan (s : State) : Nat → Nat → List Bool → PackEnd
  | 0, _, image => if image.length = s.bitsReq then .packed image else .failed .outUnderrun image.length
  | n + 1, j, image =>
    let e := s.lut[s.inSymbol j]
    if e.len = 0 then .failed .lookupEmpty j
    else if image.length + e.len.toNat > s.bitsReq then .failed .outOverrun j
    else s.packScan n (j + 1) (image ++ e.bits)

/-- A fault raised by `PACK`: fault entry, and the bytes of `OUT` below `ceil8(BITS_REQ)` take free values
(60_exceptions.md R240, R241; log 4). -/
def State.packFault (s : State) (cause : Cause) (info : Nat) : State :=
  { s with
    outMem := writeOutBytes (Config.freeOutByte s.fresh) (ceil8 s.bitsReq) s.outMem
    fresh := s.fresh + 1 }.raise cause info

/-- `PACK` as a stage (43_count_size_pack.md R190). -/
def State.packStage (s : State) : Stage :=
  if s.inLen = 0 then .raised (s.packFault .emptyInput 0)
  else
    match s.packScan s.inLen 0 [] with
    | .failed cause info => .raised (s.packFault cause info)
    | .packed image =>
      .done
        { s with
          outMem := writeOutBytes (imageByte image) (ceil8 s.bitsReq) s.outMem
          outLen := narrow s.cfg.bw image.length
          phase := .packed }
        (narrow s.cfg.bw image.length)

/-- `PACK` (43_count_size_pack.md R190). -/
def execPack (s : State) : Host.Outcome State Fault Refusal :=
  .next (s.command .pack fun s => s.packStage.finish)

/-! ## Composite commands -/

/-- The stages of `GENENC`: `COUNT ; BUILD ; EXTRACT ; SIZE`, ended by the first fault (43_count_size_pack.md R200). -/
def State.genencStage (s : State) : Stage :=
  ((s.countStage.andThen State.buildStage).andThen State.extractStage).andThen State.sizeStage

/-- `GENENC` (43_count_size_pack.md R200). -/
def execGenenc (s : State) : Host.Outcome State Fault Refusal :=
  .next (s.command .genenc fun s => s.genencStage.finish)

/-- `COMPRESS`: the stages `COUNT ; BUILD ; EXTRACT ; SIZE ; PACK` (43_count_size_pack.md R201). -/
def execCompress (s : State) : Host.Outcome State Fault Refusal :=
  .next (s.command .compress fun s => (s.genencStage.andThen State.packStage).finish)

end Sys2Proof.Machine
end

