-- ==== Sys2Proof/Machine/HostAccess.lean ====
section
/-! DEFINITION. The host access commands NOP, CLR, RDREG, WRREG, WRFREQ, RDFREQ, RDNODE, RDLUT (44_host_access.md). -/

namespace Sys2Proof.Machine

/-- `NOP` (44_host_access.md R210). -/
def execNop (s : State) : Host.Outcome State Fault Refusal :=
  .next (s.command .nop fun s => s.respond (Response.done 0))

/-- `NODE`, `INQ`, `NEXT` with unspecified contents: free values, each of its field's width (log 4). -/
def freeArena (c : Config) (draw : Nat) : Arena :=
  { node := Vector.ofFn fun i =>
      { count := narrow c.ncw (Config.freeCount draw i)
        parent := Config.freeParent draw i
        bit := Config.freeNodeBit draw i
        right := Config.freeRight draw i }
    inq := Vector.ofFn fun i => Config.freeMember draw i
    next := Config.freeNext draw }

/-- An Encoding register or table entry with unspecified contents: a free value (log 4). -/
def freeEncoding (draw i : Nat) : Encoding :=
  { len := Config.freeCodeLen draw i, v := Config.freeCodeBits draw i }

/-- What `CLR` does: the listed registers cleared, `NODE`, `INQ`, `NEXT`, `LUT` (and `ET`, U9) unspecified, the fault
registers and both memory spaces untouched (44_host_access.md R211). -/
def State.clear (s : State) : State :=
  { s with
    freq := Vector.replicate 256 0
    inLen := 0
    bitsReq := 0
    outLen := 0
    ea := Encoding.empty
    eb := Encoding.empty
    arena := freeArena s.cfg s.fresh
    lut := Vector.ofFn fun i => freeEncoding s.fresh i
    et := freeEncoding s.fresh 256
    fresh := s.fresh + 1
    phase := .idle }

/-- `CLR` (44_host_access.md R211). -/
def execClr (s : State) : Host.Outcome State Fault Refusal :=
  .next (s.command .clr fun s => s.clear.respond (Response.done 0))

/-- `RDREG r` (44_host_access.md R212). -/
def execRdreg (r : BitVec 8) (s : State) : Host.Outcome State Fault Refusal :=
  .next (s.command (.rdreg r) fun s => s.respond (Response.done (s.register r)))

/-- `WRREG r, wdata`: only register 4, `IN_LEN`, is writable (44_host_access.md R213). -/
def execWrreg (r : BitVec 8) (wdata : Nat) (s : State) : Host.Outcome State Fault Refusal :=
  .next (s.command (.wrreg r wdata) fun s =>
    { s with inLen := narrow s.cfg.cw wdata }.respond (Response.done 0))

/-- `WRFREQ s, wdata` (44_host_access.md R214). -/
def execWrfreq (sym : BitVec 8) (wdata : Nat) (s : State) : Host.Outcome State Fault Refusal :=
  .next (s.command (.wrfreq sym wdata) fun s =>
    { s with freq := s.freq.set (symbolIndex sym) (narrow s.cfg.cw wdata) }.respond (Response.done 0))

/-- `RDFREQ s` (44_host_access.md R215). -/
def execRdfreq (sym : BitVec 8) (s : State) : Host.Outcome State Fault Refusal :=
  .next (s.command (.rdfreq sym) fun s => s.respond (Response.done s.freq[symbolIndex sym]))

/-- The response of `RDNODE` (44_host_access.md R216). -/
def nodeResponse (n : Node) : Response :=
  { ok := true, data := n.count, aux := nodeAux n, enc := Encoding.empty }

/-- `RDNODE i` (44_host_access.md R216). Index 511 names no node and its word is illegal, so `none` is not reached. -/
def execRdnode (i : BitVec 9) (s : State) : Host.Outcome State Fault Refusal :=
  .next (s.command (.rdnode i) fun s =>
    match nodeIndex? i with
    | some n => s.respond (nodeResponse s.arena.node[n])
    | none => s)

/-- The response that reads out an Encoding (40_encoding_unit.md R130, 44_host_access.md R217). -/
def encodingResponse (e : Encoding) : Response :=
  { ok := true, data := e.len.toNat, aux := 0, enc := e }

/-- `RDLUT s` (44_host_access.md R217). -/
def execRdlut (sym : BitVec 8) (s : State) : Host.Outcome State Fault Refusal :=
  .next (s.command (.rdlut sym) fun s => s.respond (encodingResponse s.lut[symbolIndex sym]))

end Sys2Proof.Machine
end

