-- ==== Sys2Proof/Machine/EncodingUnit.lean ====
section
/-! DEFINITION. The Encoding unit's commands ENEW, EPUSH, ELEN, EEMPTY, EREV, EEQ, EXCH, ELUT, ERD
(40_encoding_unit.md). -/

namespace Sys2Proof.Machine

/-- `ENEW` (40_encoding_unit.md R122). -/
def execEnew (s : State) : Host.Outcome State Fault Refusal :=
  .next (s.command .enew fun s => { s with ea := Encoding.empty }.respond (Response.done 0))

/-- `EPUSH b`: the new length is the response; at length 255 it raises `ENC_OVERFLOW(0x100)` and leaves `EA` as it was
(40_encoding_unit.md R123, 60_exceptions.md R233). -/
def execEpush (b : Bool) (s : State) : Host.Outcome State Fault Refusal :=
  .next (s.command (.epush b) fun s =>
    match encPush s.ea b with
    | some e => { s with ea := e }.respond (Response.done e.len.toNat)
    | none => s.raise .encOverflow 0x100)

/-- `ELEN` (40_encoding_unit.md R124). -/
def execElen (s : State) : Host.Outcome State Fault Refusal :=
  .next (s.command .elen fun s => s.respond (Response.done s.ea.len.toNat))

/-- `EEMPTY` (40_encoding_unit.md R125). -/
def execEempty (s : State) : Host.Outcome State Fault Refusal :=
  .next (s.command .eempty fun s => s.respond (Response.done (boolData (encIsEmpty s.ea))))

/-- `EREV` (40_encoding_unit.md R126). -/
def execErev (s : State) : Host.Outcome State Fault Refusal :=
  .next (s.command .erev fun s => { s with ea := encReverse s.ea }.respond (Response.done 0))

/-- `EEQ` (40_encoding_unit.md R127). -/
def execEeq (s : State) : Host.Outcome State Fault Refusal :=
  .next (s.command .eeq fun s => s.respond (Response.done (boolData (encEq s.ea s.eb))))

/-- `EXCH` (40_encoding_unit.md R128). -/
def execExch (s : State) : Host.Outcome State Fault Refusal :=
  .next (s.command .exch fun s => { s with ea := s.eb, eb := s.ea }.respond (Response.done 0))

/-- `ELUT s` (40_encoding_unit.md R129). -/
def execElut (sym : BitVec 8) (s : State) : Host.Outcome State Fault Refusal :=
  .next (s.command (.elut sym) fun s =>
    { s with ea := s.lut[symbolIndex sym] }.respond (Response.done s.lut[symbolIndex sym].len.toNat))

/-- `ERD` (40_encoding_unit.md R130). -/
def execErd (s : State) : Host.Outcome State Fault Refusal :=
  .next (s.command .erd fun s => s.respond (encodingResponse s.ea))

end Sys2Proof.Machine
end

