-- ==== Sys2Proof/Machine/Dispatch.lean ====
section
/-! DEFINITION. One arm per command: the meaning it has. -/

namespace Sys2Proof.Machine

def exec (i : Instr) (s : State) : Host.Outcome State Fault Refusal :=
  match i with
  | .nop => Sys2Proof.Machine.execNop s
  | .clr => Sys2Proof.Machine.execClr s
  | .rdreg r => Sys2Proof.Machine.execRdreg r s
  | .wrreg r wdata => Sys2Proof.Machine.execWrreg r wdata s
  | .enew => Sys2Proof.Machine.execEnew s
  | .epush b => Sys2Proof.Machine.execEpush b s
  | .elen => Sys2Proof.Machine.execElen s
  | .eempty => Sys2Proof.Machine.execEempty s
  | .erev => Sys2Proof.Machine.execErev s
  | .eeq => Sys2Proof.Machine.execEeq s
  | .exch => Sys2Proof.Machine.execExch s
  | .elut sym => Sys2Proof.Machine.execElut sym s
  | .erd => Sys2Proof.Machine.execErd s
  | .wrfreq sym wdata => Sys2Proof.Machine.execWrfreq sym wdata s
  | .rdfreq sym => Sys2Proof.Machine.execRdfreq sym s
  | .rdnode n => Sys2Proof.Machine.execRdnode n s
  | .rdlut sym => Sys2Proof.Machine.execRdlut sym s
  | .count => Sys2Proof.Machine.execCount s
  | .build => Sys2Proof.Machine.execBuild s
  | .extract => Sys2Proof.Machine.execExtract s
  | .size => Sys2Proof.Machine.execSize s
  | .pack => Sys2Proof.Machine.execPack s
  | .genenc => Sys2Proof.Machine.execGenenc s
  | .compress => Sys2Proof.Machine.execCompress s

end Sys2Proof.Machine
end

