-- ==== Sys2Proof/Machine/Port.lean ====
section
/-! DEFINITION. How a command comes in on the port (30_encoding.md R90, R103): its word is decoded, and an illegal
word takes the fault of R101. -/

namespace Sys2Proof.Machine

/-- Process one command presented on the port (30_encoding.md R103). -/
def State.process (s : State) (c : Command) : Host.Outcome State Fault Refusal :=
  match decode s.cfg.cw c with
  | .ok i => exec i s
  | .error _ => .next (s.illegalWord c.word)

/-- The state with the host's first action taken off the list. -/
def State.taken (s : State) : State := { s with host := s.host.tail }

/-- The command that stands for a table row's bits, with `wdata = 0`. -/
def tableCommand (w : Nat) : Command := { word := BitVec.ofNat 32 w, wdata := 0 }

end Sys2Proof.Machine
end

