-- ==== Sys2Proof/Machine/Step.lean ====
section
/-! DEFINITION. One step: the host's next action, or waiting (00_scope.md R15, 70_reset_and_hazards.md R262). -/

namespace Sys2Proof.Machine

/-- One step of the machine: the host's next action is taken whole; with none pending the block waits. -/
def step (s : State) : Host.Outcome State Fault Refusal :=
  match s.host with
  | [] => .next s
  | .issue c :: _ => s.taken.process c
  | .writeIn a v :: _ => s.taken.hostWriteIn a v
  | .writeOut a v :: _ => s.taken.hostWriteOut a v
  | .reset :: _ => .next s.taken.hostReset

/-- The state in which the host's very next action is to issue the command of a table row's bits. The block fetches
nothing (20_memory.md R78): this stands for the host issuing the command (log 3). -/
def State.withFetchWord (s : State) (_nbits w : Nat) : State :=
  { s with host := .issue (tableCommand w) :: s.host }

end Sys2Proof.Machine
end

