-- ==== Sys2Proof/Machine/Lanes.lean ====
section
/-! DEFINITION. The lane forms of COUNT and PACK, the barrel shifter and the join of lane buffers
(43_count_size_pack.md R182, R193 to R196). The machine runs the sequential rules, which define the result (R197,
log 7); these functions are the datapath that realises them, over any choice of `PART` (00_scope.md R10). -/

namespace Sys2Proof.Machine

/-- `PART`: the chunk boundaries `b_0, ..., b_P` of an input of `n` bytes: from 0, strictly rising, to `n`, with at
least one chunk (00_scope.md R10). -/
def validPart (n : Nat) (part : List Nat) : Bool :=
  decide (part.head? = some 0) && decide (part.getLast? = some n) && decide (2 ≤ part.length) &&
    decide (part.Pairwise (· < ·))

/-- The chunks `(b_p, b_(p+1))` in order of their lanes. -/
def chunks (part : List Nat) : List (Nat × Nat) := part.zip part.tail

/-! ## Counting in lanes -/

/-- `C_p`: the counts of one chunk, in a table of its own (43_count_size_pack.md R182). -/
def State.laneCounts (s : State) (chunk : Nat × Nat) : Vector Nat 256 :=
  s.tally (chunk.2 - chunk.1) chunk.1 (Vector.replicate 256 0)

/-- Two partial tables combined element by element, in `cw` bits (43_count_size_pack.md R182). -/
def addCounts (cw : Nat) (x y : Vector Nat 256) : Vector Nat 256 :=
  Vector.ofFn fun i => narrow cw (x[i] + y[i])

/-- The partial tables of some lanes combined one after another (43_count_size_pack.md R182). -/
def State.combineLanes (s : State) : List (Nat × Nat) → Vector Nat 256
  | [] => Vector.replicate 256 0
  | chunk :: rest => addCounts s.cfg.cw (s.laneCounts chunk) (s.combineLanes rest)

/-! ## Packing in lanes, as bit strings -/

/-- The codes of the `n` input positions from `j` on, in input order (43_count_size_pack.md R190). -/
def State.codeBits (s : State) : Nat → Nat → List Bool
  | 0, _ => []
  | n + 1, j => s.lut[s.inSymbol j].bits ++ s.codeBits n (j + 1)

/-- `B_p`: the bit string of one chunk (43_count_size_pack.md R193). -/
def State.laneBits (s : State) (chunk : Nat × Nat) : List Bool := s.codeBits (chunk.2 - chunk.1) chunk.1

/-- `B_0 ++ B_1 ++ ... ++ B_(P-1)`, by lane number (43_count_size_pack.md R193, R194). -/
def State.joinedBits (s : State) (part : List Nat) : List Bool := (chunks part).flatMap s.laneBits

/-! ## The barrel shifter -/

/-- A byte image `ACC`, byte 0 first; beyond its end it reads 0 and an OR has no place. -/
abbrev ByteImage := List Byte

/-- `ACC[m] <- ACC[m] OR b`. -/
def orByte (acc : ByteImage) (m : Nat) (b : Byte) : ByteImage := acc.modify m (· ||| b)

/-- `X = {e.v, 0x00} >> sh`, 264 bits (43_count_size_pack.md R195). -/
def shiftedCode (e : Encoding) (sh : Nat) : BitVec 264 := (e.v ++ 0#8) >>> sh

/-- `X.byte[t] = X[263 - 8t : 256 - 8t]` (43_count_size_pack.md R195). -/
def shiftedByte (x : BitVec 264) (t : Nat) : Byte := x.extractLsb' (256 - 8 * t) 8

/-- Append Encoding `e` at bit position `pos` of `acc` (43_count_size_pack.md R195). -/
def placeCode (acc : ByteImage) (pos : Nat) (e : Encoding) : ByteImage :=
  let x := shiftedCode e (pos % 8)
  (List.range ((pos % 8 + e.len.toNat - 1) / 8 + 1)).foldl
    (fun acc t => orByte acc (pos / 8 + t) (shiftedByte x t)) acc

/-- The buffer of a lane grown by the codes of `n` input positions from `j` on, at bit positions from `pos` on. -/
def State.placeCodes (s : State) : Nat → Nat → Nat → ByteImage → ByteImage
  | 0, _, _, acc => acc
  | n + 1, j, pos, acc =>
    s.placeCodes n (j + 1) (pos + s.lut[s.inSymbol j].len.toNat) (placeCode acc pos s.lut[s.inSymbol j])

/-- The byte buffer of one lane, from bit 0 of its own image, zero beyond its bits (43_count_size_pack.md R196). -/
def State.laneBuffer (s : State) (chunk : Nat × Nat) : ByteImage :=
  s.placeCodes (chunk.2 - chunk.1) chunk.1 0 (List.replicate (ceil8 (s.laneBits chunk).length) 0)

/-- Byte `t` of a lane buffer moved right by `sh` bits, with the bits carried in from byte `t - 1`
(43_count_size_pack.md R196). -/
def joinByte (buffer : ByteImage) (sh t : Nat) : Byte :=
  ((buffer.getD t 0) >>> sh) ||| ((if t = 0 then 0 else buffer.getD (t - 1) 0) <<< (8 - sh))

/-- Join a lane buffer of `len` bits into `acc` at bit `start` (43_count_size_pack.md R196). -/
def joinLane (acc : ByteImage) (start : Nat) (buffer : ByteImage) (len : Nat) : ByteImage :=
  (List.range (ceil8 (start % 8 + len))).foldl
    (fun acc t => orByte acc (start / 8 + t) (joinByte buffer (start % 8) t)) acc

/-- Join the lanes of a list of chunks in their order, the first at bit `start` (43_count_size_pack.md R194, R196). -/
def State.joinLanes (s : State) : List (Nat × Nat) → Nat → ByteImage → ByteImage
  | [], _, acc => acc
  | chunk :: rest, start, acc =>
    s.joinLanes rest (start + (s.laneBits chunk).length)
      (joinLane acc start (s.laneBuffer chunk) (s.laneBits chunk).length)

/-- The final `ACC` of `PACK` in lanes, for the boundaries `part` (43_count_size_pack.md R196). -/
def State.lanesImage (s : State) (part : List Nat) : ByteImage :=
  s.joinLanes (chunks part) 0 (List.replicate (ceil8 (s.joinedBits part).length) 0)

end Sys2Proof.Machine
end

