-- ==== Sys2Proof/Safety.lean ====
section
/-! DEFINITION. The terms the claims use: the invariants of a state, what a command leaves unchanged, the shape of a
built tree, the laws of a code table, and the reading of `OUT` as a bit sequence. -/

namespace Sys2Proof.Machine

/-! ## Invariants of a state -/

/-- Every register holds a number of its width, both memory spaces have their canonical form, every Encoding that can
be read has zero padding, and the host's commands carry write data of the port's width (00_scope.md R9; 10_state.md
R21, R23, R33, R38 to R43; 30_encoding.md R90, R94). -/
structure State.WF (s : State) : Prop where
  config : s.cfg.legal = true
  freq : ∀ sym : Symbol, s.freq[sym] < 2 ^ s.cfg.cw
  inLen : s.inLen < 2 ^ s.cfg.cw
  finfo : s.finfo < 2 ^ s.cfg.bw
  bitsReq : s.bitsReq < 2 ^ s.cfg.bw
  outLen : s.outLen < 2 ^ s.cfg.bw
  counts : ∀ i : NodeIdx, s.arena.node[i].count < 2 ^ s.cfg.ncw
  data : s.resp.data < 2 ^ s.cfg.bw
  respEnc : s.resp.enc.padded = true
  ea : s.ea.padded = true
  eb : s.eb.padded = true
  lut : s.phase.hasCodes = true → ∀ sym : Symbol, s.lut[sym].padded = true
  inMem : Memory.wf .input (spaceSize s.cfg .input) s.inMem = true
  outMem : Memory.wf .output (spaceSize s.cfg .output) s.outMem = true
  port : ∀ c : Command, HostAct.issue c ∈ s.host → c.wdata < 2 ^ s.cfg.bw

/-- The fault registers and the result registers agree with `PHASE` (10_state.md R35, R38, R39, R42, R43, R45;
60_exceptions.md R231). -/
structure State.Coherent (s : State) : Prop where
  clean : s.phase ≠ .fault → s.fcode = none ∧ s.finfo = 0 ∧ s.fphase = .idle
  faulted : s.phase = .fault → s.fcode ≠ none ∧ s.fcode ≠ some .tableSize ∧ s.fphase ≠ .fault
  unsized : s.phase = .idle ∨ s.phase = .counted ∨ s.phase = .built ∨ s.phase = .extracted → s.bitsReq = 0
  unpacked : s.phase ≠ .packed → s.phase ≠ .fault → s.outLen = 0
  packed : s.phase = .packed → s.outLen = s.bitsReq

/-- The sum over all symbols of count times code length (43_count_size_pack.md R186). -/
def weightedLength (freq : Vector Nat 256) (lut : Vector Encoding 256) : Nat :=
  ∑ sym : Symbol, freq[sym] * lut[sym].len.toNat

/-- `lut` is the code table of the tree in `node`: every entry is `code_of` its symbol (42_lut_generator.md R171,
R172). -/
def CodesOf (node : Vector Node 511) (lut : Vector Encoding 256) : Prop :=
  ∀ sym : Symbol, ∃ et, walkFrom node sym = .root et ∧ lut[sym] = encReverse et

/-- What the block holds is what its stages make of `FREQ`: in the phases in which a table can be read, `NODE` is the
tree of `FREQ`, `LUT` the codes of `NODE`, `BITS_REQ` their size (10_state.md R21, R22, R29, R31, R42). -/
structure State.Consistent (s : State) : Prop where
  tree : s.phase.hasTree = true → buildTree indexAsc s.cfg.ncw s.freq = .marked s.arena
  codes : s.phase.hasCodes = true → CodesOf s.arena.node s.lut
  size : s.phase.hasSize = true → s.bitsReq = weightedLength s.freq s.lut

/-- Register widths and consistency together. -/
def State.Inv (s : State) : Prop := s.WF ∧ s.Coherent ∧ s.Consistent

/-- The elements that 10_state.md R49 gives a value at reset hold it, as the host reads them. -/
def ResetValues (s : State) : Prop :=
  s.phase = .idle ∧ s.faultFlag = false ∧ s.fcode = none ∧ s.finfo = 0 ∧ s.fphase = .idle ∧
    s.inLen = 0 ∧ s.bitsReq = 0 ∧ s.outLen = 0 ∧ (∀ sym : Symbol, s.freq[sym] = 0) ∧
    s.ea = { len := 0, v := 0 } ∧ s.eb = { len := 0, v := 0 } ∧
    s.register 0 = 0x48554637 ∧ s.register 1 = 0 ∧ s.register 7 = s.cfg.cw % 256

/-! ## Frames -/

/-- Every byte of both memory spaces reads as before. -/
def SameMemory (s t : State) : Prop :=
  (∀ a, t.inByte a = s.inByte a) ∧ (∀ a, t.outByte a = s.outByte a)

/-- `FCODE`, `FINFO`, `FPHASE` as before. -/
def SameFaultRegs (s t : State) : Prop := t.fcode = s.fcode ∧ t.finfo = s.finfo ∧ t.fphase = s.fphase

/-- `IN_LEN`, `BITS_REQ`, `OUT_LEN` as before. -/
def SameHostRegs (s t : State) : Prop :=
  t.inLen = s.inLen ∧ t.bitsReq = s.bitsReq ∧ t.outLen = s.outLen

/-- `FREQ`, `NODE`, `INQ`, `NEXT`, `LUT` and `ET` as before. -/
def SameTables (s t : State) : Prop :=
  t.freq = s.freq ∧ t.arena = s.arena ∧ t.lut = s.lut ∧ t.et = s.et

/-- `EA` and `EB` as before. -/
def SameEncRegs (s t : State) : Prop := t.ea = s.ea ∧ t.eb = s.eb

/-- `CW` and the host's further actions as before. -/
def SameHost (s t : State) : Prop := t.cfg = s.cfg ∧ t.host = s.host

/-- Everything but the response as before. -/
def SameState (s t : State) : Prop :=
  t.phase = s.phase ∧ SameMemory s t ∧ SameFaultRegs s t ∧ SameHostRegs s t ∧ SameTables s t ∧ SameEncRegs s t ∧
    SameHost s t

/-- `t` is `s` after the fault entry of 60_exceptions.md R240 with cause `c` and information `info`, as far as the
fault registers, `PHASE` and the response go. -/
def FaultEntered (s t : State) (c : Cause) (info : Nat) : Prop :=
  t.fphase = s.phase ∧ t.fcode = some c ∧ t.finfo = info ∧ t.phase = .fault ∧ t.resp = Response.failed

/-- `t` is `s` after a fault entry that changed nothing but the four registers (60_exceptions.md R240). -/
def FaultOnly (s t : State) (c : Cause) (info : Nat) : Prop :=
  FaultEntered s t c info ∧ SameMemory s t ∧ SameHostRegs s t ∧ SameTables s t ∧ SameEncRegs s t ∧ SameHost s t

/-- The phases 0 to 5 (10_state.md R30). -/
def runningPhases : List Phase := [.idle, .counted, .built, .extracted, .sized, .packed]

/-- The column "Legal when `PHASE` is" of the phase table, as lists (10_state.md R31). -/
def legalPhases (i : Instr) : List Phase :=
  match i with
  | .nop => runningPhases
  | .clr => runningPhases
  | .rdreg _ => runningPhases ++ [.fault]
  | .wrreg _ _ => [.idle]
  | .enew => runningPhases
  | .epush _ => runningPhases
  | .elen => runningPhases
  | .eempty => runningPhases
  | .erev => runningPhases
  | .eeq => runningPhases
  | .exch => runningPhases
  | .elut _ => [.extracted, .sized, .packed]
  | .erd => runningPhases
  | .wrfreq _ _ => [.idle]
  | .rdfreq _ => runningPhases
  | .rdnode _ => [.built, .extracted, .sized, .packed]
  | .rdlut _ => [.extracted, .sized, .packed]
  | .count => [.idle]
  | .build => [.idle, .counted]
  | .extract => [.built]
  | .size => [.extracted]
  | .pack => [.sized]
  | .genenc => [.idle]
  | .compress => [.idle]

/-- In phase `FAULT` the command is refused: `ok = 0`, nothing else changes (60_exceptions.md R242). -/
def RefusedInFault (i : Instr) : Prop :=
  ∀ s : State, s.phase = .fault → exec i s = .next { s with resp := Response.failed }

/-- Issued with a legal word in a running phase that is not in `phases`, the command takes `SEQ_ERROR` with its word as
`FINFO` and changes nothing else (60_exceptions.md R237, R240). -/
def SequencedIn (i : Instr) (phases : List Phase) : Prop :=
  ∀ s : State, s.cfg.legal = true → i.wellFormed s.cfg.cw = true → s.phase ≠ .fault → s.phase ∉ phases →
    ∃ t, exec i s = .next t ∧ FaultOnly s t .seqError i.word.toNat

/-- The command word and its write data are illegal: the cases (a) to (f) of 30_encoding.md R101, (a) and (b) being
that no row of the opcode table covers the word. -/
def IllegalWord (cw : Nat) (c : Command) : Prop :=
  (∀ row ∈ opcodeRows, row.covers c.word = false) ∨
  (c.word.extractLsb' 24 8 = 0x22 ∧ c.word.extractLsb' 0 9 = 511) ∨
  (c.word.extractLsb' 24 8 = 0x02 ∧ 8 ≤ (c.word.extractLsb' 0 8).toNat) ∨
  (c.word.extractLsb' 24 8 = 0x03 ∧ (c.word.extractLsb' 0 8).toNat ≠ 4) ∨
  ((c.word.extractLsb' 24 8 = 0x03 ∨ c.word.extractLsb' 24 8 = 0x20) ∧ 2 ^ cw ≤ c.wdata)

/-- The column "`PHASE` after" of the phase table (10_state.md R31). -/
def phaseAfter (i : Instr) (p : Phase) : Phase :=
  match i with
  | .nop => p
  | .clr => .idle
  | .rdreg _ => p
  | .wrreg _ _ => .idle
  | .enew => p
  | .epush _ => p
  | .elen => p
  | .eempty => p
  | .erev => p
  | .eeq => p
  | .exch => p
  | .elut _ => p
  | .erd => p
  | .wrfreq _ _ => .idle
  | .rdfreq _ => p
  | .rdnode _ => p
  | .rdlut _ => p
  | .count => .counted
  | .build => .built
  | .extract => .extracted
  | .size => .sized
  | .pack => .packed
  | .genenc => .sized
  | .compress => .packed

/-! ## The built tree -/

/-- `TIEBREAK` is legal: on a queue with members it returns a member of least count (00_scope.md R11). -/
def LegalTiebreak (tb : Tiebreak) : Prop :=
  ∀ queue : List (Nat × NodeIdx), queue ≠ [] →
    ∃ m ∈ queue, tb queue = some m.2 ∧ ∀ x ∈ queue, m.1 ≤ x.1

/-- The two children of the internal node `n`: `l` with bit 0 and `r`, recorded as `right`, with bit 1 and at least as
heavy; `n` weighs what both weigh together (41_tree_builder.md R146, R149, R150, R151). -/
structure Children (node : Vector Node 511) (n l r : NodeIdx) : Prop where
  distinct : l ≠ r
  only : ∀ i : NodeIdx, node[i].parent = some n ↔ i = l ∨ i = r
  right : node[n].right = some r
  count : node[n].count = node[l].count + node[r].count
  heavier : node[l].count ≤ node[r].count
  bits : node[l].bit = false ∧ node[r].bit = true

/-- The tree `BUILD` leaves for the table `freq` (41_tree_builder.md R147, R149, R150, R151). -/
structure BuiltTree (freq : Vector Nat 256) (a : Arena) : Prop where
  next : a.next = 511
  queue : ∀ i : NodeIdx, a.inq[i] = false
  leaves : ∀ sym : Symbol, a.node[leafOf sym].count = freq[sym] ∧ a.node[leafOf sym].right = none
  root : a.node[rootIdx].parent = none ∧ a.node[rootIdx].bit = false
  above : ∀ i : NodeIdx, i ≠ rootIdx → ∃ p : NodeIdx, a.node[i].parent = some p ∧ 256 ≤ p.val ∧ i < p
  children : ∀ n : NodeIdx, 256 ≤ n.val → ∃ l r : NodeIdx, Children a.node n l r
  total : a.node[rootIdx].count = ∑ sym : Symbol, freq[sym]

/-- The parent links from node `i` lead to a root, and `bits` are the bits of the nodes visited on the way, the root's
left out (42_lut_generator.md R172). -/
inductive RootPath (node : Vector Node 511) : NodeIdx → List Bool → Prop where
  | root (i : NodeIdx) : node[i].parent = none → RootPath node i []
  | link (i p : NodeIdx) (bits : List Bool) :
      node[i].parent = some p → RootPath node p bits → RootPath node i (node[i].bit :: bits)

/-! ## The code table -/

/-- No code is a bit-prefix of the code of another symbol (42_lut_generator.md R174). -/
def CodesPrefixFree (lut : Vector Encoding 256) : Prop :=
  ∀ x y : Symbol, x ≠ y → ¬ lut[x].bits <+: lut[y].bits

/-- The lengths satisfy `sum of 2^(-len) = 1`, written over the common denominator `2^255` (42_lut_generator.md
R175). -/
def CodesComplete (lut : Vector Encoding 256) : Prop :=
  ∑ sym : Symbol, 2 ^ (255 - lut[sym].len.toNat) = 2 ^ 255

/-- The prefix-matching automaton of 43_count_size_pack.md R199: while bits remain, the symbol whose code the remaining
bits begin with is emitted and its code dropped; at most `fuel` symbols. It is no hardware (00_scope.md R4). -/
def decodeBits (lut : Vector Encoding 256) : Nat → List Bool → Option (List Symbol)
  | _, [] => some []
  | 0, _ :: _ => none
  | fuel + 1, b :: bs =>
    match (List.finRange 256).find? fun sym => lut[sym].bits.isPrefixOf (b :: bs) with
    | none => none
    | some sym => (decodeBits lut fuel ((b :: bs).drop lut[sym].len.toNat)).map (sym :: ·)

/-! ## The packed output -/

/-- `OUTBIT[k]` as it stands in `OUT`: bit `7 - k mod 8` of byte `k div 8` (20_memory.md R66). -/
def State.outBit (s : State) (k : Nat) : Option Bool := (s.outByte (k / 8)).map fun b => b.getLsbD (7 - k % 8)

/-- Bit `k` of a byte image, in the same order (20_memory.md R66). -/
def imageBit (acc : ByteImage) (k : Nat) : Bool := (acc.getD (k / 8) 0).getLsbD (7 - k % 8)

/-- The code length of the symbol at input position `j`. -/
def State.lenAt (s : State) (j : Nat) : Nat := s.lut[s.inSymbol j].len.toNat

/-- The bit position at which the code of input position `j` starts. -/
def State.startAt (s : State) (j : Nat) : Nat := ∑ k ∈ Finset.range j, s.lenAt k

/-- Input position `j` passes the checks of `PACK`: its code is not empty and ends within `BITS_REQ`
(43_count_size_pack.md R190). -/
def State.fitsAt (s : State) (j : Nat) : Prop := s.lenAt j ≠ 0 ∧ s.startAt j + s.lenAt j ≤ s.bitsReq

end Sys2Proof.Machine
end

