-- ==== Sys2Proof/Certificates/Slice0/Obligations.lean ====
section
/-! DEFINITION. The statements for the provers. Each says which rule of the spec it formalises. -/

open Sys2Proof Sys2Proof.Machine

/-! ## Host access (44_host_access.md) -/

/-- R210. -/
def Obligations.NopAnswersOkAndChangesNothing : Prop :=
  (encode .nop).word = 0x00000000#32 ∧
  (∀ s : State, s.phase ≠ .fault →
    ∃ t, exec .nop s = .next t ∧ t.resp = Response.done 0 ∧ SameState s t) ∧
  RefusedInFault .nop

/-- R211. The contents of `NODE`, `INQ`, `NEXT`, `LUT` afterwards are free values; that they are unreadable is said by
the last clause. -/
def Obligations.ClrBeginsANewCall : Prop :=
  (encode .clr).word = 0x01000000#32 ∧
  (∀ s : State, s.phase ≠ .fault →
    ∃ t, exec .clr s = .next t ∧ t.resp = Response.done 0 ∧ t.phase = .idle ∧
      (∀ sym : Symbol, t.freq[sym] = 0) ∧ t.inLen = 0 ∧ t.bitsReq = 0 ∧ t.outLen = 0 ∧
      t.ea = Encoding.empty ∧ t.eb = Encoding.empty ∧
      SameFaultRegs s t ∧ SameMemory s t ∧ SameHost s t ∧
      ∀ b : BitVec 8, ∀ n : BitVec 9, n.toNat < 511 →
        (∃ u, exec (.rdnode n) t = .next u ∧ u.fcode = some .seqError) ∧
        (∃ u, exec (.rdlut b) t = .next u ∧ u.fcode = some .seqError) ∧
        (∃ u, exec (.elut b) t = .next u ∧ u.fcode = some .seqError)) ∧
  RefusedInFault .clr

/-- R212, with the registers of R36 to R45. -/
def Obligations.RdregReadsTheEightRegisters : Prop :=
  (∀ r : BitVec 8, (encode (.rdreg r)).word = 0x02000000#32 ||| r.setWidth 32) ∧
  (∀ (s : State) (r : BitVec 8), s.cfg.legal = true → r.toNat < 8 →
    ∃ t, exec (.rdreg r) s = .next t ∧ SameState s t ∧
      t.resp = Response.done t.resp.data ∧
      (r = 0 → t.resp.data = 0x48554637) ∧
      (r = 1 → t.resp.data = s.phase.code.toNat + 16 * s.fphase.code.toNat + if s.phase = .fault then 256 else 0) ∧
      (r = 2 → t.resp.data = (fcodeBits s.fcode).toNat) ∧
      (r = 3 → t.resp.data = s.finfo) ∧
      (r = 4 → t.resp.data = s.inLen) ∧
      (r = 5 → t.resp.data = s.bitsReq) ∧
      (r = 6 → t.resp.data = s.outLen) ∧
      (r = 7 → t.resp.data = s.cfg.cw)) ∧
  (∀ (s : State) (r : BitVec 8), s.cfg.legal = true → 8 ≤ r.toNat → s.phase ≠ .fault →
    ∃ t, exec (.rdreg r) s = .next t ∧ FaultOnly s t .illegalCmd (Instr.rdreg r).word.toNat) ∧
  (∀ (s : State) (r : BitVec 8), 8 ≤ r.toNat → s.phase = .fault →
    exec (.rdreg r) s = .next { s with resp := Response.failed })

/-- R213. -/
def Obligations.WrregWritesTheInputLength : Prop :=
  (∀ wdata : Nat, encode (.wrreg 4 wdata) = { word := 0x03000004#32, wdata := wdata }) ∧
  (∀ (s : State) (wdata : Nat), s.phase = .idle → wdata < 2 ^ s.cfg.cw →
    ∃ t, exec (.wrreg 4 wdata) s = .next t ∧ t.resp = Response.done 0 ∧ t.inLen = wdata ∧ t.phase = .idle ∧
      t.bitsReq = s.bitsReq ∧ t.outLen = s.outLen ∧
      SameMemory s t ∧ SameFaultRegs s t ∧ SameTables s t ∧ SameEncRegs s t ∧ SameHost s t) ∧
  (∀ (s : State) (r : BitVec 8) (wdata : Nat), s.cfg.legal = true → s.phase ≠ .fault →
    r ≠ 4 ∨ 2 ^ s.cfg.cw ≤ wdata →
    ∃ t, exec (.wrreg r wdata) s = .next t ∧ FaultOnly s t .illegalCmd (Instr.wrreg r wdata).word.toNat) ∧
  (∀ (r : BitVec 8) (wdata : Nat), SequencedIn (.wrreg r wdata) [.idle] ∧ RefusedInFault (.wrreg r wdata))

/-- R214. -/
def Obligations.WrfreqWritesOneCount : Prop :=
  (∀ (b : BitVec 8) (wdata : Nat),
    encode (.wrfreq b wdata) = { word := 0x20000000#32 ||| b.setWidth 32, wdata := wdata }) ∧
  (∀ (s : State) (b : BitVec 8) (wdata : Nat), s.phase = .idle → wdata < 2 ^ s.cfg.cw →
    ∃ t, exec (.wrfreq b wdata) s = .next t ∧ t.resp = Response.done 0 ∧
      (∀ sym : Symbol, t.freq[sym] = if sym.val = b.toNat then wdata else s.freq[sym]) ∧
      t.phase = .idle ∧ t.arena = s.arena ∧ t.lut = s.lut ∧ t.et = s.et ∧
      SameMemory s t ∧ SameFaultRegs s t ∧ SameHostRegs s t ∧ SameEncRegs s t ∧ SameHost s t) ∧
  (∀ (s : State) (b : BitVec 8) (wdata : Nat), s.cfg.legal = true → s.phase ≠ .fault → 2 ^ s.cfg.cw ≤ wdata →
    ∃ t, exec (.wrfreq b wdata) s = .next t ∧ FaultOnly s t .illegalCmd (Instr.wrfreq b wdata).word.toNat) ∧
  (∀ (b : BitVec 8) (wdata : Nat), SequencedIn (.wrfreq b wdata) [.idle] ∧ RefusedInFault (.wrfreq b wdata))

/-- R215. -/
def Obligations.RdfreqReadsOneCount : Prop :=
  (∀ b : BitVec 8, (encode (.rdfreq b)).word = 0x21000000#32 ||| b.setWidth 32) ∧
  (∀ (s : State) (sym : Symbol), s.phase ≠ .fault →
    ∃ t, exec (.rdfreq (BitVec.ofNat 8 sym.val)) s = .next t ∧ t.resp = Response.done s.freq[sym] ∧
      SameState s t) ∧
  (∀ b : BitVec 8, RefusedInFault (.rdfreq b))

/-- R216. -/
def Obligations.RdnodeShowsANode : Prop :=
  (∀ n : BitVec 9, (encode (.rdnode n)).word = 0x22000000#32 ||| n.setWidth 32) ∧
  (∀ (s : State) (n : NodeIdx), s.phase ∈ [.built, .extracted, .sized, .packed] →
    ∃ t, exec (.rdnode (BitVec.ofNat 9 n.val)) s = .next t ∧ SameState s t ∧
      t.resp.ok = true ∧ t.resp.data = s.arena.node[n].count ∧ t.resp.enc = Encoding.empty ∧
      (t.resp.aux.extractLsb' 0 9).toNat = (s.arena.node[n].parent.map Fin.val).getD 511 ∧
      (t.resp.aux.extractLsb' 9 9).toNat = (s.arena.node[n].right.map Fin.val).getD 511 ∧
      t.resp.aux.getLsbD 18 = s.arena.node[n].bit ∧ t.resp.aux.extractLsb' 19 13 = 0) ∧
  (∀ s : State, s.cfg.legal = true → s.phase ≠ .fault →
    ∃ t, exec (.rdnode 511) s = .next t ∧ FaultOnly s t .illegalCmd 0x220001FF) ∧
  (∀ n : BitVec 9, SequencedIn (.rdnode n) [.built, .extracted, .sized, .packed] ∧ RefusedInFault (.rdnode n))

/-- R217. -/
def Obligations.RdlutShowsACode : Prop :=
  (∀ b : BitVec 8, (encode (.rdlut b)).word = 0x23000000#32 ||| b.setWidth 32) ∧
  (∀ (s : State) (sym : Symbol), s.phase ∈ [.extracted, .sized, .packed] →
    ∃ t, exec (.rdlut (BitVec.ofNat 8 sym.val)) s = .next t ∧ SameState s t ∧
      t.resp = { ok := true, data := s.lut[sym].len.toNat, aux := 0, enc := s.lut[sym] }) ∧
  (∀ b : BitVec 8, SequencedIn (.rdlut b) [.extracted, .sized, .packed] ∧ RefusedInFault (.rdlut b))

/-! ## Encoding unit (40_encoding_unit.md) -/

/-- R122. -/
def Obligations.EnewEmptiesEa : Prop :=
  (encode .enew).word = 0x10000000#32 ∧
  (∀ s : State, s.phase ≠ .fault →
    ∃ t, exec .enew s = .next t ∧ t.resp = Response.done 0 ∧ t.ea = { len := 0, v := 0 } ∧ t.eb = s.eb ∧
      t.phase = s.phase ∧ SameMemory s t ∧ SameFaultRegs s t ∧ SameHostRegs s t ∧ SameTables s t ∧
      SameHost s t) ∧
  RefusedInFault .enew

/-- R123. -/
def Obligations.EpushAppendsOneBit : Prop :=
  (encode (.epush false)).word = 0x11000000#32 ∧ (encode (.epush true)).word = 0x11000001#32 ∧
  (∀ (s : State) (b : Bool), s.phase ≠ .fault → s.ea.len ≠ 255 →
    ∃ t, exec (.epush b) s = .next t ∧ t.ea.bits = s.ea.bits ++ [b] ∧
      t.ea.len.toNat = s.ea.len.toNat + 1 ∧ t.resp = Response.done (s.ea.len.toNat + 1) ∧
      (s.ea.padded = true → t.ea.padded = true) ∧ t.eb = s.eb ∧
      t.phase = s.phase ∧ SameMemory s t ∧ SameFaultRegs s t ∧ SameHostRegs s t ∧ SameTables s t ∧
      SameHost s t) ∧
  (∀ (s : State) (b : Bool), s.cfg.legal = true → s.phase ≠ .fault → s.ea.len = 255 →
    ∃ t, exec (.epush b) s = .next t ∧ FaultOnly s t .encOverflow 0x100) ∧
  (∀ b : Bool, RefusedInFault (.epush b))

/-- R124, R125. -/
def Obligations.ElenAndEemptyReadTheLength : Prop :=
  (encode .elen).word = 0x12000000#32 ∧ (encode .eempty).word = 0x13000000#32 ∧
  (∀ s : State, s.phase ≠ .fault →
    (∃ t, exec .elen s = .next t ∧ SameState s t ∧ t.resp = Response.done s.ea.bits.length) ∧
    (∃ t, exec .eempty s = .next t ∧ SameState s t ∧
      t.resp = Response.done (if s.ea.bits = [] then 1 else 0))) ∧
  RefusedInFault .elen ∧ RefusedInFault .eempty

/-- R126. -/
def Obligations.ErevReversesTheBits : Prop :=
  (encode .erev).word = 0x14000000#32 ∧
  (∀ s : State, s.phase ≠ .fault →
    ∃ t, exec .erev s = .next t ∧ t.resp = Response.done 0 ∧ t.ea.bits = s.ea.bits.reverse ∧
      t.ea.len = s.ea.len ∧ t.ea.padded = true ∧ t.eb = s.eb ∧
      t.phase = s.phase ∧ SameMemory s t ∧ SameFaultRegs s t ∧ SameHostRegs s t ∧ SameTables s t ∧
      SameHost s t) ∧
  RefusedInFault .erev

/-- R120, R127: the comparison sees the bit strings only, padding ignored. -/
def Obligations.EeqComparesTheBitStrings : Prop :=
  (encode .eeq).word = 0x15000000#32 ∧
  (∀ s : State, s.phase ≠ .fault →
    ∃ t, exec .eeq s = .next t ∧ SameState s t ∧
      t.resp = Response.done (if s.ea.bits = s.eb.bits then 1 else 0)) ∧
  RefusedInFault .eeq

/-- R128. -/
def Obligations.ExchSwapsTheRegisters : Prop :=
  (encode .exch).word = 0x16000000#32 ∧
  (∀ s : State, s.phase ≠ .fault →
    ∃ t, exec .exch s = .next t ∧ t.resp = Response.done 0 ∧ t.ea = s.eb ∧ t.eb = s.ea ∧
      t.phase = s.phase ∧ SameMemory s t ∧ SameFaultRegs s t ∧ SameHostRegs s t ∧ SameTables s t ∧
      SameHost s t) ∧
  RefusedInFault .exch

/-- R129. -/
def Obligations.ElutCopiesACode : Prop :=
  (∀ b : BitVec 8, (encode (.elut b)).word = 0x17000000#32 ||| b.setWidth 32) ∧
  (∀ (s : State) (sym : Symbol), s.phase ∈ [.extracted, .sized, .packed] →
    ∃ t, exec (.elut (BitVec.ofNat 8 sym.val)) s = .next t ∧ t.ea = s.lut[sym] ∧ t.eb = s.eb ∧
      t.resp = Response.done s.lut[sym].len.toNat ∧
      t.phase = s.phase ∧ SameMemory s t ∧ SameFaultRegs s t ∧ SameHostRegs s t ∧ SameTables s t ∧
      SameHost s t) ∧
  (∀ b : BitVec 8, SequencedIn (.elut b) [.extracted, .sized, .packed] ∧ RefusedInFault (.elut b))

/-- R130; the zeros beyond `len` stand where the register holds them (`State.WF`). -/
def Obligations.ErdReadsOutEa : Prop :=
  (encode .erd).word = 0x18000000#32 ∧
  (∀ s : State, s.phase ≠ .fault →
    ∃ t, exec .erd s = .next t ∧ SameState s t ∧
      t.resp = { ok := true, data := s.ea.len.toNat, aux := 0, enc := s.ea } ∧
      (s.WF → ∀ i, s.ea.len.toNat ≤ i → i < 256 → t.resp.enc.v.getLsbD (255 - i) = false)) ∧
  RefusedInFault .erd

/-- R131, whose clauses on the length and the empty Encoding the spec derives from R121. -/
def Obligations.ReverseTwiceIsEqual : Prop :=
  (∀ e : Encoding, encEq (encReverse (encReverse e)) e = true ∧ (encReverse e).len = e.len) ∧
  encReverse Encoding.empty = Encoding.empty

/-- R132, the spec's derivation from R121. -/
def Obligations.PushesStopAt255Bits : Prop :=
  (∀ bits : List Bool, bits.length ≤ 255 →
    ∃ e, bits.foldlM encPush Encoding.empty = some e ∧ e.bits = bits ∧ e.len.toNat = bits.length) ∧
  (∀ bits : List Bool, 256 ≤ bits.length → bits.foldlM encPush Encoding.empty = none) ∧
  (∀ (e : Encoding) (b : Bool), e.len.toNat = 255 → encPush e b = none)

/-! ## The stages -/

/-- R181; that no entry wraps and the sum is `IN_LEN` is the spec's own derivation R183. -/
def Obligations.CountCountsTheInput : Prop :=
  (encode .count).word = 0x30000000#32 ∧
  (∀ s : State, s.phase = .idle → s.inLen ≠ 0 → s.inLen < 2 ^ s.cfg.cw →
    ∃ freq : Vector Nat 256,
      exec .count s =
        .next { s with freq := freq, phase := .counted, resp := Response.done s.inLen } ∧
      (∀ sym : Symbol, freq[sym] = (List.range s.inLen).countP fun j => decide (s.inSymbol j = sym)) ∧
      (∀ sym : Symbol, freq[sym] < 2 ^ s.cfg.cw) ∧
      ∑ sym : Symbol, freq[sym] = s.inLen) ∧
  (∀ s : State, s.phase = .idle → s.inLen = 0 →
    ∃ t, exec .count s = .next t ∧ FaultOnly s t .emptyInput 0) ∧
  SequencedIn .count [.idle] ∧ RefusedInFault .count

/-- R232. In `PACK` the bytes of `OUT` below `ceil8(BITS_REQ)` are free afterwards (R241). `BUILD`, `EXTRACT` and `SIZE`
give the same result for every `IN_LEN`, and none of them raises `EMPTY_INPUT`. -/
def Obligations.EmptyInputFaults : Prop :=
  (∀ (s : State) (i : Instr), s.phase = .idle → s.inLen = 0 → i = .count ∨ i = .genenc ∨ i = .compress →
    ∃ t, exec i s = .next t ∧ FaultOnly s t .emptyInput 0) ∧
  (∀ s : State, s.phase = .sized → s.inLen = 0 →
    ∃ t, exec .pack s = .next t ∧ FaultEntered s t .emptyInput 0 ∧
      (∀ a, t.inByte a = s.inByte a) ∧ (∀ a, ceil8 s.bitsReq ≤ a → t.outByte a = s.outByte a) ∧
      SameHostRegs s t ∧ SameTables s t ∧ SameEncRegs s t ∧ SameHost s t) ∧
  (∀ (s : State) (n : Nat) (i : Instr), i = .build ∨ i = .extract ∨ i = .size →
    ∃ t, exec i s = .next t ∧ exec i { s with inLen := n } = .next { t with inLen := n } ∧
      (s.fcode ≠ some .emptyInput → t.fcode ≠ some .emptyInput))

/-- R141: `BUILD` completes on every table, and leaves the tree of R150 and R151 (the spec's own derivations). -/
def Obligations.BuildBuildsTheTree : Prop :=
  (encode .build).word = 0x31000000#32 ∧
  (∀ s : State, s.phase = .idle ∨ s.phase = .counted → (∀ sym : Symbol, s.freq[sym] < 2 ^ s.cfg.cw) →
    ∃ a : Arena,
      exec .build s =
        .next { s with arena := a, phase := .built, resp := Response.done (∑ sym : Symbol, s.freq[sym]) } ∧
      BuiltTree s.freq a) ∧
  SequencedIn .build [.idle, .counted] ∧ RefusedInFault .build

/-- R150, R151 (the spec's own derivations), for every legal `TIEBREAK` (R11). -/
def Obligations.EveryTiebreakBuildsAHuffmanTree : Prop :=
  ∀ (tb : Tiebreak) (cw : Nat) (freq : Vector Nat 256), LegalTiebreak tb →
    (∀ sym : Symbol, freq[sym] < 2 ^ cw) →
    ∃ a : Arena, buildTree tb (cw + 8) freq = .marked a ∧ BuiltTree freq a ∧
      ∀ i : NodeIdx, ∃ bits, RootPath a.node i bits ∧ bits.length ≤ 255

/-- R157, which the spec takes from general knowledge (G1): for every legal `TIEBREAK` no prefix code for the 256
symbols packs the counts in fewer bits than the codes of the tree. -/
def Obligations.NoPrefixCodeIsShorter : Prop :=
  ∀ (tb : Tiebreak) (cw : Nat) (freq : Vector Nat 256) (code : Symbol → List Bool), LegalTiebreak tb →
    (∀ sym : Symbol, freq[sym] < 2 ^ cw) → (∀ x y : Symbol, x ≠ y → ¬ code x <+: code y) →
    ∃ (a : Arena) (lut : Vector Encoding 256), buildTree tb (cw + 8) freq = .marked a ∧ CodesOf a.node lut ∧
      weightedLength freq lut ≤ ∑ sym : Symbol, freq[sym] * (code sym).length

/-- R156 (the spec's own derivation): the weighted total does not depend on `TIEBREAK`. -/
def Obligations.TotalSizeIsTheSameForEveryTiebreak : Prop :=
  ∀ (tb tb' : Tiebreak) (cw : Nat) (freq : Vector Nat 256), LegalTiebreak tb → LegalTiebreak tb' →
    (∀ sym : Symbol, freq[sym] < 2 ^ cw) →
    ∃ (a a' : Arena) (lut lut' : Vector Encoding 256),
      buildTree tb (cw + 8) freq = .marked a ∧ CodesOf a.node lut ∧
      buildTree tb' (cw + 8) freq = .marked a' ∧ CodesOf a'.node lut' ∧
      weightedLength freq lut = weightedLength freq lut'

/-- R153 (the spec's own derivation): when all counts are equal, the code of a symbol is its 8-bit binary numeral. -/
def Obligations.EqualCountsGiveByteCodes : Prop :=
  ∀ (s : State) (c : Nat), s.phase = .idle ∨ s.phase = .counted → c < 2 ^ s.cfg.cw →
    (∀ sym : Symbol, s.freq[sym] = c) →
    ∃ t u, exec .build s = .next t ∧ exec .extract t = .next u ∧ u.phase = .extracted ∧
      ∀ sym : Symbol, u.lut[sym].bits = (List.range 8).map fun k => sym.val.testBit (7 - k)

/-- R171, R172: the code of each symbol is the path from the root to its leaf. -/
def Obligations.ExtractReadsThePathsOfTheTree : Prop :=
  (encode .extract).word = 0x32000000#32 ∧
  (∀ s : State, s.phase = .built →
    (∀ sym : Symbol, ∃ bits, RootPath s.arena.node (leafOf sym) bits ∧ bits.length ≤ 255) →
    ∃ (lut : Vector Encoding 256) (et : Encoding),
      exec .extract s =
        .next { s with lut := lut, et := et, phase := .extracted, resp := Response.done 0 } ∧
      ∀ (sym : Symbol) (bits : List Bool), RootPath s.arena.node (leafOf sym) bits →
        lut[sym].bits = bits.reverse ∧ lut[sym].padded = true) ∧
  SequencedIn .extract [.built] ∧ RefusedInFault .extract

/-- R171, R233: the first symbol whose leaf is not within 255 links of a root overflows. That the tree, `EA`, `EB` and
the codes from `k` on are as before is R240 with the pseudocode's order of the walks; R241 lets a model leave them
unspecified after a fault (log 8), and R171 lets the walks be done in any order (log 9). -/
def Obligations.ExtractOverflowsAtTheFirstLongPath : Prop :=
  ∀ (s : State) (k : Symbol), s.cfg.legal = true → s.phase = .built →
    (∀ sym : Symbol, sym < k → ∃ bits, RootPath s.arena.node (leafOf sym) bits ∧ bits.length ≤ 255) →
    (¬ ∃ bits, RootPath s.arena.node (leafOf k) bits ∧ bits.length ≤ 255) →
    ∃ t, exec .extract s = .next t ∧ FaultEntered s t .encOverflow k.val ∧
      t.freq = s.freq ∧ t.arena = s.arena ∧ (∀ sym : Symbol, k ≤ sym → t.lut[sym] = s.lut[sym]) ∧
      SameMemory s t ∧ SameHostRegs s t ∧ SameEncRegs s t ∧ SameHost s t

/-- R173, R174 (the spec's own derivations): on a built tree the codes are the depths and the paths of the leaves, and prefix-free. -/
def Obligations.CodesOfATreeArePrefixFree : Prop :=
  ∀ (freq : Vector Nat 256) (a : Arena), BuiltTree freq a →
    ∃ lut : Vector Encoding 256, CodesOf a.node lut ∧ CodesPrefixFree lut ∧
      ∀ sym : Symbol, 1 ≤ lut[sym].len.toNat ∧ lut[sym].padded = true ∧
        ∃ bits, RootPath a.node (leafOf sym) bits ∧ lut[sym].len.toNat = bits.length

/-- R175, the spec's derivation from R150 and R174. -/
def Obligations.CodesOfATreeAreComplete : Prop :=
  ∀ (freq : Vector Nat 256) (a : Arena) (lut : Vector Encoding 256), BuiltTree freq a → CodesOf a.node lut →
    CodesComplete lut ∧
    ∀ stream : Nat → Bool, ∃! sym : Symbol, ∀ i < lut[sym].len.toNat, lut[sym].bitAt i = stream i

/-- R186; that the sum fits `BW` bits is the spec's own derivation R187. -/
def Obligations.SizeSumsCountsTimesLengths : Prop :=
  (encode .size).word = 0x33000000#32 ∧
  (∀ s : State, s.phase = .extracted → (∀ sym : Symbol, s.freq[sym] < 2 ^ s.cfg.cw) →
    exec .size s =
      .next { s with
        bitsReq := ∑ sym : Symbol, s.freq[sym] * s.lut[sym].len.toNat
        phase := .sized
        resp := Response.done (∑ sym : Symbol, s.freq[sym] * s.lut[sym].len.toNat) } ∧
    ∑ sym : Symbol, s.freq[sym] * s.lut[sym].len.toNat < 2 ^ s.cfg.bw) ∧
  SequencedIn .size [.extracted] ∧ RefusedInFault .size

/-- R190 with the layout of R66 and R67: every code bit stands at its place, the padding is 0, no byte beyond
`ceil8(BITS_REQ)` is touched. -/
def Obligations.PackPlacesEveryCodeBit : Prop :=
  (encode .pack).word = 0x34000000#32 ∧
  (∀ s : State, s.WF → s.phase = .sized → s.inLen ≠ 0 → (∀ j < s.inLen, s.lenAt j ≠ 0) →
    s.startAt s.inLen = s.bitsReq →
    ∃ out : Memory,
      let t := { s with outMem := out, outLen := s.bitsReq, phase := .packed, resp := Response.done s.bitsReq }
      exec .pack s = .next t ∧
      (∀ j < s.inLen, ∀ i < s.lenAt j,
        t.outBit (s.startAt j + i) = some (s.lut[s.inSymbol j].bitAt i)) ∧
      (∀ k, s.bitsReq ≤ k → k < 8 * ceil8 s.bitsReq → t.outBit k = some false) ∧
      (∀ a, ceil8 s.bitsReq ≤ a → t.outByte a = s.outByte a)) ∧
  SequencedIn .pack [.sized] ∧ RefusedInFault .pack

/-- R235, R238, R239 in the order of R197 and R244: the first position that fails its checks decides, and the underrun
only when none does. -/
def Obligations.PackFaultsAtTheFirstFailingCheck : Prop :=
  ∀ s : State, s.WF → s.phase = .sized → s.inLen ≠ 0 →
    (∀ j < s.inLen, (∀ k < j, s.fitsAt k) → ¬ s.fitsAt j →
      ∃ t, exec .pack s = .next t ∧
        FaultEntered s t (if s.lenAt j = 0 then .lookupEmpty else .outOverrun) j ∧
        (∀ a, t.inByte a = s.inByte a) ∧ (∀ a, ceil8 s.bitsReq ≤ a → t.outByte a = s.outByte a) ∧
        SameHostRegs s t ∧ SameTables s t ∧ SameEncRegs s t ∧ SameHost s t) ∧
    ((∀ j < s.inLen, s.fitsAt j) → s.startAt s.inLen < s.bitsReq →
      ∃ t, exec .pack s = .next t ∧ FaultEntered s t .outUnderrun (s.startAt s.inLen) ∧
        (∀ a, t.inByte a = s.inByte a) ∧ (∀ a, ceil8 s.bitsReq ≤ a → t.outByte a = s.outByte a) ∧
        SameHostRegs s t ∧ SameTables s t ∧ SameEncRegs s t ∧ SameHost s t)

/-! ## Composite commands -/

/-- R200 and R202 (the spec's own derivation): `GENENC` is `COUNT`, `BUILD`, `EXTRACT`, `SIZE` one after another. -/
def Obligations.GenencIsItsFourStages : Prop :=
  (encode .genenc).word = 0x38000000#32 ∧
  (∀ s : State, s.WF → s.phase = .idle → s.inLen ≠ 0 →
    ∃ a b c t, exec .count s = .next a ∧ exec .build a = .next b ∧ exec .extract b = .next c ∧
      exec .size c = .next t ∧ exec .genenc s = .next t ∧
      t.phase = .sized ∧ t.resp = Response.done t.bitsReq ∧
      SameMemory s t ∧ SameFaultRegs s t ∧ SameEncRegs s t ∧ SameHost s t ∧
      t.inLen = s.inLen ∧ t.outLen = s.outLen) ∧
  SequencedIn .genenc [.idle] ∧ RefusedInFault .genenc

/-- R201, with R192 and R202 (the spec's own derivations): `COMPRESS` is `GENENC` and `PACK`, always completes on a non-empty input, and packs exactly
`BITS_REQ` bits. -/
def Obligations.CompressPacksTheWholeInput : Prop :=
  (encode .compress).word = 0x39000000#32 ∧
  (∀ s : State, s.WF → s.phase = .idle → s.inLen ≠ 0 →
    ∃ g t, exec .genenc s = .next g ∧ exec .pack g = .next t ∧ exec .compress s = .next t ∧
      t.phase = .packed ∧ t.resp = Response.done t.bitsReq ∧ t.outLen = t.bitsReq ∧
      t.bitsReq = weightedLength t.freq t.lut ∧ t.bitsReq = t.startAt t.inLen ∧
      BuiltTree t.freq t.arena ∧ CodesOf t.arena.node t.lut ∧
      (∀ j < t.inLen, ∀ i < t.lenAt j, t.outBit (t.startAt j + i) = some (t.lut[t.inSymbol j].bitAt i)) ∧
      (∀ a, ceil8 t.bitsReq ≤ a → t.outByte a = s.outByte a) ∧
      (∀ a, t.inByte a = s.inByte a) ∧ t.inLen = s.inLen ∧
      SameFaultRegs s t ∧ SameEncRegs s t ∧ SameHost s t) ∧
  SequencedIn .compress [.idle] ∧ RefusedInFault .compress

/-- R188, the spec's derivation from R173 and R183. -/
def Obligations.SizeIsBetweenOneAnd255BitsPerByte : Prop :=
  ∀ s : State, s.WF → s.phase = .idle → s.inLen ≠ 0 →
    ∃ t, exec .genenc s = .next t ∧ s.inLen ≤ t.bitsReq ∧ t.bitsReq ≤ 255 * s.inLen

/-- R199 (the spec's own derivation): the automaton of the code table reads the packed sequence back as the input. -/
def Obligations.PackedOutputDecodesToTheInput : Prop :=
  ∀ s : State, s.WF → s.phase = .idle → s.inLen ≠ 0 →
    ∃ (t : State) (bits : List Bool), exec .compress s = .next t ∧
      bits.length = t.bitsReq ∧ (∀ k, (hk : k < bits.length) → t.outBit k = some bits[k]) ∧
      decodeBits t.lut t.bitsReq bits = some ((List.range s.inLen).map s.inSymbol)

/-! ## Lanes and the barrel shifter -/

/-- R182 (the spec's own derivation): the lanes' tables, combined in any order, are the table of the sequential rule. -/
def Obligations.LaneCountsAddUpInAnyOrder : Prop :=
  ∀ (s : State) (part : List Nat) (lanes : List (Nat × Nat)), validPart s.inLen part = true →
    lanes.Perm (chunks part) →
    s.combineLanes lanes = s.tally s.inLen 0 (Vector.replicate 256 0)

/-- R193 (the spec's own derivation): the lanes' strings, joined by lane number, are the bit sequence of the sequential rule. -/
def Obligations.LaneStringsJoinInInputOrder : Prop :=
  ∀ (s : State) (part : List Nat), validPart s.inLen part = true →
    s.joinedBits part = s.codeBits s.inLen 0 ∧
    ∀ image, s.packScan s.inLen 0 [] = .packed image → s.joinedBits part = image

/-- R195 (the spec's own derivation): the shifter sets exactly the bits of the code. -/
def Obligations.ShifterPlacesExactlyTheCode : Prop :=
  ∀ (acc : ByteImage) (pos : Nat) (e : Encoding), e.padded = true → e.len ≠ 0 →
    pos + e.len.toNat ≤ 8 * acc.length → (∀ k, pos ≤ k → imageBit acc k = false) →
    ∀ k, imageBit (placeCode acc pos e) k =
      if pos ≤ k ∧ k < pos + e.len.toNat then e.bitAt (k - pos) else imageBit acc k

/-- R193, R195, R196 (the spec's own derivations): what the lanes build and join byte by byte is what `PACK` writes. -/
def Obligations.LanesWriteTheBytesOfPack : Prop :=
  ∀ (s : State) (part : List Nat), s.WF → s.phase = .sized → validPart s.inLen part = true →
    (∀ m, (s.lanesImage part).getD m 0 = imageByte (s.codeBits s.inLen 0) m) ∧
    ((∀ j < s.inLen, s.lenAt j ≠ 0) → s.startAt s.inLen = s.bitsReq →
      ∃ t, exec .pack s = .next t ∧
        ∀ m < ceil8 s.bitsReq, t.outByte m = some ((s.lanesImage part).getD m 0))

/-! ## Faults and the phase table (60_exceptions.md, 10_state.md, 30_encoding.md) -/

/-- R101, R236: the decoder refuses exactly the illegal words, and in a running phase each of them takes
`ILLEGAL_CMD`. -/
def Obligations.IllegalWordsTakeIllegalCmd : Prop :=
  (∀ (cw : Nat) (c : Command), (∃ e, decode cw c = .error e) ↔ IllegalWord cw c) ∧
  (∀ (s : State) (c : Command) (rest : List HostAct), s.cfg.legal = true → s.host = .issue c :: rest →
    IllegalWord s.cfg.cw c → s.phase ≠ .fault →
    ∃ t, step s = .next t ∧ FaultOnly { s with host := rest } t .illegalCmd c.word.toNat)

/-- R31, R237: the phase table. A command is legal exactly in the phases listed; elsewhere it is a `SEQ_ERROR`, in
`FAULT` it is refused; on success `PHASE` takes the value of the last column. -/
def Obligations.PhaseTableOrdersTheCommands : Prop :=
  ∀ (i : Instr) (s : State), s.cfg.legal = true → i.wellFormed s.cfg.cw = true →
    (s.phase ∈ legalPhases i → ∃ t, exec i s = .next t ∧
      (s.fcode = none → t.fcode ≠ some .seqError ∧ t.fcode ≠ some .illegalCmd) ∧
      (t.phase = phaseAfter i s.phase ∨ (s.phase ≠ .fault ∧ t.phase = .fault ∧ t.resp = Response.failed))) ∧
    (s.phase ∉ legalPhases i → s.phase ≠ .fault →
      ∃ t, exec i s = .next t ∧ FaultOnly s t .seqError i.word.toNat) ∧
    (s.phase ∉ legalPhases i → s.phase = .fault → exec i s = .next { s with resp := Response.failed })

/-- R94: what a response says, and that every command gives one. -/
def Obligations.EveryCommandAnswers : Prop :=
  ∀ (i : Instr) (s : State), ∃ t, exec i s = .next t ∧
    (t.resp.ok = false → t.resp = { ok := false, data := 0, aux := 0, enc := { len := 0, v := 0 } }) ∧
    (t.resp.ok = false ↔ t.phase = .fault ∧ ¬ ∃ r : BitVec 8, r.toNat < 8 ∧ i = .rdreg r)

/-- R242: in phase `FAULT` only a legal `RDREG` is performed; every other command word is refused. -/
def Obligations.FaultPhaseRefusesAllButRdreg : Prop :=
  ∀ (s : State) (c : Command) (rest : List HostAct), s.phase = .fault → s.host = .issue c :: rest →
    (∀ r : BitVec 8, r.toNat < 8 → decode s.cfg.cw c = .ok (.rdreg r) →
      ∃ t, step s = .next t ∧ t.resp.ok = true ∧ SameState { s with host := rest } t) ∧
    ((¬ ∃ r : BitVec 8, r.toNat < 8 ∧ decode s.cfg.cw c = .ok (.rdreg r)) →
      step s = .next { s with host := rest, resp := Response.failed })

/-- R243: only reset leaves phase `FAULT`, and the first fault is kept until then. -/
def Obligations.OnlyResetLeavesFault : Prop :=
  ∀ s t : State, s.phase = .fault → step s = .next t →
    (∀ rest, s.host = .reset :: rest → t.phase = .idle ∧ t.fcode = none ∧ t.finfo = 0 ∧ t.fphase = .idle) ∧
    ((∀ rest, s.host ≠ .reset :: rest) →
      t.phase = .fault ∧ t.fcode = s.fcode ∧ t.finfo = s.finfo ∧ t.fphase = s.fphase)

/-- R152, R177, R179, R231: from a state that holds what its stages made, no command raises a fault the spec calls
unreachable. -/
def Obligations.UnreachableFaultsAreNeverRaised : Prop :=
  ∀ (i : Instr) (s : State), s.Inv → s.phase ≠ .fault →
    ∃ t, exec i s = .next t ∧ t.fcode ≠ some .tableSize ∧ t.fcode ≠ some .doubleMark ∧
      t.fcode ≠ some .lookupEmpty ∧ (t.fcode = some .encOverflow → ∃ b, i = .epush b)

/-- R21, R22, R29: the tables are never changed after the stage that made them, but by `CLR`. -/
def Obligations.TablesAreImmutableOnceMade : Prop :=
  ∀ (i : Instr) (s : State), i ≠ .clr →
    ∃ t, exec i s = .next t ∧
      (s.phase ≠ .idle → t.freq = s.freq) ∧
      (s.phase ∈ [.built, .extracted, .sized, .packed, .fault] → t.arena = s.arena) ∧
      (s.phase ∈ [.extracted, .sized, .packed, .fault] → t.lut = s.lut)

/-- R32: only the Encoding unit and `CLR` write `EA` and `EB`; `EB` is reached only through `EXCH`. -/
def Obligations.StagesLeaveTheEncodingRegisters : Prop :=
  ∀ (i : Instr) (s : State), ∃ t, exec i s = .next t ∧
    ((∀ b, i ≠ .epush b) → (∀ sym, i ≠ .elut sym) → i ≠ .enew → i ≠ .erev → i ≠ .exch → i ≠ .clr → t.ea = s.ea) ∧
    (i ≠ .exch → i ≠ .clr → t.eb = s.eb)

/-- R63, R64: no command writes `IN`; only `PACK` and `COMPRESS` write `OUT`, and only below `ceil8(BITS_REQ)`. -/
def Obligations.OnlyPackWritesOutAndOnlyItsExtent : Prop :=
  ∀ (i : Instr) (s : State), ∃ t, exec i s = .next t ∧
    (∀ a, t.inByte a = s.inByte a) ∧
    (i ≠ .pack → i ≠ .compress → ∀ a, t.outByte a = s.outByte a) ∧
    (∀ a, ceil8 t.bitsReq ≤ a → t.outByte a = s.outByte a)

/-! ## The step, reset and the host -/

/-- R90, R103: issuing a command runs what the decoder reads; with nothing pending the block waits (R262). -/
def Obligations.StepRunsTheDecodedCommand : Prop :=
  (∀ (s : State) (c : Command) (rest : List HostAct) (i : Instr), s.host = .issue c :: rest →
    decode s.cfg.cw c = .ok i → step s = exec i { s with host := rest }) ∧
  (∀ s : State, s.host = [] → step s = .next s)

/-- R62, R65, R270: between commands the host sets one byte of a space and nothing else; an address outside the space
is the model's stop (R61, R64). -/
def Obligations.HostWritesOneByte : Prop :=
  (∀ (s : State) (a : Nat) (v : Byte) (rest : List HostAct), s.WF → s.host = .writeIn a v :: rest →
    (a < 2 ^ s.cfg.cw → ∃ m : Memory, step s = .next { s with host := rest, inMem := m } ∧
      ∀ k, State.inByte { s with inMem := m } k = if k = a then v else s.inByte k) ∧
    (2 ^ s.cfg.cw ≤ a → step s = .fault (.noSuchAddress .input a))) ∧
  (∀ (s : State) (a : Nat) (v : Byte) (rest : List HostAct), s.WF → s.host = .writeOut a v :: rest →
    (a < 2 ^ (s.cfg.bw - 3) → ∃ m : Memory, step s = .next { s with host := rest, outMem := m } ∧
      ∀ k, State.outByte { s with outMem := m } k = if k = a then some v else s.outByte k) ∧
    (2 ^ (s.cfg.bw - 3) ≤ a → step s = .fault (.noSuchAddress .output a)))

/-- R49, R260: the values reset gives, in the state after reset and through reset as an event, which leaves `IN` and
`OUT` alone. The values of the elements R49 leaves unspecified are the model's (log 1) and are not stated. -/
def Obligations.ResetGivesTheSpecifiedValues : Prop :=
  ResetValues State.reset ∧
  ∀ (s : State) (rest : List HostAct), s.host = .reset :: rest →
    ∃ t, step s = .next t ∧ ResetValues t ∧ t.cfg = s.cfg ∧ t.host = rest ∧ SameMemory s t

/-! ## Encoding of the commands (30_encoding.md) -/

/-- R91, R95 to R100: some command words written out bit by bit. -/
def Obligations.WordsOfTheSpecDecode : Prop :=
  decode 64 ⟨0b00000000000000000000000000000000#32, 0⟩ = .ok .nop ∧
  decode 64 ⟨0b00000010000000000000000000000101#32, 0⟩ = .ok (.rdreg 5) ∧
  decode 64 ⟨0b00000011000000000000000000000100#32, 9⟩ = .ok (.wrreg 4 9) ∧
  decode 64 ⟨0b00010001000000000000000000000001#32, 0⟩ = .ok (.epush true) ∧
  decode 64 ⟨0b00010111000000000000000001100010#32, 0⟩ = .ok (.elut 98) ∧
  decode 64 ⟨0b00100000000000000000000001100001#32, 4⟩ = .ok (.wrfreq 97 4) ∧
  decode 64 ⟨0b00100010000000000000000111111110#32, 0⟩ = .ok (.rdnode 510) ∧
  decode 64 ⟨0b00110100000000000000000000000000#32, 0⟩ = .ok .pack ∧
  decode 64 ⟨0b00111001000000000000000000000000#32, 0⟩ = .ok .compress

/-- Every well-formed command decodes from its own encoding (R91, R95 to R100). -/
def Obligations.EveryCommandDecodesFromItsWord : Prop :=
  ∀ (cw : Nat) (i : Instr), i.wellFormed cw = true → decode cw (encode i) = .ok i

/-- A word decodes to a well-formed command that encodes to that word, so no two words stand for one command; the write
data of `WRREG` and `WRFREQ` comes through whole (R91, R106). -/
def Obligations.DecodedCommandEncodesToItsWord : Prop :=
  ∀ (cw : Nat) (c : Command) (i : Instr), decode cw c = .ok i →
    i.wellFormed cw = true ∧ (encode i).word = c.word ∧
    ((∃ r d, i = .wrreg r d) ∨ (∃ b d, i = .wrfreq b d) → (encode i).wdata = c.wdata)

/-- R93: but for `WRREG` and `WRFREQ`, the write data makes no difference. -/
def Obligations.WriteDataIsIgnoredByOtherCommands : Prop :=
  ∀ (s : State) (w : BitVec 32) (d d' : Nat) (rest : List HostAct),
    w.extractLsb' 24 8 ≠ 0x03 → w.extractLsb' 24 8 ≠ 0x20 →
    step { s with host := .issue ⟨w, d⟩ :: rest } = step { s with host := .issue ⟨w, d'⟩ :: rest }

/-! ## Invariants of every step -/

/-- Every step keeps the widths of the registers, the canonical memories, the zero padding, and the agreement of the
fault and result registers with `PHASE`. -/
def Obligations.StepKeepsTheRegistersSound : Prop :=
  ∀ s t : State, s.WF → s.Coherent → step s = .next t → t.WF ∧ t.Coherent

/-- Every step keeps `NODE`, `LUT` and `BITS_REQ` what the stages make of `FREQ` (R31, R155, R178). -/
def Obligations.StepKeepsTheTablesConsistent : Prop :=
  ∀ s t : State, s.Inv → step s = .next t → t.Inv

/-- The invariants hold right after reset. -/
def Obligations.ResetStateIsSound : Prop := State.reset.Inv
end

