-- ==== Sys2Proof/Laws/Encoding.lean ====
section
/-! SUPPORT. The Encoding store: what one more bit does to the length, the bits and the padding. -/

namespace Sys2Proof.Machine

/-- Bit `j` after bit `k` was set. -/
theorem getLsbD_setBit (v : BitVec 256) {j k : Nat} (b : Bool) (hj : j < 256) :
    (setBit v k b).getLsbD j = if j = k then b else v.getLsbD j := by
  have hone : ((1#256) <<< k).getLsbD j = decide (j = k) := by
    rw [BitVec.getLsbD_shiftLeft]
    by_cases h : j = k
    · subst h
      simp [hj]
    · by_cases hlt : j < k
      · simp [hlt, h]
      · have : j - k ≠ 0 := by omega
        simp [h, BitVec.getLsbD_one, this]
  cases b
  · simp only [setBit, Bool.false_eq_true, if_false, BitVec.getLsbD_and, BitVec.getLsbD_not, hone, hj]
    by_cases h : j = k <;> simp [h]
  · simp only [setBit, if_true, BitVec.getLsbD_or, hone]
    by_cases h : j = k <;> simp [h]

/-- The length after one more bit (40_encoding_unit.md R121). -/
theorem Encoding.len_append {e : Encoding} (b : Bool) (h : e.len ≠ 255) :
    (e.append b).len.toNat = e.len.toNat + 1 := by
  have hlt : e.len.toNat < 256 := e.len.isLt
  have hne : e.len.toNat ≠ 255 := fun hc => h (BitVec.eq_of_toNat_eq hc)
  simp only [Encoding.append, BitVec.toNat_add]
  exact Nat.mod_eq_of_lt (by
    show e.len.toNat + 1 < 2 ^ 8
    omega)

/-- The bits after one more bit: the old ones and the new one at index `len` (40_encoding_unit.md R121). -/
theorem Encoding.bitAt_append {e : Encoding} (b : Bool) {i : Nat} (hi : i < 256) :
    (e.append b).bitAt i = if i = e.len.toNat then b else e.bitAt i := by
  have hlt : e.len.toNat < 256 := e.len.isLt
  simp only [Encoding.bitAt, Encoding.append]
  rw [getLsbD_setBit _ _ (by omega)]
  have : (255 - i = 255 - e.len.toNat) ↔ i = e.len.toNat := by omega
  simp [this]

/-- An Encoding has as many bits as its length. -/
@[simp] theorem Encoding.length_bits (e : Encoding) : e.bits.length = e.len.toNat := by simp [Encoding.bits]

@[simp] theorem Encoding.bits_empty : Encoding.empty.bits = [] := rfl

/-- The bit string after one more bit (40_encoding_unit.md R121). -/
theorem Encoding.bits_append {e : Encoding} (b : Bool) (h : e.len ≠ 255) : (e.append b).bits = e.bits ++ [b] := by
  have hlt : e.len.toNat < 256 := e.len.isLt
  simp only [Encoding.bits, Encoding.len_append b h, List.range_succ, List.map_append, List.map_cons, List.map_nil]
  congr 1
  · apply List.map_congr_left
    intro i hi
    have hi' := List.mem_range.1 hi
    rw [Encoding.bitAt_append b (by omega), if_neg (by omega)]
  · rw [Encoding.bitAt_append b hlt, if_pos rfl]

/-- The padding is zero exactly when every bit at or beyond the length is 0 (10_state.md R33). -/
theorem Encoding.padded_iff (e : Encoding) :
    e.padded = true ↔ ∀ i, e.len.toNat ≤ i → i < 256 → e.bitAt i = false := by
  simp only [Encoding.padded, decide_eq_true_eq]
  constructor
  · intro h i hi hlt
    have := congrArg (fun v => BitVec.getLsbD v (255 - i + e.len.toNat)) h
    simp only [BitVec.getLsbD_shiftLeft, BitVec.ofNat_eq_ofNat, BitVec.getLsbD_zero] at this
    simpa [Encoding.bitAt, show 255 - i + e.len.toNat < 256 by omega] using this
  · intro h
    apply BitVec.eq_of_getLsbD_eq
    intro j hj
    simp only [BitVec.getLsbD_shiftLeft, BitVec.ofNat_eq_ofNat, BitVec.getLsbD_zero, hj, decide_true,
      Bool.true_and, Bool.and_eq_false_iff, Bool.not_eq_false', decide_eq_true_eq]
    by_cases hlt : j < e.len.toNat
    · exact .inl hlt
    · right
      have := h (255 - (j - e.len.toNat)) (by omega) (by omega)
      simpa [Encoding.bitAt, show 255 - (255 - (j - e.len.toNat)) = j - e.len.toNat by omega] using this

theorem Encoding.padded_empty : Encoding.empty.padded = true := by decide

/-- One more bit keeps the padding zero (10_state.md R33). -/
theorem Encoding.padded_append {e : Encoding} (b : Bool) (h : e.len ≠ 255) (hp : e.padded = true) :
    (e.append b).padded = true := by
  rw [Encoding.padded_iff] at hp ⊢
  intro i hi hlt
  rw [Encoding.len_append b h] at hi
  rw [Encoding.bitAt_append b hlt, if_neg (by omega)]
  exact hp i (by omega) hlt

/-- Everything `foldl append` does on a list that still fits. -/
theorem Encoding.foldl_append (bits : List Bool) (e : Encoding) (h : e.len.toNat + bits.length ≤ 255) :
    (bits.foldl Encoding.append e).bits = e.bits ++ bits ∧
      (e.padded = true → (bits.foldl Encoding.append e).padded = true) := by
  induction bits generalizing e with
  | nil => simp
  | cons b bits ih =>
    simp only [List.length_cons] at h
    have hne : e.len ≠ 255 := by
      intro hc
      rw [hc] at h
      simp at h
    obtain ⟨hb, hp⟩ := ih (e.append b) (by rw [Encoding.len_append b hne]; omega)
    refine ⟨?_, fun he => hp (Encoding.padded_append b hne he)⟩
    simp only [List.foldl_cons, hb, Encoding.bits_append b hne, List.append_assoc, List.singleton_append]

/-- An Encoding made of at most 255 bits holds them, with zero padding. -/
theorem Encoding.ofBits_spec {bits : List Bool} (h : bits.length ≤ 255) :
    (Encoding.ofBits bits).bits = bits ∧ (Encoding.ofBits bits).padded = true := by
  have := Encoding.foldl_append bits Encoding.empty (by simpa [Encoding.empty] using h)
  exact ⟨by simpa [Encoding.ofBits] using this.1, this.2 Encoding.padded_empty⟩

/-- Everything `enc_push` can do (40_encoding_unit.md R121, R132). -/
theorem encPush_cases (e : Encoding) (b : Bool) :
    (e.len = 255 ∧ encPush e b = none) ∨
    (e.len ≠ 255 ∧ encPush e b = some (e.append b) ∧ (e.append b).bits = e.bits ++ [b]) := by
  by_cases h : e.len = 255
  · exact .inl ⟨h, if_pos h⟩
  · exact .inr ⟨h, if_neg h, Encoding.bits_append b h⟩

end Sys2Proof.Machine
end

