-- ==== Sys2Proof/Laws/Memory.lean ====
section
/-! SUPPORT. The laws of the memory spaces: a read after a write, and that every write keeps the canonical form. -/

namespace Sys2Proof.Machine

/-! ## The list of cells -/

theorem cellsFind_put_same (cs : List Host.Cell) (a : Nat) (v : Byte) : cellsFind (cellsPut cs a v) a = some v := by
  induction cs with
  | nil => simp [cellsPut, cellsFind]
  | cons c cs ih =>
    obtain ⟨k, b⟩ := c
    simp only [cellsPut]
    split
    · simp [cellsFind]
    · split
      · simp [cellsFind]
      · rename_i h
        simp [cellsFind, ih, Ne.symm h]

theorem cellsFind_put_other (cs : List Host.Cell) {a k : Nat} (v : Byte) (h : k ≠ a) :
    cellsFind (cellsPut cs a v) k = cellsFind cs k := by
  induction cs with
  | nil => simp [cellsPut, cellsFind, Ne.symm h]
  | cons c cs ih =>
    obtain ⟨k', b⟩ := c
    simp only [cellsPut]
    split
    · simp [cellsFind, Ne.symm h]
    · split
      · rename_i h'
        subst h'
        simp [cellsFind, Ne.symm h]
      · simp only [cellsFind, ih]

theorem cellsFind_none_of_lt (cs : List Host.Cell) (a : Nat) (h : ∀ d ∈ cs, a < d.1) : cellsFind cs a = none := by
  induction cs with
  | nil => rfl
  | cons c cs ih =>
    have hc := h c (by simp)
    simp only [cellsFind]
    rw [if_neg (by omega)]
    exact ih fun d hd => h d (by simp [hd])

theorem cellsFind_drop_same (cs : List Host.Cell) (a : Nat) (h : cellsRising cs = true) :
    cellsFind (cellsDrop cs a) a = none := by
  induction cs with
  | nil => rfl
  | cons c cs ih =>
    obtain ⟨k, b⟩ := c
    simp only [cellsRising, Bool.and_eq_true, List.all_eq_true, decide_eq_true_eq] at h
    simp only [cellsDrop]
    split
    · rename_i hk
      subst hk
      exact cellsFind_none_of_lt cs k h.1
    · rename_i hk
      simp [cellsFind, hk, ih h.2]

theorem cellsFind_drop_other (cs : List Host.Cell) {a k : Nat} (h : k ≠ a) :
    cellsFind (cellsDrop cs a) k = cellsFind cs k := by
  induction cs with
  | nil => rfl
  | cons c cs ih =>
    obtain ⟨k', b⟩ := c
    simp only [cellsDrop]
    split
    · rename_i hk
      subst hk
      simp [cellsFind, Ne.symm h]
    · simp only [cellsFind, ih]

theorem mem_cellsPut {cs : List Host.Cell} {a : Nat} {v : Byte} {d : Host.Cell} (h : d ∈ cellsPut cs a v) :
    d = (a, v) ∨ d ∈ cs := by
  induction cs with
  | nil => simpa [cellsPut] using h
  | cons c cs ih =>
    obtain ⟨k, b⟩ := c
    simp only [cellsPut] at h
    split at h
    · simpa using h
    · split at h
      · rcases List.mem_cons.1 h with h | h
        · exact .inl h
        · exact .inr (List.mem_cons_of_mem _ h)
      · rcases List.mem_cons.1 h with h | h
        · exact .inr (h ▸ List.mem_cons_self)
        · exact (ih h).imp id (List.mem_cons_of_mem _)

theorem mem_cellsDrop {cs : List Host.Cell} {a : Nat} {d : Host.Cell} (h : d ∈ cellsDrop cs a) : d ∈ cs := by
  induction cs with
  | nil => exact h
  | cons c cs ih =>
    obtain ⟨k, b⟩ := c
    simp only [cellsDrop] at h
    split at h
    · exact List.mem_cons_of_mem _ h
    · rcases List.mem_cons.1 h with h | h
      · exact h ▸ List.mem_cons_self
      · exact List.mem_cons_of_mem _ (ih h)

theorem cellsRising_put {cs : List Host.Cell} (a : Nat) (v : Byte) (h : cellsRising cs = true) :
    cellsRising (cellsPut cs a v) = true := by
  induction cs with
  | nil => rfl
  | cons c cs ih =>
    obtain ⟨k, b⟩ := c
    have h' := h
    simp only [cellsRising, Bool.and_eq_true, List.all_eq_true, decide_eq_true_eq] at h'
    simp only [cellsPut]
    split
    · rename_i hlt
      simp only [cellsRising, Bool.and_eq_true, List.all_eq_true, decide_eq_true_eq]
      refine ⟨fun d hd => ?_, h'⟩
      rcases List.mem_cons.1 hd with rfl | hd
      · exact hlt
      · exact Nat.lt_trans hlt (h'.1 d hd)
    · split
      · rename_i heq
        subst heq
        simpa [cellsRising] using h'
      · rename_i hlt hne
        simp only [cellsRising, Bool.and_eq_true, List.all_eq_true, decide_eq_true_eq]
        refine ⟨fun d hd => ?_, ih h'.2⟩
        rcases mem_cellsPut hd with rfl | hd
        · simp only
          omega
        · exact h'.1 d hd

theorem cellsRising_drop {cs : List Host.Cell} (a : Nat) (h : cellsRising cs = true) :
    cellsRising (cellsDrop cs a) = true := by
  induction cs with
  | nil => rfl
  | cons c cs ih =>
    obtain ⟨k, b⟩ := c
    simp only [cellsRising, Bool.and_eq_true, List.all_eq_true, decide_eq_true_eq] at h
    simp only [cellsDrop]
    split
    · exact h.2
    · simp only [cellsRising, Bool.and_eq_true, List.all_eq_true, decide_eq_true_eq]
      exact ⟨fun d hd => h.1 d (mem_cellsDrop hd), ih h.2⟩

/-! ## A memory space -/

/-- The cells of a canonical space are rising. -/
theorem Memory.rising_of_wf {sp : Space} {size : Nat} {m : Memory} (h : m.wf sp size = true) :
    cellsRising m.cells = true := by
  simp only [Memory.wf, Bool.and_eq_true] at h
  exact h.1

/-- A read of the byte just written gives it (20_memory.md R65). -/
theorem Memory.read_write_same {sp : Space} {size : Nat} {m : Memory} (a : Nat) (v : Byte)
    (h : m.wf sp size = true) : (m.write sp a v).read sp a = some v := by
  simp only [Memory.write]
  split
  · rename_i hv
    simp [Memory.read, cellsFind_drop_same _ _ (rising_of_wf h), hv]
  · simp [Memory.read, cellsFind_put_same]

/-- A write leaves every other byte of the space as it was (20_memory.md R65). -/
theorem Memory.read_write_other {sp : Space} {m : Memory} {a k : Nat} (v : Byte) (h : k ≠ a) :
    (m.write sp a v).read sp k = m.read sp k := by
  simp only [Memory.write]
  split
  · simp [Memory.read, cellsFind_drop_other _ h]
  · simp [Memory.read, cellsFind_put_other _ _ h]

/-- A write to an address of the space keeps its canonical form. -/
theorem Memory.wf_write {sp : Space} {size : Nat} {m : Memory} {a : Nat} (v : Byte) (ha : a < size)
    (h : m.wf sp size = true) : (m.write sp a v).wf sp size = true := by
  simp only [Memory.wf, Bool.and_eq_true, List.all_eq_true, decide_eq_true_eq] at h ⊢
  simp only [Memory.write]
  split
  · exact ⟨cellsRising_drop a h.1, fun d hd => h.2 d (mem_cellsDrop hd)⟩
  · rename_i hv
    refine ⟨cellsRising_put a v h.1, fun d hd => ?_⟩
    rcases mem_cellsPut hd with rfl | hd
    · exact ⟨hv, ha⟩
    · exact h.2 d hd

/-- A space with nothing listed is canonical. -/
theorem Memory.wf_empty (sp : Space) (size : Nat) : Memory.wf sp size { cells := [] } = true := rfl

/-! ## Writing a run of bytes of `OUT` -/

/-- `writeOutBytes` keeps the canonical form when all its addresses exist. -/
theorem writeOutBytes_wf {size n : Nat} {m : Memory} (f : Nat → Byte) (hn : n ≤ size)
    (h : m.wf .output size = true) : (writeOutBytes f n m).wf .output size = true := by
  induction n with
  | zero => exact h
  | succ n ih => exact Memory.wf_write _ (by omega) (ih (by omega))

/-- The run written by `writeOutBytes` reads as `f`. -/
theorem writeOutBytes_read_below {size n k : Nat} {m : Memory} (f : Nat → Byte) (hk : k < n) (hn : n ≤ size)
    (h : m.wf .output size = true) : (writeOutBytes f n m).read .output k = some (f k) := by
  induction n with
  | zero => omega
  | succ n ih =>
    simp only [writeOutBytes]
    by_cases hkn : k = n
    · subst hkn
      exact Memory.read_write_same (size := size) _ _ (writeOutBytes_wf f (by omega) h)
    · rw [Memory.read_write_other _ hkn]
      exact ih (by omega) (by omega)

/-- `writeOutBytes` touches no address at or above its count (20_memory.md R64, R67). -/
theorem writeOutBytes_read_above {n k : Nat} {m : Memory} (f : Nat → Byte) (hk : n ≤ k) :
    (writeOutBytes f n m).read .output k = m.read .output k := by
  induction n with
  | zero => rfl
  | succ n ih =>
    simp only [writeOutBytes]
    rw [Memory.read_write_other _ (by omega)]
    exact ih (by omega)

end Sys2Proof.Machine
end

