-- ==== Sys2Proof/Laws/State.lean ====
section
/-! SUPPORT. One lemma per field per named update of the state, so that no proof unfolds a record update. -/

namespace Sys2Proof.Machine

/-! ## a response -/

@[simp] theorem State.respond_cfg (s : State) (r : Response) : (s.respond r).cfg = s.cfg := rfl
@[simp] theorem State.respond_phase (s : State) (r : Response) : (s.respond r).phase = s.phase := rfl
@[simp] theorem State.respond_fphase (s : State) (r : Response) : (s.respond r).fphase = s.fphase := rfl
@[simp] theorem State.respond_fcode (s : State) (r : Response) : (s.respond r).fcode = s.fcode := rfl
@[simp] theorem State.respond_finfo (s : State) (r : Response) : (s.respond r).finfo = s.finfo := rfl
@[simp] theorem State.respond_inLen (s : State) (r : Response) : (s.respond r).inLen = s.inLen := rfl
@[simp] theorem State.respond_bitsReq (s : State) (r : Response) : (s.respond r).bitsReq = s.bitsReq := rfl
@[simp] theorem State.respond_outLen (s : State) (r : Response) : (s.respond r).outLen = s.outLen := rfl
@[simp] theorem State.respond_freq (s : State) (r : Response) : (s.respond r).freq = s.freq := rfl
@[simp] theorem State.respond_arena (s : State) (r : Response) : (s.respond r).arena = s.arena := rfl
@[simp] theorem State.respond_lut (s : State) (r : Response) : (s.respond r).lut = s.lut := rfl
@[simp] theorem State.respond_ea (s : State) (r : Response) : (s.respond r).ea = s.ea := rfl
@[simp] theorem State.respond_eb (s : State) (r : Response) : (s.respond r).eb = s.eb := rfl
@[simp] theorem State.respond_et (s : State) (r : Response) : (s.respond r).et = s.et := rfl
@[simp] theorem State.respond_resp (s : State) (r : Response) : (s.respond r).resp = r := rfl
@[simp] theorem State.respond_inMem (s : State) (r : Response) : (s.respond r).inMem = s.inMem := rfl
@[simp] theorem State.respond_outMem (s : State) (r : Response) : (s.respond r).outMem = s.outMem := rfl
@[simp] theorem State.respond_host (s : State) (r : Response) : (s.respond r).host = s.host := rfl
@[simp] theorem State.respond_fresh (s : State) (r : Response) : (s.respond r).fresh = s.fresh := rfl

/-! ## a refusal (60_exceptions.md R242) -/

@[simp] theorem State.refuse_cfg (s : State) : s.refuse.cfg = s.cfg := rfl
@[simp] theorem State.refuse_phase (s : State) : s.refuse.phase = s.phase := rfl
@[simp] theorem State.refuse_fphase (s : State) : s.refuse.fphase = s.fphase := rfl
@[simp] theorem State.refuse_fcode (s : State) : s.refuse.fcode = s.fcode := rfl
@[simp] theorem State.refuse_finfo (s : State) : s.refuse.finfo = s.finfo := rfl
@[simp] theorem State.refuse_inLen (s : State) : s.refuse.inLen = s.inLen := rfl
@[simp] theorem State.refuse_bitsReq (s : State) : s.refuse.bitsReq = s.bitsReq := rfl
@[simp] theorem State.refuse_outLen (s : State) : s.refuse.outLen = s.outLen := rfl
@[simp] theorem State.refuse_freq (s : State) : s.refuse.freq = s.freq := rfl
@[simp] theorem State.refuse_arena (s : State) : s.refuse.arena = s.arena := rfl
@[simp] theorem State.refuse_lut (s : State) : s.refuse.lut = s.lut := rfl
@[simp] theorem State.refuse_ea (s : State) : s.refuse.ea = s.ea := rfl
@[simp] theorem State.refuse_eb (s : State) : s.refuse.eb = s.eb := rfl
@[simp] theorem State.refuse_et (s : State) : s.refuse.et = s.et := rfl
@[simp] theorem State.refuse_resp (s : State) : s.refuse.resp = Response.failed := rfl
@[simp] theorem State.refuse_inMem (s : State) : s.refuse.inMem = s.inMem := rfl
@[simp] theorem State.refuse_outMem (s : State) : s.refuse.outMem = s.outMem := rfl
@[simp] theorem State.refuse_host (s : State) : s.refuse.host = s.host := rfl
@[simp] theorem State.refuse_fresh (s : State) : s.refuse.fresh = s.fresh := rfl

/-! ## fault entry (60_exceptions.md R240) -/

@[simp] theorem State.raise_cfg (s : State) (c : Cause) (n : Nat) : (s.raise c n).cfg = s.cfg := rfl
@[simp] theorem State.raise_phase (s : State) (c : Cause) (n : Nat) : (s.raise c n).phase = .fault := rfl
@[simp] theorem State.raise_fphase (s : State) (c : Cause) (n : Nat) : (s.raise c n).fphase = s.phase := rfl
@[simp] theorem State.raise_fcode (s : State) (c : Cause) (n : Nat) : (s.raise c n).fcode = some c := rfl
@[simp] theorem State.raise_finfo (s : State) (c : Cause) (n : Nat) : (s.raise c n).finfo = narrow s.cfg.bw n := rfl
@[simp] theorem State.raise_inLen (s : State) (c : Cause) (n : Nat) : (s.raise c n).inLen = s.inLen := rfl
@[simp] theorem State.raise_bitsReq (s : State) (c : Cause) (n : Nat) : (s.raise c n).bitsReq = s.bitsReq := rfl
@[simp] theorem State.raise_outLen (s : State) (c : Cause) (n : Nat) : (s.raise c n).outLen = s.outLen := rfl
@[simp] theorem State.raise_freq (s : State) (c : Cause) (n : Nat) : (s.raise c n).freq = s.freq := rfl
@[simp] theorem State.raise_arena (s : State) (c : Cause) (n : Nat) : (s.raise c n).arena = s.arena := rfl
@[simp] theorem State.raise_lut (s : State) (c : Cause) (n : Nat) : (s.raise c n).lut = s.lut := rfl
@[simp] theorem State.raise_ea (s : State) (c : Cause) (n : Nat) : (s.raise c n).ea = s.ea := rfl
@[simp] theorem State.raise_eb (s : State) (c : Cause) (n : Nat) : (s.raise c n).eb = s.eb := rfl
@[simp] theorem State.raise_et (s : State) (c : Cause) (n : Nat) : (s.raise c n).et = s.et := rfl
@[simp] theorem State.raise_resp (s : State) (c : Cause) (n : Nat) : (s.raise c n).resp = Response.failed := rfl
@[simp] theorem State.raise_inMem (s : State) (c : Cause) (n : Nat) : (s.raise c n).inMem = s.inMem := rfl
@[simp] theorem State.raise_outMem (s : State) (c : Cause) (n : Nat) : (s.raise c n).outMem = s.outMem := rfl
@[simp] theorem State.raise_host (s : State) (c : Cause) (n : Nat) : (s.raise c n).host = s.host := rfl
@[simp] theorem State.raise_fresh (s : State) (c : Cause) (n : Nat) : (s.raise c n).fresh = s.fresh := rfl

/-! ## taking the host's next action -/

@[simp] theorem State.taken_cfg (s : State) : s.taken.cfg = s.cfg := rfl
@[simp] theorem State.taken_phase (s : State) : s.taken.phase = s.phase := rfl
@[simp] theorem State.taken_fphase (s : State) : s.taken.fphase = s.fphase := rfl
@[simp] theorem State.taken_fcode (s : State) : s.taken.fcode = s.fcode := rfl
@[simp] theorem State.taken_finfo (s : State) : s.taken.finfo = s.finfo := rfl
@[simp] theorem State.taken_inLen (s : State) : s.taken.inLen = s.inLen := rfl
@[simp] theorem State.taken_bitsReq (s : State) : s.taken.bitsReq = s.bitsReq := rfl
@[simp] theorem State.taken_outLen (s : State) : s.taken.outLen = s.outLen := rfl
@[simp] theorem State.taken_freq (s : State) : s.taken.freq = s.freq := rfl
@[simp] theorem State.taken_arena (s : State) : s.taken.arena = s.arena := rfl
@[simp] theorem State.taken_lut (s : State) : s.taken.lut = s.lut := rfl
@[simp] theorem State.taken_ea (s : State) : s.taken.ea = s.ea := rfl
@[simp] theorem State.taken_eb (s : State) : s.taken.eb = s.eb := rfl
@[simp] theorem State.taken_et (s : State) : s.taken.et = s.et := rfl
@[simp] theorem State.taken_resp (s : State) : s.taken.resp = s.resp := rfl
@[simp] theorem State.taken_inMem (s : State) : s.taken.inMem = s.inMem := rfl
@[simp] theorem State.taken_outMem (s : State) : s.taken.outMem = s.outMem := rfl
@[simp] theorem State.taken_host (s : State) : s.taken.host = s.host.tail := rfl
@[simp] theorem State.taken_fresh (s : State) : s.taken.fresh = s.fresh := rfl

/-! ## `CLR` (44_host_access.md R211) -/

@[simp] theorem State.clear_cfg (s : State) : s.clear.cfg = s.cfg := rfl
@[simp] theorem State.clear_phase (s : State) : s.clear.phase = .idle := rfl
@[simp] theorem State.clear_fphase (s : State) : s.clear.fphase = s.fphase := rfl
@[simp] theorem State.clear_fcode (s : State) : s.clear.fcode = s.fcode := rfl
@[simp] theorem State.clear_finfo (s : State) : s.clear.finfo = s.finfo := rfl
@[simp] theorem State.clear_inLen (s : State) : s.clear.inLen = 0 := rfl
@[simp] theorem State.clear_bitsReq (s : State) : s.clear.bitsReq = 0 := rfl
@[simp] theorem State.clear_outLen (s : State) : s.clear.outLen = 0 := rfl
@[simp] theorem State.clear_freq (s : State) : s.clear.freq = Vector.replicate 256 0 := rfl
@[simp] theorem State.clear_arena (s : State) : s.clear.arena = freeArena s.cfg s.fresh := rfl
@[simp] theorem State.clear_lut (s : State) : s.clear.lut = Vector.ofFn fun i => freeEncoding s.fresh i := rfl
@[simp] theorem State.clear_ea (s : State) : s.clear.ea = Encoding.empty := rfl
@[simp] theorem State.clear_eb (s : State) : s.clear.eb = Encoding.empty := rfl
@[simp] theorem State.clear_et (s : State) : s.clear.et = freeEncoding s.fresh 256 := rfl
@[simp] theorem State.clear_resp (s : State) : s.clear.resp = s.resp := rfl
@[simp] theorem State.clear_inMem (s : State) : s.clear.inMem = s.inMem := rfl
@[simp] theorem State.clear_outMem (s : State) : s.clear.outMem = s.outMem := rfl
@[simp] theorem State.clear_host (s : State) : s.clear.host = s.host := rfl
@[simp] theorem State.clear_fresh (s : State) : s.clear.fresh = s.fresh + 1 := rfl

/-! ## reset as an event (70_reset_and_hazards.md R260) -/

@[simp] theorem State.hostReset_cfg (s : State) : s.hostReset.cfg = s.cfg := rfl
@[simp] theorem State.hostReset_phase (s : State) : s.hostReset.phase = .idle := rfl
@[simp] theorem State.hostReset_fphase (s : State) : s.hostReset.fphase = .idle := rfl
@[simp] theorem State.hostReset_fcode (s : State) : s.hostReset.fcode = none := rfl
@[simp] theorem State.hostReset_finfo (s : State) : s.hostReset.finfo = 0 := rfl
@[simp] theorem State.hostReset_inLen (s : State) : s.hostReset.inLen = 0 := rfl
@[simp] theorem State.hostReset_bitsReq (s : State) : s.hostReset.bitsReq = 0 := rfl
@[simp] theorem State.hostReset_outLen (s : State) : s.hostReset.outLen = 0 := rfl
@[simp] theorem State.hostReset_freq (s : State) : s.hostReset.freq = Vector.replicate 256 0 := rfl
@[simp] theorem State.hostReset_arena (s : State) : s.hostReset.arena = Arena.reset := rfl
@[simp] theorem State.hostReset_lut (s : State) : s.hostReset.lut = Vector.replicate 256 Encoding.empty := rfl
@[simp] theorem State.hostReset_ea (s : State) : s.hostReset.ea = Encoding.empty := rfl
@[simp] theorem State.hostReset_eb (s : State) : s.hostReset.eb = Encoding.empty := rfl
@[simp] theorem State.hostReset_et (s : State) : s.hostReset.et = Encoding.empty := rfl
@[simp] theorem State.hostReset_resp (s : State) : s.hostReset.resp = Response.failed := rfl
@[simp] theorem State.hostReset_inMem (s : State) : s.hostReset.inMem = s.inMem := rfl
@[simp] theorem State.hostReset_outMem (s : State) : s.hostReset.outMem = s.outMem := rfl
@[simp] theorem State.hostReset_host (s : State) : s.hostReset.host = s.host := rfl
@[simp] theorem State.hostReset_fresh (s : State) : s.hostReset.fresh = s.fresh := rfl

/-! ## What the host reads after an update that leaves the memory spaces alone -/

/-- Reading `IN` depends on the `IN` space only. -/
theorem inByte_congr {s t : State} (h : t.inMem = s.inMem) (a : Nat) : t.inByte a = s.inByte a := by
  simp only [State.inByte, h]

/-- Reading `OUT` depends on the `OUT` space only. -/
theorem outByte_congr {s t : State} (h : t.outMem = s.outMem) (a : Nat) : t.outByte a = s.outByte a := by
  simp only [State.outByte, h]

end Sys2Proof.Machine
end

