-- ==== Sys2Proof/Laws/Ops.lean ====
section
/-! SUPPORT. What the shared operations can do: the four checks of a command, fault entry, and the stages. -/

namespace Sys2Proof.Machine

/-- Where its word is legal and the phase allows it, a command does what its own rule says (30_encoding.md R103). -/
theorem command_own {s : State} {i : Instr} (own : State → State) (hw : i.wellFormed s.cfg.cw = true)
    (hp : legalIn i s.phase = true) : s.command i own = own s := by
  simp [State.command, hw, hp]

/-- A legal word in a running phase that does not allow it takes `SEQ_ERROR` (30_encoding.md R103 check 3). -/
theorem command_seqError {s : State} {i : Instr} (own : State → State) (hw : i.wellFormed s.cfg.cw = true)
    (hp : legalIn i s.phase = false) (hf : s.phase ≠ .fault) :
    s.command i own = s.raise .seqError i.word.toNat := by
  rw [State.command, if_pos hw, hp, if_neg hf]
  rfl

/-- A command the phase `FAULT` does not allow is refused (30_encoding.md R103 check 1). -/
theorem command_refused {s : State} {i : Instr} (own : State → State) (hp : legalIn i s.phase = false)
    (hf : s.phase = .fault) : s.command i own = s.refuse := by
  by_cases hw : i.wellFormed s.cfg.cw = true
  · rw [State.command, if_pos hw, hp, if_pos hf]
    rfl
  · rw [State.command, if_neg hw, State.illegalWord, if_pos hf]

/-- An illegal word in a running phase takes `ILLEGAL_CMD` (30_encoding.md R103 check 2). -/
theorem command_illegal {s : State} {i : Instr} (own : State → State) (hw : i.wellFormed s.cfg.cw = false)
    (hf : s.phase ≠ .fault) : s.command i own = s.raise .illegalCmd i.word.toNat := by
  simp [State.command, hw, hf, State.illegalWord]

/-- Everything the four checks can lead to (30_encoding.md R103). -/
theorem command_cases (s : State) (i : Instr) (own : State → State) :
    (i.wellFormed s.cfg.cw = true ∧ legalIn i s.phase = true ∧ s.command i own = own s) ∨
    (s.phase = .fault ∧ s.command i own = s.refuse) ∨
    (s.phase ≠ .fault ∧ i.wellFormed s.cfg.cw = false ∧ s.command i own = s.raise .illegalCmd i.word.toNat) ∨
    (s.phase ≠ .fault ∧ i.wellFormed s.cfg.cw = true ∧ legalIn i s.phase = false ∧
      s.command i own = s.raise .seqError i.word.toNat) := by
  by_cases hw : i.wellFormed s.cfg.cw = true
  · by_cases hp : legalIn i s.phase = true
    · exact .inl ⟨hw, hp, command_own own hw hp⟩
    · have hp' : legalIn i s.phase = false := by simpa using hp
      by_cases hf : s.phase = .fault
      · exact .inr (.inl ⟨hf, command_refused own hp' hf⟩)
      · exact .inr (.inr (.inr ⟨hf, hw, hp', command_seqError own hw hp' hf⟩))
  · have hw' : i.wellFormed s.cfg.cw = false := by simpa using hw
    by_cases hf : s.phase = .fault
    · exact .inr (.inl ⟨hf, by simp [State.command, hw', State.illegalWord, hf]⟩)
    · exact .inr (.inr (.inl ⟨hf, hw', command_illegal own hw' hf⟩))

@[simp] theorem Stage.finish_done (s : State) (data : Nat) :
    (Stage.done s data).finish = s.respond (Response.done data) := rfl

@[simp] theorem Stage.finish_raised (s : State) : (Stage.raised s).finish = s := rfl

@[simp] theorem Stage.andThen_done (s : State) (data : Nat) (next : State → Stage) :
    (Stage.done s data).andThen next = next s := rfl

@[simp] theorem Stage.andThen_raised (s : State) (next : State → Stage) :
    (Stage.raised s).andThen next = .raised s := rfl

/-- The only command legal in phase `FAULT` is `RDREG` (10_state.md R31). -/
theorem legalIn_fault {i : Instr} (h : legalIn i .fault = true) : ∃ r, i = .rdreg r := by
  cases i <;> simp [legalIn, Phase.running, Phase.hasTree, Phase.hasCodes] at h
  exact ⟨_, rfl⟩

/-- The information word of `ILLEGAL_CMD` and `SEQ_ERROR` is the command word itself: `BW` is at least 32
(10_state.md R44). -/
theorem narrow_word {c : Config} (h : c.legal = true) (w : BitVec 32) : narrow c.bw w.toNat = w.toNat := by
  have hc : 16 ≤ c.cw := by
    simp only [Config.legal, Bool.and_eq_true, decide_eq_true_eq] at h
    exact h.1
  have hw : w.toNat < 2 ^ 32 := w.isLt
  have hb : 2 ^ 32 ≤ 2 ^ c.bw := Nat.pow_le_pow_right (by omega) (by simp only [Config.bw]; omega)
  exact Nat.mod_eq_of_lt (by omega)

end Sys2Proof.Machine
end

