-- ==== Sys2Proof/Laws/PerInstr.lean ====
section
/-! SUPPORT. Laws stated for every command, one lemma per constructor of `Instr`. Family `WordFields`: the two fields
of a command's word are its opcode and its argument (30_encoding.md R91). -/

namespace Sys2Proof.Laws

/-- Reading the two fields of a word put together gives them back. -/
theorem fields_of_append (op : BitVec 8) (arg : BitVec 24) :
    opField (op ++ arg) = op ∧ argField (op ++ arg) = arg := by
  constructor
  · apply BitVec.eq_of_getLsbD_eq
    intro k hk
    have h := BitVec.getLsbD_append (x := op) (y := arg) (i := 24 + k)
    rw [if_neg (by omega), Nat.add_sub_cancel_left] at h
    rw [opField, BitVec.getLsbD_extractLsb']
    simpa only [hk, decide_true, Bool.true_and] using h
  · apply BitVec.eq_of_getLsbD_eq
    intro k hk
    have h := BitVec.getLsbD_append (x := op) (y := arg) (i := k)
    rw [if_pos hk] at h
    rw [argField, BitVec.getLsbD_extractLsb', Nat.zero_add]
    simpa only [hk, decide_true, Bool.true_and] using h

namespace WordFields

/-- `cw[31:24]` of the command's word is its opcode and `cw[23:0]` its argument. -/
def Statement (i : Instr) : Prop := opField i.word = i.opcode ∧ argField i.word = i.argument

theorem nop : Statement .nop := fields_of_append _ _
theorem clr : Statement .clr := fields_of_append _ _
theorem rdreg (r : BitVec 8) : Statement (.rdreg r) := fields_of_append _ _
theorem wrreg (r : BitVec 8) (wdata : Nat) : Statement (.wrreg r wdata) := fields_of_append _ _
theorem enew : Statement .enew := fields_of_append _ _
theorem epush (b : Bool) : Statement (.epush b) := fields_of_append _ _
theorem elen : Statement .elen := fields_of_append _ _
theorem eempty : Statement .eempty := fields_of_append _ _
theorem erev : Statement .erev := fields_of_append _ _
theorem eeq : Statement .eeq := fields_of_append _ _
theorem exch : Statement .exch := fields_of_append _ _
theorem elut (sym : BitVec 8) : Statement (.elut sym) := fields_of_append _ _
theorem erd : Statement .erd := fields_of_append _ _
theorem wrfreq (sym : BitVec 8) (wdata : Nat) : Statement (.wrfreq sym wdata) := fields_of_append _ _
theorem rdfreq (sym : BitVec 8) : Statement (.rdfreq sym) := fields_of_append _ _
theorem rdnode (n : BitVec 9) : Statement (.rdnode n) := fields_of_append _ _
theorem rdlut (sym : BitVec 8) : Statement (.rdlut sym) := fields_of_append _ _
theorem count : Statement .count := fields_of_append _ _
theorem build : Statement .build := fields_of_append _ _
theorem extract : Statement .extract := fields_of_append _ _
theorem size : Statement .size := fields_of_append _ _
theorem pack : Statement .pack := fields_of_append _ _
theorem genenc : Statement .genenc := fields_of_append _ _
theorem compress : Statement .compress := fields_of_append _ _

end WordFields

end Sys2Proof.Laws
end

