-- ==== Sys2Proof/Laws/Queue.lean ====
section
/-! SUPPORT. The two choices of `TIEBREAK` that the package names are legal (00_scope.md R11). -/

namespace Sys2Proof.Machine

/-- The fold of `firstBy` ends at a member of the queue that no member of smaller count is left out for. -/
theorem firstBy_fold_least {earlier : Nat × NodeIdx → Nat × NodeIdx → Bool}
    (hlt : ∀ x y, x.1 < y.1 → earlier x y = true) (hle : ∀ x y, earlier x y = true → x.1 ≤ y.1)
    (ms : List (Nat × NodeIdx)) (m : Nat × NodeIdx) :
    let best := ms.foldl (fun best x => if earlier x best then x else best) m
    best ∈ m :: ms ∧ ∀ x ∈ m :: ms, best.1 ≤ x.1 := by
  induction ms generalizing m with
  | nil => simp
  | cons y ys ih =>
    simp only [List.foldl_cons]
    by_cases hy : earlier y m = true
    · obtain ⟨hmem, hmin⟩ := ih y
      simp only [hy, if_true]
      refine ⟨List.mem_cons_of_mem _ hmem, fun x hx => ?_⟩
      rcases List.mem_cons.1 hx with rfl | hx
      · exact Nat.le_trans (hmin y List.mem_cons_self) (hle y x hy)
      · exact hmin x hx
    · obtain ⟨hmem, hmin⟩ := ih m
      simp only [hy]
      refine ⟨?_, fun x hx => ?_⟩
      · rcases List.mem_cons.1 hmem with h | h
        · exact List.mem_cons.2 (.inl h)
        · exact List.mem_cons_of_mem _ (List.mem_cons_of_mem _ h)
      · rcases List.mem_cons.1 hx with rfl | hx
        · exact hmin x List.mem_cons_self
        · rcases List.mem_cons.1 hx with rfl | hx
          · have : ¬ x.1 < m.1 := fun h => hy (hlt x m h)
            exact Nat.le_trans (hmin m List.mem_cons_self) (by omega)
          · exact hmin x (List.mem_cons_of_mem _ hx)

/-- An order that refines "smaller count first" gives a legal choice (00_scope.md R11). -/
theorem firstBy_legal {earlier : Nat × NodeIdx → Nat × NodeIdx → Bool}
    (hlt : ∀ x y, x.1 < y.1 → earlier x y = true) (hle : ∀ x y, earlier x y = true → x.1 ≤ y.1) :
    LegalTiebreak (firstBy earlier) := by
  intro queue hne
  cases queue with
  | nil => exact absurd rfl hne
  | cons m ms =>
    obtain ⟨hmem, hmin⟩ := firstBy_fold_least hlt hle ms m
    exact ⟨_, hmem, rfl, hmin⟩

/-- `INDEX_ASC` is legal (41_tree_builder.md R143). -/
theorem indexAsc_legal : LegalTiebreak indexAsc :=
  firstBy_legal (fun x y h => by simp [queuedBefore, h])
    (fun x y h => by
      simp only [queuedBefore, Bool.or_eq_true, Bool.and_eq_true, decide_eq_true_eq] at h
      omega)

/-- "Higher index first" is legal (95_test_vectors.md V25). -/
theorem indexDesc_legal : LegalTiebreak indexDesc :=
  firstBy_legal (fun x y h => by simp [h])
    (fun x y h => by
      simp only [Bool.or_eq_true, Bool.and_eq_true, decide_eq_true_eq] at h
      omega)

end Sys2Proof.Machine
end

