-- ==== Sys2Proof/Tests/Slice0.lean ====
section
/-! SUPPORT. The model's own tests. Expected values are the vectors of spec/95_test_vectors.md (V<n>, P<n>) or worked
out from the rules. Witnesses for the hypotheses of the statements stand at the end. -/

namespace Sys2Proof.Tests

open Sys2Proof Sys2Proof.Machine

/-! ## Ill-formed terms (30_encoding.md R101 c to f) -/

theorem test_wf_rdreg_8 : (Instr.rdreg 8).wellFormed 64 = false := by decide
theorem test_wf_wrreg_5 : (Instr.wrreg 5 0).wellFormed 64 = false := by decide
theorem test_wf_wrreg_wide : (Instr.wrreg 4 (2 ^ 64)).wellFormed 64 = false := by decide
theorem test_wf_wrfreq_wide : (Instr.wrfreq 0 (2 ^ 64)).wellFormed 64 = false := by decide
theorem test_wf_rdnode_511 : (Instr.rdnode 511).wellFormed 64 = false := by decide

/-! ## Decoding, words written out from 30_encoding.md R91 to R100 -/

theorem test_decode_nop : decode 64 ⟨0b00000000000000000000000000000000#32, 0⟩ = .ok .nop := by decide
theorem test_decode_clr : decode 64 ⟨0b00000001000000000000000000000000#32, 0⟩ = .ok .clr := by decide
theorem test_decode_rdreg : decode 64 ⟨0b00000010000000000000000000000111#32, 0⟩ = .ok (.rdreg 7) := by decide
theorem test_decode_wrreg : decode 64 ⟨0b00000011000000000000000000000100#32, 9⟩ = .ok (.wrreg 4 9) := by decide
theorem test_decode_enew : decode 64 ⟨0b00010000000000000000000000000000#32, 0⟩ = .ok .enew := by decide
theorem test_decode_epush0 : decode 64 ⟨0b00010001000000000000000000000000#32, 0⟩ = .ok (.epush false) := by decide
theorem test_decode_epush1 : decode 64 ⟨0b00010001000000000000000000000001#32, 0⟩ = .ok (.epush true) := by decide
theorem test_decode_elen : decode 64 ⟨0b00010010000000000000000000000000#32, 0⟩ = .ok .elen := by decide
theorem test_decode_eempty : decode 64 ⟨0b00010011000000000000000000000000#32, 0⟩ = .ok .eempty := by decide
theorem test_decode_erev : decode 64 ⟨0b00010100000000000000000000000000#32, 0⟩ = .ok .erev := by decide
theorem test_decode_eeq : decode 64 ⟨0b00010101000000000000000000000000#32, 0⟩ = .ok .eeq := by decide
theorem test_decode_exch : decode 64 ⟨0b00010110000000000000000000000000#32, 0⟩ = .ok .exch := by decide
theorem test_decode_elut : decode 64 ⟨0b00010111000000000000000001100011#32, 0⟩ = .ok (.elut 99) := by decide
theorem test_decode_erd : decode 64 ⟨0b00011000000000000000000000000000#32, 0⟩ = .ok .erd := by decide
theorem test_decode_wrfreq : decode 64 ⟨0b00100000000000000000000001100001#32, 4⟩ = .ok (.wrfreq 97 4) := by decide
theorem test_decode_rdfreq : decode 64 ⟨0b00100001000000000000000011111111#32, 0⟩ = .ok (.rdfreq 255) := by decide
theorem test_decode_rdnode : decode 64 ⟨0b00100010000000000000000111111110#32, 0⟩ = .ok (.rdnode 510) := by decide
theorem test_decode_rdlut : decode 64 ⟨0b00100011000000000000000001100010#32, 0⟩ = .ok (.rdlut 98) := by decide
theorem test_decode_count : decode 64 ⟨0b00110000000000000000000000000000#32, 0⟩ = .ok .count := by decide
theorem test_decode_build : decode 64 ⟨0b00110001000000000000000000000000#32, 0⟩ = .ok .build := by decide
theorem test_decode_extract : decode 64 ⟨0b00110010000000000000000000000000#32, 0⟩ = .ok .extract := by decide
theorem test_decode_size : decode 64 ⟨0b00110011000000000000000000000000#32, 0⟩ = .ok .size := by decide
theorem test_decode_pack : decode 64 ⟨0b00110100000000000000000000000000#32, 0⟩ = .ok .pack := by decide
theorem test_decode_genenc : decode 64 ⟨0b00111000000000000000000000000000#32, 0⟩ = .ok .genenc := by decide
theorem test_decode_compress : decode 64 ⟨0b00111001000000000000000000000000#32, 0⟩ = .ok .compress := by decide

/-- V51: illegal words and the case of R101 each falls under. -/
theorem test_decode_illegal :
    decode 64 ⟨0x04000000#32, 0⟩ = .error .unassignedOpcode ∧
    decode 64 ⟨0x00000001#32, 0⟩ = .error .reservedBits ∧
    decode 64 ⟨0x11000002#32, 0⟩ = .error .reservedBits ∧
    decode 64 ⟨0x220001FF#32, 0⟩ = .error .nodeIndex ∧
    decode 64 ⟨0x22000200#32, 0⟩ = .error .reservedBits ∧
    decode 64 ⟨0x02000008#32, 0⟩ = .error .registerNumber ∧
    decode 64 ⟨0x03000005#32, 0⟩ = .error .readOnlyRegister ∧
    decode 64 ⟨0x03000004#32, 2 ^ 64⟩ = .error .wdataTooWide ∧
    decode 64 ⟨0x20000100#32, 0⟩ = .error .reservedBits ∧
    decode 64 ⟨0x20000000#32, 2 ^ 64⟩ = .error .wdataTooWide ∧
    decode 64 ⟨0x3A000000#32, 0⟩ = .error .unassignedOpcode ∧
    decode 64 ⟨0xFFFFFFFF#32, 0⟩ = .error .unassignedOpcode := by decide

/-- No word is covered by two rows of the opcode table: two rows differ at a bit both fix. -/
theorem test_opcode_rows_disjoint :
    opcodeRows.Pairwise fun x y => x.bits &&& (x.mask &&& y.mask) ≠ y.bits &&& (x.mask &&& y.mask) := by decide

/-! ## One command on a small state -/

/-- The state a step or command ends in. -/
def after : Host.Outcome State Fault Refusal → State
  | .next t => t
  | .fault _ => State.reset
  | .refused _ => State.reset

/-- The reset state in another phase. -/
def inPhase (p : Phase) : State := { State.reset with phase := p }

/-- An Encoding by its bits. -/
def enc (bits : List Bool) : Encoding := Encoding.ofBits bits

/-- The state of V40 after `EXTRACT`, as far as `SIZE` and `PACK` look at it: "aaaabbbcc" and its three codes. -/
def v40 (p : Phase) : State :=
  { State.reset with
    phase := p
    inLen := 9
    inMem := { cells := [(0, 97), (1, 97), (2, 97), (3, 97), (4, 98), (5, 98), (6, 98), (7, 99), (8, 99)] }
    freq := (((Vector.replicate 256 0).set 97 4).set 98 3).set 99 2
    lut := (((Vector.replicate 256 Encoding.empty).set 97 (enc [false])).set 98 (enc [true, true])).set 99
      (enc [true, false, true]) }

theorem test_nop_faulted : (after (exec .nop (inPhase .fault))).resp.ok = false := by decide
theorem test_clr_phase : (after (exec .clr (v40 .packed))).phase = .idle ∧ (after (exec .clr (v40 .packed))).inLen = 0 := by
  decide

/-- R212: `RDREG 1` after a `SEQ_ERROR` taken in phase 2 returns `0x12F`, `RDREG 2` returns 6. -/
theorem test_rdreg_status :
    (after (exec (.rdreg 1) (after (exec .build (inPhase .built))))).resp.data = 0x12F ∧
    (after (exec (.rdreg 2) (after (exec .build (inPhase .built))))).resp.data = 6 := by decide

/-- V50. -/
theorem test_rdreg_id_config :
    (after (exec (.rdreg 0) State.reset)).resp.data = 0x48554637 ∧
    (after (exec (.rdreg 7) State.reset)).resp.data = 0x40 := by decide

/-- R213. -/
theorem test_wrreg : (after (exec (.wrreg 4 9) State.reset)).inLen = 9 := by decide

/-- V53: in phase 2, `WRREG 5` is `ILLEGAL_CMD`, not `SEQ_ERROR`. -/
theorem test_wrreg_order :
    (after (exec (.wrreg 5 0) (inPhase .built))).fcode = some .illegalCmd ∧
    (after (exec (.wrreg 5 0) (inPhase .built))).finfo = 0x03000005 := by decide

theorem test_wrfreq : (after (exec (.wrfreq 97 4) State.reset)).freq[97] = 4 := by decide
theorem test_rdfreq : (after (exec (.rdfreq 99) (v40 .counted))).resp.data = 2 := by decide

/-- V57. -/
theorem test_node_aux :
    nodeAux ⟨5, some 510, true, some 98⟩ = 0x4C5FE#32 ∧ nodeAux ⟨4, some 510, false, none⟩ = 0x3FFFE#32 ∧
    nodeAux ⟨9, none, false, some 509⟩ = 0x3FBFF#32 := by decide

/-- R216: a node's words come from the index named. -/
theorem test_rdnode :
    (after (exec (.rdnode 509) { State.reset with
      phase := .built
      arena := { Arena.reset with node := Arena.reset.node.set 509 ⟨5, some 510, true, some 98⟩ } })).resp =
      ⟨true, 5, 0x4C5FE#32, Encoding.empty⟩ := by decide +kernel

/-- R217. -/
theorem test_rdlut :
    (after (exec (.rdlut 99) (v40 .extracted))).resp.enc.v = (0xA0#256 <<< 248) ∧
    (after (exec (.rdlut 99) (v40 .extracted))).resp.data = 3 := by decide +kernel

/-- V11. -/
theorem test_epush :
    (after (exec (.epush true) { State.reset with ea := ⟨2, 0x80#256 <<< 248⟩ })).ea = ⟨3, 0xA0#256 <<< 248⟩ ∧
    (after (exec (.epush true) { State.reset with ea := ⟨2, 0x80#256 <<< 248⟩ })).resp.data = 3 := by decide

/-- V4, V17. -/
theorem test_epush_limit :
    (after (exec (.epush true) { State.reset with ea := ⟨254, 0⟩ })).resp.data = 255 ∧
    (after (exec (.epush false) { State.reset with ea := ⟨255, 0⟩ })).fcode = some .encOverflow ∧
    (after (exec (.epush false) { State.reset with ea := ⟨255, 0⟩ })).finfo = 0x100 ∧
    (after (exec (.epush false) { State.reset with ea := ⟨255, 0⟩ })).ea.len = 255 := by decide

theorem test_enew : (after (exec .enew { State.reset with ea := ⟨3, 0xA0#256 <<< 248⟩ })).ea = ⟨0, 0⟩ := by decide
theorem test_elen : (after (exec .elen { State.reset with ea := ⟨3, 0xC0#256 <<< 248⟩ })).resp.data = 3 := by decide
/-- V10, V12. -/
theorem test_eempty :
    (after (exec .eempty State.reset)).resp.data = 1 ∧
    (after (exec .eempty { State.reset with ea := ⟨1, 0⟩ })).resp.data = 0 := by decide

/-- V13. -/
theorem test_erev :
    (after (exec .erev { State.reset with ea := ⟨3, 0xC0#256 <<< 248⟩ })).ea = ⟨3, 0x60#256 <<< 248⟩ := by decide

/-- V14, with padding ignored (R120). -/
theorem test_eeq :
    (after (exec .eeq { State.reset with ea := ⟨1, 0⟩, eb := ⟨2, 0⟩ })).resp.data = 0 ∧
    (after (exec .eeq { State.reset with ea := ⟨1, 0⟩, eb := ⟨1, 1⟩ })).resp.data = 1 := by decide

/-- V15. -/
theorem test_exch :
    (after (exec .exch { State.reset with ea := ⟨1, 0x80#256 <<< 248⟩, eb := ⟨2, 0⟩ })).eb = ⟨1, 0x80#256 <<< 248⟩ := by
  decide

/-- V16. -/
theorem test_elut :
    (after (exec (.elut 99) (v40 .packed))).ea = ⟨3, 0xA0#256 <<< 248⟩ ∧
    (after (exec (.elut 0) (inPhase .built))).fcode = some .seqError := by decide +kernel

theorem test_erd :
    (after (exec .erd { State.reset with ea := ⟨3, 0xC0#256 <<< 248⟩ })).resp.enc = ⟨3, 0xC0#256 <<< 248⟩ := by decide

/-- V40: the counts of "aaaabbbcc". -/
theorem test_count :
    let t := after (exec .count { v40 .idle with freq := Vector.replicate 256 7 })
    t.freq[97] = 4 ∧ t.freq[98] = 3 ∧ t.freq[99] = 2 ∧ t.freq[0] = 0 ∧ t.resp.data = 9 := by decide +kernel

/-- V54. -/
theorem test_count_empty : (after (exec .count State.reset)).fcode = some .emptyInput := by decide

/-- R143: on equal counts the lower index goes first; a smaller count goes before any index. -/
theorem test_index_asc :
    indexAsc [(3, 5), (2, 9), (2, 7), (4, 1)] = some 7 ∧ indexDesc [(3, 5), (2, 9), (2, 7), (4, 1)] = some 9 := by decide

/-- R146 with V20: `508 = 507 + 99`, the second-popped is `right`, both children get the parent. -/
theorem test_join_nodes :
    let a := { Arena.reset with node := Arena.reset.node.set 99 ⟨2, none, false, none⟩ }
    let t := joinNodes 72 508 507 99 a
    t.node[508].count = 2 ∧ t.node[508].right = some 99 ∧ t.node[507].parent = some 508 ∧
      t.node[99].parent = some 508 ∧ t.inq[508] = true ∧ t.next = 509 := by decide +kernel

/-- R149: a node marked twice is found. -/
theorem test_mark_twice :
    let a := { Arena.reset with node := (Arena.reset.node.set 256 ⟨0, none, false, some 1⟩).set 257 ⟨0, none, false, some 1⟩ }
    (match buildMark [256, 257] a with
      | .marked _ => none
      | .twice _ r => some r) = some 1 := by decide +kernel

/-- V30: the walk for `c`: nodes 99, 508, 509, 510 push 1, 0, 1, and the code is "101". -/
theorem test_walk :
    (match walkFrom ((((Arena.reset.node.set 99 ⟨2, some 508, true, none⟩).set 508 ⟨2, some 509, false, some 99⟩).set 509
        ⟨5, some 510, true, some 98⟩)) 99 with
      | .root et => some (encReverse et)
      | .overflow _ => none) = some ⟨3, 0xA0#256 <<< 248⟩ := by decide +kernel

/-- R172: a walk that never ends overflows. -/
theorem test_walk_loop :
    (match walkFrom (Arena.reset.node.set 3 ⟨0, some 3, true, none⟩) 3 with
      | .root _ => none
      | .overflow et => some et.len) = some 255 := by decide +kernel

/-- R177, V52: `EXTRACT` straight after reset is out of phase. -/
theorem test_extract_phase : (after (exec .extract State.reset)).finfo = 0x32000000 := by decide

/-- V40: `SIZE` gives 16. -/
theorem test_size : (after (exec .size (v40 .extracted))).bitsReq = 16 := by decide +kernel

/-- V40: `PACK` writes `0F ED` and nothing beyond. -/
theorem test_pack :
    let t := after (exec .pack { v40 .sized with bitsReq := 16 })
    t.outMem = ⟨[(0, 0x0F), (1, 0xED)]⟩ ∧ t.outLen = 16 ∧ t.phase = .packed := by decide +kernel

/-- V48: `OUT_OVERRUN` at position 5 of "ccccccccc". -/
theorem test_pack_overrun :
    let t := after (exec .pack { v40 .sized with
      bitsReq := 16
      inMem := ⟨[(0, 99), (1, 99), (2, 99), (3, 99), (4, 99), (5, 99), (6, 99), (7, 99), (8, 99)]⟩ })
    t.fcode = some .outOverrun ∧ t.finfo = 5 ∧ t.fphase = .sized := by decide +kernel

/-- V54. -/
theorem test_genenc_empty :
    (after (exec .genenc State.reset)).fcode = some .emptyInput ∧ (after (exec .genenc State.reset)).fphase = .idle := by
  decide

/-- P5. -/
theorem test_compress_empty :
    (after (exec .compress State.reset)).status = 0x10F#32 ∧ (after (exec .compress State.reset)).resp.ok = false := by
  decide

/-- V46: the shifter at bit 6. -/
theorem test_place_code : placeCode [0x0C, 0x00] 6 ⟨3, 0xA0#256 <<< 248⟩ = [0x0E, 0x80] := by decide +kernel

/-- V45: the join of the second lane at bit 6. -/
theorem test_join_lane : joinLane [0x0C, 0x00] 6 [0xFB, 0x40] 10 = [0x0F, 0xED] := by decide +kernel

/-- V45: both lanes of "aaaabbbcc". -/
theorem test_lanes : (v40 .sized).lanesImage [0, 5, 9] = [0x0F, 0xED] := by decide +kernel

/-- V44: reading `0000111111101101` back. -/
theorem test_decode_bits :
    decodeBits ((((Vector.replicate 256 (enc [true, false, false])).set 97 (enc [false])).set 98 (enc [true, true])).set
      99 (enc [true, false, true])) 16
      [false, false, false, false, true, true, true, true, true, true, true, false, true, true, false, true] =
      some [97, 97, 97, 97, 98, 98, 98, 99, 99] := by decide +kernel

/-! ## The step -/

/-- P4: an out-of-order command, then what phase `FAULT` allows. -/
theorem test_step_seq_error :
    (after (step (State.reset.withFetchWord 32 0x32000000))).fcode = some .seqError ∧
    (after (step (State.reset.withFetchWord 32 0x32000000))).host = [] := by decide

/-- V51 through the port. -/
theorem test_step_illegal :
    (after (step (State.reset.withFetchWord 32 0x220001FF))).finfo = 0x220001FF ∧
    (after (step (State.reset.withFetchWord 32 0x220001FF))).fcode = some .illegalCmd := by decide

theorem test_step_waits : step State.reset = .next State.reset := rfl

theorem test_step_write_in :
    (after (step { State.reset with host := [.writeIn 3 97] })).inMem = ⟨[(3, 97)]⟩ := by decide

/-- Writing the byte an unlisted address reads as lists nothing. -/
theorem test_step_write_in_canonical :
    (after (step { State.reset with inMem := ⟨[(3, 97)]⟩, host := [.writeIn 3 0] })).inMem = ⟨[]⟩ := by decide

theorem test_step_reset :
    (after (step { inPhase .fault with outMem := ⟨[(0, 15)]⟩, host := [.reset] })).phase = .idle ∧
    (after (step { inPhase .fault with outMem := ⟨[(0, 15)]⟩, host := [.reset] })).outMem = ⟨[(0, 15)]⟩ := by decide

theorem test_table_word : decodeTableWord 32 0x11000001 = some (.epush true) := by decide

/-! ## Witnesses: states and operands that meet the hypotheses of the statements

`witness_<name>` is about `Obligations.<Name>`: the premises of each of its clauses, at values where they begin or end.
-/

/-- The premises of `SequencedIn` hold of `s`. -/
abbrev OutOfPhase (i : Instr) (phases : List Phase) (s : State) : Prop :=
  s.cfg.legal = true ∧ i.wellFormed s.cfg.cw = true ∧ s.phase ≠ .fault ∧ s.phase ∉ phases

theorem v40_freq (p : Phase) (sym : Symbol) : (v40 p).freq[sym] ≤ 4 := by
  simp only [v40, Fin.getElem_fin, Vector.getElem_set, Vector.getElem_replicate]
  split_ifs <;> decide

theorem v40_codes (p : Phase) (sym : Symbol) : (v40 p).lut[sym].padded = true := by
  simp only [v40, Fin.getElem_fin, Vector.getElem_set, Vector.getElem_replicate]
  split_ifs <;> decide

/-- `v40` with another `BITS_REQ` and the host about to act. -/
def v40With (p : Phase) (bits : Nat) (acts : List HostAct) : State := { v40 p with bitsReq := bits, host := acts }

/-- It is well formed in every phase. -/
theorem v40With_wf (p : Phase) {bits : Nat} {acts : List HostAct} (hb : bits < 2 ^ 80)
    (ha : ∀ c, HostAct.issue c ∈ acts → c.wdata < 2 ^ 80) : (v40With p bits acts).WF where
  config := (by decide : Config.standard.legal = true)
  freq sym := Nat.lt_of_le_of_lt (v40_freq p sym) (by decide : 4 < 2 ^ 64)
  inLen := (by decide : 9 < 2 ^ 64)
  finfo := (by decide : 0 < 2 ^ 80)
  bitsReq := hb
  outLen := (by decide : 0 < 2 ^ 80)
  counts i := by
    simp only [v40With, v40, State.reset, Arena.reset, Fin.getElem_fin, Vector.getElem_replicate]
    decide
  data := (by decide : 0 < 2 ^ 80)
  respEnc := (by decide : Encoding.empty.padded = true)
  ea := (by decide : Encoding.empty.padded = true)
  eb := (by decide : Encoding.empty.padded = true)
  lut _ sym := v40_codes p sym
  inMem := (by decide : Memory.wf .input (2 ^ 64) (v40 .idle).inMem = true)
  outMem := (by decide : Memory.wf .output (2 ^ 77) (v40 .idle).outMem = true)
  port := ha

theorem v40_wf (p : Phase) : (v40 p).WF := v40With_wf p (bits := 0) (acts := []) (by decide) (by simp)

theorem v40_coherent : (v40 .counted).Coherent := by constructor <;> decide

theorem v40_inv : (v40 .counted).Inv := by
  refine ⟨v40_wf _, v40_coherent, ?_, ?_, ?_⟩ <;> intro h <;> exact absurd h (by decide)

/-- The premises of a command that is legal in every running phase and refused in phase `FAULT`. -/
abbrev RunsAndIsRefused (running faulted : State) : Prop := running.phase ≠ .fault ∧ faulted.phase = .fault

theorem witness_NopAnswersOkAndChangesNothing : RunsAndIsRefused (inPhase .packed) (inPhase .fault) := by decide
theorem witness_RdfreqReadsOneCount : RunsAndIsRefused (inPhase .packed) (inPhase .fault) := by decide
theorem witness_EnewEmptiesEa : RunsAndIsRefused (inPhase .packed) (inPhase .fault) := by decide
theorem witness_ElenAndEemptyReadTheLength : RunsAndIsRefused (inPhase .packed) (inPhase .fault) := by decide
theorem witness_ErevReversesTheBits : RunsAndIsRefused (inPhase .packed) (inPhase .fault) := by decide
theorem witness_EeqComparesTheBitStrings : RunsAndIsRefused (inPhase .packed) (inPhase .fault) := by decide
theorem witness_ExchSwapsTheRegisters : RunsAndIsRefused (inPhase .packed) (inPhase .fault) := by decide

theorem witness_ClrBeginsANewCall :
    RunsAndIsRefused (inPhase .packed) (inPhase .fault) ∧ (510#9).toNat < 511 := by decide

theorem witness_ErdReadsOutEa :
    RunsAndIsRefused (v40 .packed) (inPhase .fault) ∧ (v40 .packed).WF ∧ (v40 .packed).ea.len.toNat ≤ 0 ∧ 255 < 256 :=
  ⟨by decide, v40_wf _, by decide, by decide⟩

theorem witness_PushesStopAt255Bits :
    (List.replicate 255 true).length ≤ 255 ∧ 256 ≤ (List.replicate 256 true).length ∧
    (Encoding.mk 255 0).len.toNat = 255 := by decide +kernel

theorem witness_RdregReadsTheEightRegisters :
    (inPhase .fault).cfg.legal = true ∧ (7#8).toNat < 8 ∧ 8 ≤ (8#8).toNat := by decide

theorem witness_WrregWritesTheInputLength :
    State.reset.phase = .idle ∧ 2 ^ 64 - 1 < 2 ^ State.reset.cfg.cw ∧ 2 ^ State.reset.cfg.cw ≤ 2 ^ 64 ∧
    OutOfPhase (.wrreg 4 0) [.idle] (inPhase .counted) := by decide

theorem witness_WrfreqWritesOneCount :
    State.reset.phase = .idle ∧ 2 ^ 64 - 1 < 2 ^ State.reset.cfg.cw ∧ 2 ^ State.reset.cfg.cw ≤ 2 ^ 64 ∧
    OutOfPhase (.wrfreq 255 0) [.idle] (inPhase .packed) := by decide

theorem witness_RdnodeShowsANode :
    (inPhase .built).phase ∈ [Phase.built, .extracted, .sized, .packed] ∧
    OutOfPhase (.rdnode 510) [.built, .extracted, .sized, .packed] (inPhase .counted) := by decide

theorem witness_RdlutShowsACode :
    (inPhase .extracted).phase ∈ [Phase.extracted, .sized, .packed] ∧
    OutOfPhase (.rdlut 255) [.extracted, .sized, .packed] (inPhase .built) := by decide

/-- Of `EpushAppendsOneBit`: a padded `EA` of 254 bits, and one of 255. -/
theorem witness_EpushAppendsOneBit :
    (Encoding.mk 254 0).len ≠ 255 ∧ (Encoding.mk 254 0).padded = true ∧ (Encoding.mk 255 0).len = 255 := by decide

theorem witness_ElutCopiesACode :
    (inPhase .packed).phase ∈ [Phase.extracted, .sized, .packed] ∧
    OutOfPhase (.elut 0) [.extracted, .sized, .packed] (inPhase .built) := by decide

theorem witness_CountCountsTheInput :
    (v40 .idle).phase = .idle ∧ (v40 .idle).inLen ≠ 0 ∧ (v40 .idle).inLen < 2 ^ (v40 .idle).cfg.cw ∧
    State.reset.phase = .idle ∧ State.reset.inLen = 0 ∧ OutOfPhase .count [.idle] (inPhase .counted) := by decide

theorem witness_EmptyInputFaults :
    State.reset.phase = .idle ∧ State.reset.inLen = 0 ∧ (inPhase .sized).phase = .sized ∧
    (inPhase .sized).inLen = 0 ∧ (inPhase .built).fcode ≠ some .emptyInput := by decide

theorem witness_BuildBuildsTheTree :
    (v40 .counted).phase = .counted ∧ (∀ sym : Symbol, (v40 .counted).freq[sym] < 2 ^ (v40 .counted).cfg.cw) ∧
    OutOfPhase .build [.idle, .counted] (inPhase .built) :=
  ⟨rfl, (v40_wf _).freq, by decide⟩

theorem witness_EveryTiebreakBuildsAHuffmanTree :
    LegalTiebreak indexAsc ∧ LegalTiebreak indexDesc ∧ indexAsc [(1, 3), (1, 4)] ≠ indexDesc [(1, 3), (1, 4)] ∧
    ∀ sym : Symbol, (v40 .counted).freq[sym] < 2 ^ 64 :=
  ⟨indexAsc_legal, indexDesc_legal, by decide, (v40_wf .counted).freq⟩

theorem witness_TotalSizeIsTheSameForEveryTiebreak :
    LegalTiebreak indexAsc ∧ LegalTiebreak indexDesc ∧ ∀ sym : Symbol, (v40 .counted).freq[sym] < 2 ^ 64 :=
  ⟨indexAsc_legal, indexDesc_legal, (v40_wf .counted).freq⟩

/-- The code that gives every symbol its 8-bit numeral. -/
def byteCode (sym : Symbol) : List Bool := (List.range 8).map fun k => sym.val.testBit (7 - k)

theorem byteCode_value : ∀ sym : Symbol, (byteCode sym).foldl (fun n b => 2 * n + b.toNat) 0 = sym.val := by
  decide +kernel

theorem byteCode_prefixFree (x y : Symbol) (h : x ≠ y) : ¬ byteCode x <+: byteCode y := by
  intro hp
  have he := hp.eq_of_length (by simp [byteCode])
  exact h (Fin.ext (by rw [← byteCode_value x, he, byteCode_value y]))

theorem witness_NoPrefixCodeIsShorter :
    LegalTiebreak indexAsc ∧ (∀ sym : Symbol, (v40 .counted).freq[sym] < 2 ^ 64) ∧
    ∀ x y : Symbol, x ≠ y → ¬ byteCode x <+: byteCode y :=
  ⟨indexAsc_legal, (v40_wf .counted).freq, byteCode_prefixFree⟩

theorem witness_EqualCountsGiveByteCodes :
    State.reset.phase = .idle ∧ 2 ^ 64 - 1 < 2 ^ State.reset.cfg.cw ∧
    ∀ sym : Symbol, ({ State.reset with freq := Vector.replicate 256 (2 ^ 64 - 1) } : State).freq[sym] = 2 ^ 64 - 1 :=
  ⟨rfl, by decide, fun sym => by simp⟩

/-! ### A tree written out -/

/-- How heavy node `i` of the tree of equal counts 1 is. -/
def evenWeight (i : Nat) : Nat :=
  if i < 256 then 1 else if i < 384 then 2 else if i < 448 then 4 else if i < 480 then 8 else if i < 496 then 16
  else if i < 504 then 32 else if i < 508 then 64 else if i < 510 then 128 else 256

/-- The tree of 256 counts of 1: node `256 + k` joins nodes `2k` and `2k + 1` (41_tree_builder.md R153). -/
def evenTree : Arena :=
  { node := Vector.ofFn fun i =>
      { count := evenWeight i
        parent := if h : i.val < 510 then some ⟨256 + i.val / 2, by omega⟩ else none
        bit := decide (i.val % 2 = 1 ∧ i.val < 510)
        right := if h : 256 ≤ i.val then some ⟨2 * i.val - 511, by omega⟩ else none }
    inq := Vector.replicate 511 false
    next := 511 }

theorem evenTree_count (i : NodeIdx) : evenTree.node[i].count = evenWeight i := by simp [evenTree]
theorem evenTree_bit (i : NodeIdx) : evenTree.node[i].bit = decide (i.val % 2 = 1 ∧ i.val < 510) := by simp [evenTree]
theorem evenTree_parent (i : NodeIdx) :
    evenTree.node[i].parent = if h : i.val < 510 then some ⟨256 + i.val / 2, by omega⟩ else none := by simp [evenTree]
theorem evenTree_right (i : NodeIdx) :
    evenTree.node[i].right = if h : 256 ≤ i.val then some ⟨2 * i.val - 511, by omega⟩ else none := by simp [evenTree]

theorem evenWeight_join : ∀ k : Fin 255, evenWeight (256 + k) = evenWeight (2 * k) + evenWeight (2 * k + 1) := by
  decide +kernel
theorem evenWeight_even : ∀ k : Fin 255, evenWeight (2 * k) ≤ evenWeight (2 * k + 1) := by decide +kernel

theorem evenTree_built : BuiltTree (Vector.replicate 256 1) evenTree where
  next := rfl
  queue i := by simp [evenTree]
  leaves sym := by
    have h := sym.isLt
    rw [evenTree_count, evenTree_right]
    rw [dif_neg (by simp only [leafOf]; omega)]
    simp [leafOf, evenWeight, h]
  root := ⟨by rw [evenTree_parent, dif_neg (by simp [rootIdx])], by rw [evenTree_bit]; decide⟩
  above i hi := by
    have h : i.val < 510 := by
      have := i.isLt
      have : i.val ≠ 510 := fun e => hi (Fin.ext e)
      omega
    exact ⟨⟨256 + i.val / 2, by omega⟩, by rw [evenTree_parent, dif_pos h], by simp,
      by rw [Fin.lt_def]; simp only; omega⟩
  children n hn := by
    have hlt := n.isLt
    have hk : n.val - 256 < 255 := by omega
    have hl : 2 * (n.val - 256) < 511 := by omega
    have hr : 2 * (n.val - 256) + 1 < 511 := by omega
    refine ⟨⟨_, hl⟩, ⟨_, hr⟩, ?_, ?_, ?_, ?_, ?_, ?_⟩
    · simp
    · intro i
      rw [evenTree_parent]
      simp only [Fin.ext_iff]
      split
      · simp only [Option.some.injEq, Fin.ext_iff]
        omega
      · simp only [reduceCtorEq, false_iff]
        omega
    · rw [evenTree_right, dif_pos hn]
      simp only [Option.some.injEq, Fin.ext_iff]
      omega
    · simp only [evenTree_count]
      have := evenWeight_join ⟨_, hk⟩
      exact (congrArg evenWeight (by simp only; omega)).trans this
    · simp only [evenTree_count]
      exact evenWeight_even ⟨_, hk⟩
    · simp only [evenTree_bit, decide_eq_false_iff_not, decide_eq_true_eq]
      omega
  total := by
    rw [evenTree_count]
    simp [evenWeight, rootIdx]

/-- Every node of `evenTree` is at most `9 - level` links below the root. -/
def evenLevel (i : Nat) : Nat :=
  if i < 256 then 0 else if i < 384 then 1 else if i < 448 then 2 else if i < 480 then 3 else if i < 496 then 4
  else if i < 504 then 5 else if i < 508 then 6 else if i < 510 then 7 else 8

theorem evenLevel_parent : ∀ i : Fin 510, evenLevel (256 + i / 2) = evenLevel i + 1 := by decide +kernel
theorem evenLevel_le (i : Nat) : evenLevel i ≤ 8 := by
  unfold evenLevel
  split_ifs <;> omega

theorem evenTree_walk (fuel : Nat) (i : NodeIdx) (et : Encoding) (hf : 8 - evenLevel i < fuel)
    (he : et.len.toNat + (8 - evenLevel i) ≤ 255) : ∃ et', walkUp evenTree.node fuel i et = .root et' := by
  induction fuel generalizing i et with
  | zero => omega
  | succ fuel ih =>
    have hp := evenTree_parent i
    by_cases h : i.val < 510
    · rw [dif_pos h] at hp
      have hl := evenLevel_parent ⟨i.val, h⟩
      have h8 := evenLevel_le (256 + i.val / 2)
      simp only at hl
      have hne : et.len ≠ 255 := by
        intro e
        rw [e] at he
        simp at he
        omega
      simp only [walkUp, hp, encPush, if_neg hne]
      apply ih
      · simp only
        omega
      · rw [Encoding.len_append _ hne]
        simp only
        omega
    · rw [dif_neg h] at hp
      exact ⟨et, by simp only [walkUp, hp]⟩

/-- The code table of `evenTree`, by the walks themselves. -/
def evenCodes : Vector Encoding 256 :=
  Vector.ofFn fun sym => match walkFrom evenTree.node sym with
    | .root et => encReverse et
    | .overflow _ => Encoding.empty

theorem evenCodes_of : CodesOf evenTree.node evenCodes := by
  intro sym
  obtain ⟨et, h⟩ := evenTree_walk 256 (leafOf sym) Encoding.empty (by have := evenLevel_le (leafOf sym); omega)
    (by have := evenLevel_le (leafOf sym); simp [Encoding.empty]; omega)
  exact ⟨et, h, by simp [evenCodes, walkFrom, h]⟩

theorem witness_CodesOfATreeArePrefixFree : BuiltTree (Vector.replicate 256 1) evenTree := evenTree_built

theorem witness_CodesOfATreeAreComplete :
    BuiltTree (Vector.replicate 256 1) evenTree ∧ CodesOf evenTree.node evenCodes := ⟨evenTree_built, evenCodes_of⟩

/-! ### Paths -/

/-- A node array in which every leaf but leaf 5 hangs under the root and leaf 5 under itself or, if `sound`, under the
root as well. -/
def flatNodes (sound : Bool) : Vector Node 511 :=
  Vector.ofFn fun i =>
    { Node.unmade with parent := if i.val = 510 then none else if i.val = 5 ∧ ¬ sound then some 5 else some rootIdx }

theorem flatNodes_parent (sound : Bool) (i : NodeIdx) : (flatNodes sound)[i].parent =
    if i.val = 510 then none else if i.val = 5 ∧ ¬ sound then some 5 else some rootIdx := by
  simp [flatNodes]

theorem flatNodes_path (sound : Bool) (sym : Symbol) (h : sym.val ≠ 5 ∨ sound = true) :
    ∃ bits, RootPath (flatNodes sound) (leafOf sym) bits ∧ bits.length ≤ 255 := by
  have := sym.isLt
  refine ⟨_, .link _ rootIdx [] ?_ (.root _ ?_), by simp⟩
  · rw [flatNodes_parent, if_neg (by simp [leafOf]; omega), if_neg (by simp [leafOf]; tauto)]
  · rw [flatNodes_parent]
    rfl

theorem flatNodes_loop {i : NodeIdx} {bits : List Bool} (h : RootPath (flatNodes false) i bits) : i ≠ 5 := by
  induction h with
  | root i h =>
    rintro rfl
    rw [flatNodes_parent] at h
    exact absurd h (by decide)
  | link i p bits h _ ih =>
    rintro rfl
    rw [flatNodes_parent] at h
    exact ih (Option.some.inj (h.symm.trans (by decide)))

/-- A state about to extract the codes of `flatNodes`. -/
def flatState (sound : Bool) : State :=
  { inPhase .built with arena := { Arena.reset with node := flatNodes sound } }

theorem witness_ExtractReadsThePathsOfTheTree :
    (flatState true).phase = .built ∧
    (∀ sym : Symbol, ∃ bits, RootPath (flatState true).arena.node (leafOf sym) bits ∧ bits.length ≤ 255) ∧
    OutOfPhase .extract [.built] (inPhase .counted) :=
  ⟨rfl, fun sym => flatNodes_path true sym (.inr rfl), by decide⟩

theorem witness_ExtractOverflowsAtTheFirstLongPath :
    (flatState false).cfg.legal = true ∧ (flatState false).phase = .built ∧
    (∀ sym : Symbol, sym < 5 →
      ∃ bits, RootPath (flatState false).arena.node (leafOf sym) bits ∧ bits.length ≤ 255) ∧
    ¬ ∃ bits, RootPath (flatState false).arena.node (leafOf 5) bits ∧ bits.length ≤ 255 :=
  ⟨(by decide : Config.standard.legal = true), rfl, fun sym h => flatNodes_path false sym (.inl (by rw [Fin.lt_def] at h; exact Nat.ne_of_lt h)),
    fun ⟨_, h, _⟩ => flatNodes_loop h rfl⟩

/-! ### Sizing, packing, lanes -/

theorem witness_SizeSumsCountsTimesLengths :
    (v40 .extracted).phase = .extracted ∧ (∀ sym : Symbol, (v40 .extracted).freq[sym] < 2 ^ (v40 .extracted).cfg.cw) ∧
    OutOfPhase .size [.extracted] (inPhase .sized) :=
  ⟨rfl, (v40_wf _).freq, by decide⟩

/-- `v40` sized, with another `BITS_REQ`. -/
def v40Sized (bits : Nat) : State := v40With .sized bits []

theorem witness_PackPlacesEveryCodeBit :
    (v40Sized 16).WF ∧ (v40Sized 16).phase = .sized ∧ (v40Sized 16).inLen ≠ 0 ∧
    (∀ j < (v40Sized 16).inLen, (v40Sized 16).lenAt j ≠ 0) ∧
    (v40Sized 16).startAt (v40Sized 16).inLen = (v40Sized 16).bitsReq ∧ OutOfPhase .pack [.sized] (inPhase .packed) :=
  ⟨v40With_wf _ (by decide) (by simp), rfl, by decide, by decide +kernel, by decide +kernel, by decide⟩

/-- Overrun at the first and at the fourth position, an empty code at the first, and one bit too few. -/
theorem witness_PackFaultsAtTheFirstFailingCheck :
    (v40Sized 3).WF ∧ (v40Sized 3).inLen ≠ 0 ∧ ¬ (v40Sized 0).fitsAt 0 ∧
    ((∀ k < 3, (v40Sized 3).fitsAt k) ∧ ¬ (v40Sized 3).fitsAt 3 ∧ (v40Sized 3).lenAt 3 ≠ 0) ∧
    ({ v40Sized 16 with inMem := ⟨[]⟩ } : State).lenAt 0 = 0 ∧
    (∀ j < 9, (v40Sized 17).fitsAt j) ∧ (v40Sized 17).startAt (v40Sized 17).inLen < (v40Sized 17).bitsReq := by
  refine ⟨v40With_wf _ (by decide) (by simp), by decide, ?_⟩
  simp only [State.fitsAt]
  decide +kernel

/-- A state in which a whole input can be compressed. -/
theorem v40_ready : (v40 .idle).WF ∧ (v40 .idle).phase = .idle ∧ (v40 .idle).inLen ≠ 0 := ⟨v40_wf _, rfl, by decide⟩

theorem witness_GenencIsItsFourStages :
    ((v40 .idle).WF ∧ (v40 .idle).phase = .idle ∧ (v40 .idle).inLen ≠ 0) ∧
    OutOfPhase .genenc [.idle] (inPhase .counted) := ⟨v40_ready, by decide⟩

theorem witness_CompressPacksTheWholeInput :
    ((v40 .idle).WF ∧ (v40 .idle).phase = .idle ∧ (v40 .idle).inLen ≠ 0) ∧
    OutOfPhase .compress [.idle] (inPhase .sized) := ⟨v40_ready, by decide⟩

theorem witness_SizeIsBetweenOneAnd255BitsPerByte :
    (v40 .idle).WF ∧ (v40 .idle).phase = .idle ∧ (v40 .idle).inLen ≠ 0 := v40_ready

theorem witness_PackedOutputDecodesToTheInput :
    (v40 .idle).WF ∧ (v40 .idle).phase = .idle ∧ (v40 .idle).inLen ≠ 0 := v40_ready

theorem witness_LaneCountsAddUpInAnyOrder :
    validPart (v40 .idle).inLen [0, 5, 9] = true ∧ ([(5, 9), (0, 5)] : List (Nat × Nat)).Perm (chunks [0, 5, 9]) := by
  decide

theorem witness_LaneStringsJoinInInputOrder :
    validPart (v40Sized 16).inLen [0, 1, 8, 9] = true ∧
    (v40Sized 16).packScan (v40Sized 16).inLen 0 [] =
      .packed [false, false, false, false, true, true, true, true, true, true, true, false, true, true, false, true] := by
  decide +kernel

/-- A code of 3 bits at bit 6 of two bytes, across the byte boundary. -/
theorem witness_ShifterPlacesExactlyTheCode :
    (enc [true, false, true]).padded = true ∧ (enc [true, false, true]).len ≠ 0 ∧
    6 + (enc [true, false, true]).len.toNat ≤ 8 * ([0x0C, 0x00] : ByteImage).length ∧
    ∀ k, 6 ≤ k → imageBit [0x0C, 0x00] k = false := by
  refine ⟨by decide, by decide, by decide, fun k hk => ?_⟩
  by_cases h : k < 16
  · interval_cases k <;> rfl
  · have : ¬ k / 8 < 2 := by omega
    simp [imageBit, this]

theorem witness_LanesWriteTheBytesOfPack :
    (v40Sized 16).WF ∧ (v40Sized 16).phase = .sized ∧ validPart (v40Sized 16).inLen [0, 5, 9] = true ∧
    (∀ j < (v40Sized 16).inLen, (v40Sized 16).lenAt j ≠ 0) ∧
    (v40Sized 16).startAt (v40Sized 16).inLen = (v40Sized 16).bitsReq :=
  ⟨v40With_wf _ (by decide) (by simp), rfl, by decide, by decide +kernel, by decide +kernel⟩

/-! ### Words, faults, steps -/

/-- One word or write data for each case of `IllegalWord`. -/
theorem witness_IllegalWordsTakeIllegalCmd :
    IllegalWord 64 ⟨0x04000000, 0⟩ ∧ IllegalWord 64 ⟨0x11000002, 0⟩ ∧ IllegalWord 64 ⟨0x220001FF, 0⟩ ∧
    IllegalWord 64 ⟨0x02000008, 0⟩ ∧ IllegalWord 64 ⟨0x03000003, 0⟩ ∧ IllegalWord 64 ⟨0x20000000, 2 ^ 64⟩ ∧
    ¬ IllegalWord 64 ⟨0x220001FE, 0⟩ ∧ ¬ IllegalWord 64 ⟨0x20000000, 2 ^ 64 - 1⟩ := by
  refine ⟨.inl (by decide), .inl (by decide), .inr (.inl (by decide)), .inr (.inr (.inl (by decide))),
    .inr (.inr (.inr (.inl (by decide)))), .inr (.inr (.inr (.inr (by decide)))), ?_, ?_⟩ <;>
    rintro (h | h | h | h | h) <;> revert h <;> decide

theorem witness_PhaseTableOrdersTheCommands :
    (Instr.pack).wellFormed 64 = true ∧ Phase.sized ∈ legalPhases .pack ∧ Phase.packed ∉ legalPhases .pack ∧
    Phase.fault ∉ legalPhases .pack ∧ Phase.fault ∈ legalPhases (.rdreg 7) := by decide

/-- The host issues one command. -/
def issuing (i : Instr) (s : State) : State := { s with host := [.issue (encode i)] }

theorem witness_FaultPhaseRefusesAllButRdreg :
    (issuing (.rdreg 7) (inPhase .fault)).phase = .fault ∧ decode 64 (encode (.rdreg 7)) = .ok (.rdreg 7) ∧
    (¬ ∃ r : BitVec 8, r.toNat < 8 ∧ decode 64 (encode .clr) = .ok (.rdreg r)) ∧
    ¬ ∃ r : BitVec 8, r.toNat < 8 ∧ decode 64 ⟨0x02000008, 0⟩ = .ok (.rdreg r) := by
  refine ⟨rfl, by decide, ?_, ?_⟩ <;> rintro ⟨r, -, h⟩
  · rw [show decode 64 (encode .clr) = .ok .clr by decide] at h
    cases h
  · rw [show decode 64 ⟨0x02000008, 0⟩ = .error .registerNumber by decide] at h
    cases h

theorem witness_OnlyResetLeavesFault :
    (∃ t, step { inPhase .fault with host := [.reset] } = .next t) ∧
    (∃ t, step (issuing .clr (inPhase .fault)) = .next t) ∧
    ∀ rest, (issuing .clr (inPhase .fault)).host ≠ .reset :: rest :=
  ⟨⟨_, rfl⟩, ⟨_, rfl⟩, fun _ h => by simp [issuing] at h⟩

theorem witness_UnreachableFaultsAreNeverRaised : (v40 .counted).Inv ∧ (v40 .counted).phase ≠ .fault :=
  ⟨v40_inv, by decide⟩

theorem witness_TablesAreImmutableOnceMade :
    Instr.pack ≠ .clr ∧ (inPhase .built).phase ≠ .idle ∧
    (inPhase .fault).phase ∈ [Phase.built, .extracted, .sized, .packed, .fault] ∧
    (inPhase .extracted).phase ∈ [Phase.extracted, .sized, .packed, .fault] := by decide

theorem witness_StagesLeaveTheEncodingRegisters :
    (∀ b, Instr.extract ≠ .epush b) ∧ (∀ sym, Instr.extract ≠ .elut sym) ∧ Instr.extract ≠ .enew ∧
    Instr.extract ≠ .erev ∧ Instr.extract ≠ .exch ∧ Instr.extract ≠ .clr :=
  ⟨fun _ => by simp, fun _ => by simp, by decide, by decide, by decide, by decide⟩

theorem witness_OnlyPackWritesOutAndOnlyItsExtent : Instr.genenc ≠ .pack ∧ Instr.genenc ≠ .compress := by decide

theorem witness_StepRunsTheDecodedCommand :
    (issuing (.epush true) State.reset).host = .issue (encode (.epush true)) :: [] ∧
    decode State.reset.cfg.cw (encode (.epush true)) = .ok (.epush true) ∧ State.reset.host = [] :=
  ⟨rfl, by decide, rfl⟩

/-- The last address of each space and the first beyond it. -/
theorem witness_HostWritesOneByte :
    (v40With .idle 0 [.writeIn (2 ^ 64 - 1) 255]).WF ∧ (v40With .idle 0 [.writeOut (2 ^ 77 - 1) 0]).WF ∧
    (2 ^ 64 - 1 < 2 ^ State.reset.cfg.cw ∧ 2 ^ State.reset.cfg.cw ≤ 2 ^ 64) ∧
    2 ^ 77 - 1 < 2 ^ (State.reset.cfg.bw - 3) ∧ 2 ^ (State.reset.cfg.bw - 3) ≤ 2 ^ 77 := by
  refine ⟨v40With_wf _ (by decide) (by simp), v40With_wf _ (by decide) (by simp), ?_⟩
  decide +kernel

theorem witness_ResetGivesTheSpecifiedValues : (v40With .fault 0 [.reset]).host = .reset :: [] := rfl

theorem witness_EveryCommandDecodesFromItsWord :
    (Instr.rdnode 510).wellFormed 64 = true ∧ (Instr.wrfreq 255 (2 ^ 64 - 1)).wellFormed 64 = true := by decide

theorem witness_DecodedCommandEncodesToItsWord :
    decode 64 ⟨0x220001FE, 5⟩ = .ok (.rdnode 510) ∧
    decode 64 ⟨0x200000FF, 2 ^ 64 - 1⟩ = .ok (.wrfreq 255 (2 ^ 64 - 1)) := by decide

theorem witness_WriteDataIsIgnoredByOtherCommands :
    (0x210000FF#32).extractLsb' 24 8 ≠ 0x03 ∧ (0x210000FF#32).extractLsb' 24 8 ≠ 0x20 := by decide

theorem witness_StepKeepsTheRegistersSound :
    (v40 .counted).WF ∧ (v40 .counted).Coherent ∧ ∃ t, step (v40 .counted) = .next t :=
  ⟨v40_wf _, v40_coherent, _, rfl⟩

theorem witness_StepKeepsTheTablesConsistent : (v40 .counted).Inv ∧ ∃ t, step (v40 .counted) = .next t :=
  ⟨v40_inv, _, rfl⟩

end Sys2Proof.Tests
end

section
/-! The phase table (10_state.md R31, 60_exceptions.md R237). Every command is `State.command` around a rule of its
own, and that rule ends in the phase of the table's last column or in a fault other than the two the port raises. -/

namespace Sys2Proof.Machine

/-! ## The column "Legal when `PHASE` is" -/

theorem mem_runningPhases {p : Phase} : p ∈ runningPhases ↔ p.running = true := by
  cases p <;> decide

theorem mem_treePhases {p : Phase} : p ∈ [Phase.built, .extracted, .sized, .packed] ↔ p.hasTree = true := by
  cases p <;> decide

theorem mem_codePhases {p : Phase} : p ∈ [Phase.extracted, .sized, .packed] ↔ p.hasCodes = true := by
  cases p <;> decide

theorem mem_allPhases (p : Phase) : p ∈ runningPhases ++ [.fault] := by
  cases p <;> decide

/-- The phases the table lists for a command are those in which the model performs it. -/
theorem mem_legalPhases {i : Instr} {p : Phase} : p ∈ legalPhases i ↔ legalIn i p = true := by
  cases i
  case rdreg => exact iff_of_true (mem_allPhases p) rfl
  case rdnode => exact mem_treePhases
  case elut | rdlut => exact mem_codePhases
  case wrreg | wrfreq | count | build | extract | size | pack | genenc | compress => simp [legalPhases, legalIn]
  all_goals exact mem_runningPhases

/-- What may be performed in phase `FAULT` leaves the phase there. -/
theorem phaseAfter_fault {i : Instr} (h : legalIn i .fault = true) : phaseAfter i .fault = .fault := by
  obtain ⟨r, rfl⟩ := legalIn_fault h
  rfl

/-! ## Fault entry -/

/-- Fault entry changes the fault registers, `PHASE` and the response, and nothing else (60_exceptions.md R240). -/
theorem raise_faultOnly (s : State) (c : Cause) {info : Nat} (h : narrow s.cfg.bw info = info) :
    FaultOnly s (s.raise c info) c info :=
  ⟨⟨rfl, rfl, h, rfl, rfl⟩, ⟨inByte_congr rfl, outByte_congr rfl⟩, ⟨rfl, rfl, rfl⟩, ⟨rfl, rfl, rfl, rfl⟩,
    ⟨rfl, rfl⟩, rfl, rfl⟩

/-- The two causes the port's checks raise; a command's own rule raises the others (30_encoding.md R103). -/
def Cause.ofPort : Cause → Bool
  | .illegalCmd | .seqError => true
  | .emptyInput | .tableSize | .encOverflow | .doubleMark | .outOverrun | .outUnderrun | .lookupEmpty => false

/-- A command has ended in a fault of its own. -/
structure OwnFault (t : State) : Prop where
  phase : t.phase = .fault
  resp : t.resp = Response.failed
  cause : ∃ c, t.fcode = some c ∧ c.ofPort = false

theorem ownFault_raise (s : State) {c : Cause} (info : Nat) (h : c.ofPort = false) : OwnFault (s.raise c info) :=
  ⟨rfl, rfl, c, rfl, h⟩

theorem ownFault_packFault (s : State) {c : Cause} (info : Nat) (h : c.ofPort = false) :
    OwnFault (s.packFault c info) :=
  ownFault_raise _ info h

theorem OwnFault.fcode_ne {t : State} (h : OwnFault t) {c : Cause} (hc : c.ofPort = true) : t.fcode ≠ some c := by
  obtain ⟨c', hc', hown⟩ := h.cause
  rw [hc']
  rintro ⟨⟩
  simp [hc] at hown

/-! ## How a command's own rule ends -/

/-- Success in phase `p` with `FCODE` at `fc`, or a fault of the command's own. -/
def Completes (p : Phase) (fc : Option Cause) (t : State) : Prop := (t.phase = p ∧ t.fcode = fc) ∨ OwnFault t

/-- `Completes`, for a stage. -/
inductive Stage.Completes (p : Phase) (fc : Option Cause) : Stage → Prop
  | done {t : State} {data : Nat} (hphase : t.phase = p) (hfcode : t.fcode = fc) : Completes p fc (.done t data)
  | raised {t : State} (h : OwnFault t) : Completes p fc (.raised t)

theorem Stage.Completes.finish {p : Phase} {fc : Option Cause} {r : Stage} (h : r.Completes p fc) :
    Machine.Completes p fc r.finish := by
  cases h with
  | done hphase hfcode => exact .inl ⟨hphase, hfcode⟩
  | raised h => exact .inr h

theorem Stage.Completes.andThen {p q : Phase} {fc : Option Cause} {r : Stage} {next : State → Stage}
    (h : r.Completes p fc) (hnext : ∀ t, (next t).Completes q t.fcode) : (r.andThen next).Completes q fc := by
  cases h with
  | done _ hfcode => exact hfcode ▸ hnext _
  | raised h => exact .raised h

theorem countStage_completes (s : State) : s.countStage.Completes .counted s.fcode := by
  rw [State.countStage]
  split
  · exact .raised (ownFault_raise _ _ rfl)
  · exact .done rfl rfl

/-- How the stage ends does not depend on `TIEBREAK`. -/
theorem buildWith_completes (tb : Tiebreak) (s : State) : (s.buildWith tb).Completes .built s.fcode := by
  unfold State.buildWith
  cases buildTree tb s.cfg.ncw s.freq with
  | marked a => exact .done rfl rfl
  | twice a r => exact .raised (ownFault_raise _ _ rfl)

theorem buildStage_completes (s : State) : s.buildStage.Completes .built s.fcode := buildWith_completes indexAsc s

theorem extractFrom_completes (syms : List Symbol) (s : State) :
    (extractFrom syms s).Completes .extracted s.fcode := by
  induction syms generalizing s with
  | nil => exact .done rfl rfl
  | cons sym rest ih =>
    rw [extractFrom]
    split
    next et _ => exact ih { s with et := et, lut := s.lut.set sym (encReverse et) }
    next => exact .raised (ownFault_raise _ _ rfl)

theorem extractStage_completes (s : State) : s.extractStage.Completes .extracted s.fcode :=
  extractFrom_completes _ s

theorem sizeStage_completes (s : State) : s.sizeStage.Completes .sized s.fcode := .done rfl rfl

/-- The scan of `PACK` fails only with causes of its own. -/
theorem packScan_cause {s : State} {n j : Nat} {image : List Bool} {c : Cause} {info : Nat}
    (h : s.packScan n j image = .failed c info) : c.ofPort = false := by
  induction n generalizing j image with
  | zero =>
    rw [State.packScan] at h
    split at h <;> cases h
    rfl
  | succ n ih =>
    simp only [State.packScan] at h
    split at h
    · cases h; rfl
    · split at h
      · cases h; rfl
      · exact ih h

theorem packStage_completes (s : State) : s.packStage.Completes .packed s.fcode := by
  rw [State.packStage]
  split
  · exact .raised (ownFault_packFault _ _ rfl)
  · split
    next hscan => exact .raised (ownFault_packFault _ _ (packScan_cause hscan))
    next => exact .done rfl rfl

theorem genencStage_completes (s : State) : s.genencStage.Completes .sized s.fcode :=
  (((countStage_completes s).andThen buildStage_completes).andThen extractStage_completes).andThen
    sizeStage_completes

/-! ## Every command -/

/-- Every command is the four checks around a rule of its own, and where the table allows the command that rule
completes in the phase of the last column (10_state.md R31, 30_encoding.md R103). -/
theorem exec_eq_command (i : Instr) : ∃ own : State → State, (∀ s, exec i s = .next (s.command i own)) ∧
    ∀ s, legalIn i s.phase = true → Completes (phaseAfter i s.phase) s.fcode (own s) := by
  cases i
  case count => exact ⟨_, fun _ => rfl, fun s _ => (countStage_completes s).finish⟩
  case build => exact ⟨_, fun _ => rfl, fun s _ => (buildStage_completes s).finish⟩
  case extract => exact ⟨_, fun _ => rfl, fun s _ => (extractStage_completes s).finish⟩
  case size => exact ⟨_, fun _ => rfl, fun s _ => (sizeStage_completes s).finish⟩
  case pack => exact ⟨_, fun _ => rfl, fun s _ => (packStage_completes s).finish⟩
  case genenc => exact ⟨_, fun _ => rfl, fun s _ => (genencStage_completes s).finish⟩
  case compress =>
    exact ⟨_, fun _ => rfl, fun s _ => ((genencStage_completes s).andThen packStage_completes).finish⟩
  case epush b =>
    refine ⟨_, fun _ => rfl, fun s _ => ?_⟩
    split
    · exact .inl ⟨rfl, rfl⟩
    · exact .inr (ownFault_raise _ _ rfl)
  case rdnode n =>
    refine ⟨_, fun _ => rfl, fun s _ => ?_⟩
    split <;> exact .inl ⟨rfl, rfl⟩
  case wrreg | wrfreq => exact ⟨_, fun _ => rfl, fun s h => .inl ⟨of_decide_eq_true h, rfl⟩⟩
  all_goals exact ⟨_, fun _ => rfl, fun s _ => .inl ⟨rfl, rfl⟩⟩

/-- Settles O42: each of the three clauses is one outcome of the four checks, and in the first the command's own rule
completes. -/
theorem phaseTableOrdersTheCommands : Obligations.PhaseTableOrdersTheCommands := by
  intro i s hcfg hwf
  obtain ⟨own, hexec, hown⟩ := exec_eq_command i
  simp only [mem_legalPhases, Bool.not_eq_true, hexec]
  refine ⟨fun hlegal => ?_, fun hlegal hrun => ?_, fun hlegal hfault => ?_⟩
  · refine ⟨own s, by rw [command_own own hwf hlegal], ?_⟩
    rcases hown s hlegal with ⟨hphase, hfcode⟩ | hfaulted
    · exact ⟨fun hclean => by simp [hfcode, hclean], .inl hphase⟩
    · refine ⟨fun _ => ⟨hfaulted.fcode_ne rfl, hfaulted.fcode_ne rfl⟩, ?_⟩
      by_cases hrun : s.phase = .fault
      · rw [hrun] at hlegal ⊢
        exact .inl (hfaulted.phase.trans (phaseAfter_fault hlegal).symm)
      · exact .inr ⟨hrun, hfaulted.phase, hfaulted.resp⟩
  · exact ⟨_, by rw [command_seqError own hwf hlegal hrun], raise_faultOnly s _ (narrow_word hcfg _)⟩
  · rw [command_refused own hlegal hfault]
    rfl

end Sys2Proof.Machine
end

section
/-! The illegal words (30_encoding.md R101, 60_exceptions.md R236) and the write data (R93). A row of the opcode table
fixes the opcode and all but the low operand bits of the argument; the decoder refuses a word where its row's format or
its operands do. -/

namespace Sys2Proof.Machine

/-! ## The fields of a word and the rows of the opcode table -/

theorem word_eq_append (w : BitVec 32) : w = opField w ++ argField w :=
  ((BitVec.extractLsb'_append_extractLsb'_eq_extractLsb' (Nat.zero_add 24).symm).trans BitVec.extractLsb'_eq_self).symm

theorem word_ext {w w' : BitVec 32} (hop : opField w = opField w') (harg : argField w = argField w') : w = w' := by
  rw [word_eq_append w, hop, harg, ← word_eq_append]

/-- The low bits of the argument field are those of the word. -/
theorem extractLsb'_argField {n : Nat} (hn : n ≤ 24) (w : BitVec 32) :
    (argField w).extractLsb' 0 n = w.extractLsb' 0 n :=
  BitVec.extractLsb'_extractLsb'_of_le (by omega)

/-- Masking off the low `n` bits leaves nothing exactly where the bits above them are 0. -/
theorem and_allOnes_shiftLeft_eq_zero {w n len : Nat} (hlen : n + len = w) (x : BitVec w) :
    x &&& (BitVec.allOnes w <<< n) = 0#w ↔ x.extractLsb' n len = 0#len := by
  constructor <;> intro h <;> apply BitVec.eq_of_getLsbD_eq <;> intro k hk
  · have hbit := congrArg (·.getLsbD (n + k)) h
    simpa [hk, show n + k < w by omega, show k < w by omega] using hbit
  · by_cases hkn : k < n
    · simp [hkn]
    · have hbit := congrArg (·.getLsbD (k - n)) h
      have hnk : n + (k - n) = k := by omega
      simpa [hk, hkn, hnk, show k - n < len by omega, show k - n < w by omega] using hbit

/-- Every row fixes the opcode and has zeros below it. -/
theorem opcodeRows_fix_opcode :
    ∀ row ∈ opcodeRows, argField row.bits = 0 ∧ opField row.mask = BitVec.allOnes 8 := by decide

/-- An opcode has one row. -/
theorem opcodeRows_mask_unique :
    ∀ row ∈ opcodeRows, ∀ row' ∈ opcodeRows, opField row.bits = opField row'.bits → row.mask = row'.mask := by decide

/-- A row covers the words that have its opcode and zeros where its mask has ones (30_encoding.md R91). -/
theorem covers_row_iff {row : OpcodeRow} (hrow : row ∈ opcodeRows) (w : BitVec 32) :
    row.covers w = true ↔ opField w = opField row.bits ∧ argField w &&& argField row.mask = 0 := by
  obtain ⟨hbits, hmask⟩ := opcodeRows_fix_opcode row hrow
  have hop : opField (w &&& row.mask) = opField w := by
    rw [opField, BitVec.extractLsb'_and, ← opField, ← opField, hmask, BitVec.and_allOnes]
  have harg : argField (w &&& row.mask) = argField w &&& argField row.mask := BitVec.extractLsb'_and
  rw [OpcodeRow.covers, decide_eq_true_iff, ← hop, ← harg]
  constructor
  · intro h
    rw [h]
    exact ⟨rfl, hbits⟩
  · rintro ⟨h, h'⟩
    exact word_ext h (h'.trans hbits.symm)

/-- The table has a row with opcode `op` that leaves the low `n` bits of the argument to an operand. -/
abbrev RowWithOperand (op n : Nat) : Prop :=
  ∃ row ∈ opcodeRows, (opField row.bits).toNat = op ∧ argField row.mask = BitVec.allOnes 24 <<< n

/-- No row covers a word of an assigned opcode exactly where a bit above the operand is 1 (30_encoding.md R101 b). -/
theorem uncovered_iff_reservedBits {w : BitVec 32} {op n len : Nat} (hop : (opField w).toNat = op)
    (hrow : RowWithOperand op n) (hlen : n + len = 24) :
    (∀ row ∈ opcodeRows, row.covers w = false) ↔ (argField w).extractLsb' n len ≠ 0 := by
  obtain ⟨row, hmem, hrowOp, hmask⟩ := hrow
  have hopRow : opField w = opField row.bits := BitVec.eq_of_toNat_eq (hop.trans hrowOp.symm)
  have hreserved : row.covers w = true ↔ (argField w).extractLsb' n len = 0 := by
    rw [covers_row_iff hmem, hmask]
    exact (and_iff_right hopRow).trans (and_allOnes_shiftLeft_eq_zero hlen _)
  rw [ne_eq, ← hreserved]
  simp only [← Bool.not_eq_true]
  refine ⟨fun h => h row hmem, fun h row' hmem' => mt (fun hcovers => ?_) h⟩
  obtain ⟨hopRow', harg⟩ := (covers_row_iff hmem' w).1 hcovers
  rw [opcodeRows_mask_unique row' hmem' row hmem (hopRow'.symm.trans hopRow)] at harg
  exact (covers_row_iff hmem w).2 ⟨hopRow, harg⟩

theorem opcodes_eq : (opcodeRows.map fun row => (opField row.bits).toNat) =
    [0x00, 0x01, 0x02, 0x03, 0x10, 0x11, 0x12, 0x13, 0x14, 0x15, 0x16, 0x17, 0x18, 0x20, 0x21, 0x22, 0x23,
      0x30, 0x31, 0x32, 0x33, 0x34, 0x38, 0x39] := by decide

/-- No row covers a word whose opcode is none of the 24 (30_encoding.md R101 a). -/
theorem uncovered_of_unassigned {w : BitVec 32}
    (hop : (opField w).toNat ∉ opcodeRows.map fun row => (opField row.bits).toNat) :
    ∀ row ∈ opcodeRows, row.covers w = false := by
  intro row hmem
  rw [← Bool.not_eq_true, covers_row_iff hmem]
  rintro ⟨h, -⟩
  exact hop (List.mem_map.2 ⟨row, hmem, by rw [h]⟩)

/-- The cases (c) to (f) of 30_encoding.md R101, for a word of opcode `op` with argument `arg`. -/
def IllegalOperand (cw op : Nat) (arg : BitVec 24) (wdata : Nat) : Prop :=
  (op = 0x22 ∧ 511 ≤ (arg.extractLsb' 0 9).toNat) ∨ (op = 0x02 ∧ 8 ≤ (arg.extractLsb' 0 8).toNat) ∨
  (op = 0x03 ∧ (arg.extractLsb' 0 8).toNat ≠ 4) ∨ ((op = 0x03 ∨ op = 0x20) ∧ 2 ^ cw ≤ wdata)

/-- Index 511 is the only 9-bit number that is not below 511. -/
theorem eq_511_iff (i : BitVec 9) : i = 511 ↔ 511 ≤ i.toNat := by bv_omega

/-- For an opcode of the table, a word is illegal by its reserved bits or by its operands (30_encoding.md R101). -/
theorem illegalWord_iff {cw op n len : Nat} {c : Command} (hop : (opField c.word).toNat = op)
    (hrow : RowWithOperand op n) (hlen : n + len = 24) :
    IllegalWord cw c ↔ (argField c.word).extractLsb' n len ≠ 0 ∨ IllegalOperand cw op (argField c.word) c.wdata := by
  have hopcode (k : BitVec 8) : c.word.extractLsb' 24 8 = k ↔ op = k.toNat := by
    rw [← hop, ← opField, BitVec.toNat_eq]
  rw [IllegalWord, uncovered_iff_reservedBits hop hrow hlen, IllegalOperand]
  simp only [hopcode, eq_511_iff, extractLsb'_argField (show 8 ≤ 24 by decide),
    extractLsb'_argField (show 9 ≤ 24 by decide), BitVec.reduceToNat]

/-- Where no operand of the opcode can be illegal, only the reserved bits are left. -/
theorem illegalWord_iff_reservedBits {cw op n len : Nat} {c : Command} (hop : (opField c.word).toNat = op)
    (hrow : RowWithOperand op n) (hlen : n + len = 24) (hany : op ∉ [0x02, 0x03, 0x20, 0x22]) :
    IllegalWord cw c ↔ (argField c.word).extractLsb' n len ≠ 0 := by
  have hlegal : ¬ IllegalOperand cw op (argField c.word) c.wdata := by
    simp only [List.mem_cons, List.not_mem_nil, or_false, not_or] at hany
    simp [IllegalOperand, hany]
  rw [illegalWord_iff hop hrow hlen, or_iff_left hlegal]

/-! ## What each format refuses (30_encoding.md R95 to R99) -/

/-- A check before the rest of the decoding refuses where it fails or the rest refuses. -/
theorem check_error_iff {p : Prop} [Decidable p] {r : Except DecodeError Instr} {e : DecodeError} :
    (∃ e', (if p then r else .error e) = .error e') ↔ ¬ p ∨ ∃ e', r = .error e' := by
  by_cases h : p <;> simp [h]

theorem not_ok_error {i : Instr} : ¬ ∃ e : DecodeError, Except.ok i = .error e := by
  rintro ⟨e, ⟨⟩⟩

theorem formatN_error {arg : BitVec 24} {i : Instr} :
    (∃ e, formatN arg i = .error e) ↔ arg.extractLsb' 0 24 ≠ 0 := by
  rw [formatN, check_error_iff, or_iff_left not_ok_error, BitVec.extractLsb'_eq_self]

theorem formatB_error {arg : BitVec 24} {f : Bool → Instr} :
    (∃ e, formatB arg f = .error e) ↔ arg.extractLsb' 1 23 ≠ 0 := by
  rw [formatB, check_error_iff, or_iff_left not_ok_error]

theorem formatS_error {arg : BitVec 24} {f : BitVec 8 → Except DecodeError Instr} :
    (∃ e, formatS arg f = .error e) ↔
      arg.extractLsb' 8 16 ≠ 0 ∨ ∃ e, f (arg.extractLsb' 0 8) = .error e := by
  rw [formatS, check_error_iff]

theorem formatI_error {arg : BitVec 24} {f : BitVec 9 → Instr} :
    (∃ e, formatI arg f = .error e) ↔ arg.extractLsb' 9 15 ≠ 0 ∨ 511 ≤ (arg.extractLsb' 0 9).toNat := by
  rw [formatI, check_error_iff, check_error_iff, or_iff_left not_ok_error, Nat.not_lt]

theorem formatR_error {arg : BitVec 24} {f : BitVec 8 → Except DecodeError Instr} :
    (∃ e, formatR arg f = .error e) ↔ arg.extractLsb' 8 16 ≠ 0 ∨
      8 ≤ (arg.extractLsb' 0 8).toNat ∨ ∃ e, f (arg.extractLsb' 0 8) = .error e := by
  rw [formatR, check_error_iff, check_error_iff, Nat.not_lt]

theorem fitWdata_error {cw wdata : Nat} {i : Instr} :
    (∃ e, fitWdata cw wdata i = .error e) ↔ 2 ^ cw ≤ wdata := by
  rw [fitWdata, check_error_iff, or_iff_left not_ok_error, Nat.not_lt]

/-! ## The decoder and the port -/

/-- The decoder refuses exactly the illegal words (30_encoding.md R101): one case per opcode, those of one format
together, and the opcodes of which an operand or the write data can be illegal by themselves. -/
theorem decode_error_iff (cw : Nat) (c : Command) : (∃ e, decode cw c = .error e) ↔ IllegalWord cw c := by
  simp only [decode]
  split
  case h_3 h => -- RDREG
    rw [formatR_error, or_iff_left not_ok_error, illegalWord_iff h (n := 8) (len := 16) (by decide) rfl]
    simp [IllegalOperand]
  case h_4 h => -- WRREG
    rw [formatR_error, check_error_iff, fitWdata_error, illegalWord_iff h (n := 8) (len := 16) (by decide) rfl]
    refine or_congr_right ((or_iff_right_of_imp fun hbeyond => .inl (by omega)).trans ?_)
    simp [IllegalOperand]
  case h_14 h => -- WRFREQ
    rw [formatS_error, fitWdata_error, illegalWord_iff h (n := 8) (len := 16) (by decide) rfl]
    simp [IllegalOperand]
  case h_16 h => -- RDNODE
    rw [formatI_error, illegalWord_iff h (n := 9) (len := 15) (by decide) rfl]
    simp [IllegalOperand]
  case h_6 h => -- EPUSH
    exact formatB_error.trans (illegalWord_iff_reservedBits h (by decide) rfl (by decide)).symm
  case h_12 h | h_15 h | h_17 h => -- the other commands of format S
    rw [formatS_error, or_iff_left not_ok_error]
    exact (illegalWord_iff_reservedBits h (by decide) rfl (by decide)).symm
  case h_25 => -- no opcode of the table
    refine iff_of_true ⟨_, rfl⟩ (.inl (uncovered_of_unassigned ?_))
    simp_all [opcodes_eq]
  all_goals -- format N
    rename_i h
    exact formatN_error.trans (illegalWord_iff_reservedBits h (by decide) rfl (by decide)).symm

/-- Only `WRREG` and `WRFREQ` carry write data (30_encoding.md R93). -/
theorem decode_wdata_irrelevant {w : BitVec 32} (cw d d' : Nat) (hwrreg : opField w ≠ 0x03)
    (hwrfreq : opField w ≠ 0x20) : decode cw ⟨w, d⟩ = decode cw ⟨w, d'⟩ := by
  simp only [decode]
  split
  case h_4 h => exact absurd (BitVec.eq_of_toNat_eq h) hwrreg
  case h_14 h => exact absurd (BitVec.eq_of_toNat_eq h) hwrfreq
  all_goals rfl

/-- An illegal word in a running phase takes `ILLEGAL_CMD` (30_encoding.md R103 check 2). -/
theorem process_error {s : State} {c : Command} {e : DecodeError} (h : decode s.cfg.cw c = .error e)
    (hrun : s.phase ≠ .fault) : s.process c = .next (s.raise .illegalCmd c.word.toNat) := by
  rw [State.process, h, State.illegalWord, if_neg hrun]

/-- A step with a command pending processes it (30_encoding.md R90). -/
theorem step_issue {s : State} {c : Command} {rest : List HostAct} (h : s.host = .issue c :: rest) :
    step s = { s with host := rest }.process c := by
  simp only [step, h, State.taken, List.tail_cons]

/-- What a command does depends on its write data only through the decoder. -/
theorem process_congr {s : State} {w : BitVec 32} {d d' : Nat}
    (h : decode s.cfg.cw ⟨w, d⟩ = decode s.cfg.cw ⟨w, d'⟩) : s.process ⟨w, d⟩ = s.process ⟨w, d'⟩ := by
  simp only [State.process, h]

/-- Settles O41: the decoder refuses the illegal words, and the port raises the fault for what the decoder refuses. -/
theorem illegalWordsTakeIllegalCmd : Obligations.IllegalWordsTakeIllegalCmd := by
  refine ⟨decode_error_iff, fun s c rest hcfg hhost hillegal hrun => ?_⟩
  obtain ⟨e, he⟩ := (decode_error_iff s.cfg.cw c).2 hillegal
  rw [step_issue hhost, process_error (s := { s with host := rest }) he hrun]
  exact ⟨_, rfl, raise_faultOnly _ _ (narrow_word hcfg _)⟩

/-- Settles O56: the decoder reads the same command whatever the write data. -/
theorem writeDataIsIgnoredByOtherCommands : Obligations.WriteDataIsIgnoredByOtherCommands := by
  intro s w d d' rest hwrreg hwrfreq
  rw [step_issue rfl, step_issue rfl, process_congr (decode_wdata_irrelevant _ d d' hwrreg hwrfreq)]

end Sys2Proof.Machine
end

section
/-! The three ways a command ends at the port's checks, for all commands at once: performed, out of phase, refused in
`FAULT` (30_encoding.md R103, 60_exceptions.md R237, R242), and the frame of a command that writes the response and the
Encoding registers only. -/

namespace Sys2Proof.Machine

/-! ## The checks -/

theorem running_of_ne_fault {p : Phase} (h : p ≠ .fault) : p.running = true := by
  cases p
  case fault => exact absurd rfl h
  all_goals rfl

/-- A command that is legal in every running phase does there what its own rule says (30_encoding.md R103). -/
theorem command_running {s : State} {i : Instr} (own : State → State) (hw : i.wellFormed s.cfg.cw = true)
    (hlegal : legalIn i = Phase.running) (hrun : s.phase ≠ .fault) : s.command i own = own s :=
  command_own own hw (by rw [hlegal, running_of_ne_fault hrun])

/-- A command the table does not allow in phase `FAULT` is refused there (60_exceptions.md R242). -/
theorem refusedInFault {i : Instr} (h : legalIn i .fault = false) : RefusedInFault i := by
  intro s hfault
  obtain ⟨own, hexec, -⟩ := exec_eq_command i
  rw [hexec, command_refused own (hfault ▸ h) hfault]
  rfl

/-- Every command takes `SEQ_ERROR` in the running phases the table does not list for it (60_exceptions.md R237). -/
theorem sequencedIn_legalPhases (i : Instr) : SequencedIn i (legalPhases i) := by
  intro s hcfg hwf hrun hphase
  obtain ⟨own, hexec, -⟩ := exec_eq_command i
  rw [mem_legalPhases, Bool.not_eq_true] at hphase
  rw [hexec, command_seqError own hwf hphase hrun]
  exact ⟨_, rfl, raise_faultOnly s _ (narrow_word hcfg _)⟩

/-! ## The frame -/

/-- Everything but the response, `EA` and `EB` as before. -/
def SameButEncRegs (s t : State) : Prop :=
  t.phase = s.phase ∧ SameMemory s t ∧ SameFaultRegs s t ∧ SameHostRegs s t ∧ SameTables s t ∧ SameHost s t

theorem sameButEncRegs_respond (s : State) (ea eb : Encoding) (r : Response) :
    SameButEncRegs s ({ s with ea := ea, eb := eb }.respond r) :=
  ⟨rfl, ⟨inByte_congr rfl, outByte_congr rfl⟩, ⟨rfl, rfl, rfl⟩, ⟨rfl, rfl, rfl⟩, ⟨rfl, rfl, rfl, rfl⟩, rfl, rfl⟩

/-- A command that only answers changes no state. -/
theorem sameState_respond (s : State) (r : Response) : SameState s (s.respond r) := by
  obtain ⟨hphase, hmem, hfault, hhost, htables, hport⟩ := sameButEncRegs_respond s s.ea s.eb r
  exact ⟨hphase, hmem, hfault, hhost, htables, ⟨rfl, rfl⟩, hport⟩

end Sys2Proof.Machine
end

section
/-! The functions of the Encoding unit, as operations on the bit string (40_encoding_unit.md R120, R121). -/

namespace Sys2Proof.Machine

theorem boolData_eq_ite {b : Bool} {p : Prop} [Decidable p] (h : b = true ↔ p) :
    boolData b = if p then 1 else 0 := by
  simp only [boolData, h]

theorem encIsEmpty_iff (e : Encoding) : encIsEmpty e = true ↔ e.bits = [] := by
  rw [encIsEmpty, decide_eq_true_iff, ← List.length_eq_zero_iff, Encoding.length_bits, BitVec.toNat_eq]
  rfl

/-- Two Encodings are equal exactly when their bit strings are; the padding plays no part (40_encoding_unit.md R120). -/
theorem encEq_iff (x y : Encoding) : encEq x y = true ↔ x.bits = y.bits := by
  rw [encEq, Bool.and_eq_true, decide_eq_true_iff]
  constructor
  · rintro ⟨hlen, hbits⟩
    rw [Encoding.bits, Encoding.bits, ← hlen]
    exact List.map_congr_left fun i hi => eq_of_beq (List.all_eq_true.1 hbits i hi)
  · intro h
    have hlen : x.len = y.len := BitVec.eq_of_toNat_eq (by rw [← x.length_bits, h, y.length_bits])
    rw [Encoding.bits, Encoding.bits, ← hlen] at h
    exact ⟨hlen, List.all_eq_true.2 fun i hi => beq_of_eq (List.map_inj_left.1 h i hi)⟩

/-- Reversal reverses the bit string and leaves zero padding (40_encoding_unit.md R121). -/
theorem encReverse_spec (e : Encoding) : (encReverse e).bits = e.bits.reverse ∧ (encReverse e).padded = true := by
  have hlen : e.len.toNat < 256 := e.len.isLt
  exact Encoding.ofBits_spec (by rw [List.length_reverse, Encoding.length_bits]; omega)

theorem encReverse_len (e : Encoding) : (encReverse e).len = e.len := by
  apply BitVec.eq_of_toNat_eq
  rw [← Encoding.length_bits, (encReverse_spec e).1, List.length_reverse, Encoding.length_bits]

/-- The symbol of an operand byte that holds it. -/
theorem symbolIndex_ofNat (sym : Symbol) : symbolIndex (BitVec.ofNat 8 sym.val) = sym :=
  Fin.ext (Nat.mod_eq_of_lt sym.isLt)

end Sys2Proof.Machine
end

section
/-! The commands of the Encoding unit (40_encoding_unit.md R122 to R130): one equation per command for the phases that
perform it, then the obligations. -/

namespace Sys2Proof.Machine

/-! ## What each command does where it is performed -/

section
variable {s : State} (hrun : s.phase ≠ .fault)
include hrun

theorem exec_enew : exec .enew s = .next ({ s with ea := Encoding.empty }.respond (Response.done 0)) :=
  congrArg _ (command_running _ rfl rfl hrun)

theorem exec_epush {b : Bool} (hlen : s.ea.len ≠ 255) :
    exec (.epush b) s = .next ({ s with ea := s.ea.append b }.respond (Response.done (s.ea.append b).len.toNat)) :=
  congrArg _ ((command_running _ rfl rfl hrun).trans (by rw [encPush, if_neg hlen]))

theorem exec_epush_full {b : Bool} (hlen : s.ea.len = 255) :
    exec (.epush b) s = .next (s.raise .encOverflow 0x100) :=
  congrArg _ ((command_running _ rfl rfl hrun).trans (by rw [encPush, if_pos hlen]))

theorem exec_elen : exec .elen s = .next (s.respond (Response.done s.ea.len.toNat)) :=
  congrArg _ (command_running _ rfl rfl hrun)

theorem exec_eempty : exec .eempty s = .next (s.respond (Response.done (boolData (encIsEmpty s.ea)))) :=
  congrArg _ (command_running _ rfl rfl hrun)

theorem exec_erev : exec .erev s = .next ({ s with ea := encReverse s.ea }.respond (Response.done 0)) :=
  congrArg _ (command_running _ rfl rfl hrun)

theorem exec_eeq : exec .eeq s = .next (s.respond (Response.done (boolData (encEq s.ea s.eb)))) :=
  congrArg _ (command_running _ rfl rfl hrun)

theorem exec_exch : exec .exch s = .next ({ s with ea := s.eb, eb := s.ea }.respond (Response.done 0)) :=
  congrArg _ (command_running _ rfl rfl hrun)

theorem exec_erd : exec .erd s = .next (s.respond (encodingResponse s.ea)) :=
  congrArg _ (command_running _ rfl rfl hrun)

end

theorem exec_elut {s : State} (sym : Symbol) (hcodes : s.phase.hasCodes = true) :
    exec (.elut (BitVec.ofNat 8 sym.val)) s =
      .next ({ s with ea := s.lut[sym] }.respond (Response.done s.lut[sym].len.toNat)) :=
  congrArg _ ((command_own (i := .elut _) _ rfl hcodes).trans (by simp only [symbolIndex_ofNat]))

/-- The word of `ELUT s` is the opcode over the operand byte (30_encoding.md R97). -/
theorem word_elut (b : BitVec 8) : (encode (.elut b)).word = 0x17000000#32 ||| b.setWidth 32 := by
  have hopcode : BitVec.shiftLeftZeroExtend 0x17#8 24 = 0x17000000#32 := by decide
  rw [← hopcode, ← BitVec.setWidth_setWidth (v := 24) (by decide)]
  exact (BitVec.append_def _ _).trans (congrArg _ (BitVec.setWidth'_eq _))

/-! ## The obligations -/

/-- Settles O10: by the length of `EA`, one more bit or the fault entry. -/
theorem epushAppendsOneBit : Obligations.EpushAppendsOneBit := by
  refine ⟨by decide, by decide, fun s b hrun hlen => ?_, fun s b hcfg hrun hlen => ?_, fun b => refusedInFault rfl⟩
  · exact ⟨_, exec_epush hrun hlen, Encoding.bits_append b hlen, Encoding.len_append b hlen,
      congrArg Response.done (Encoding.len_append b hlen), Encoding.padded_append b hlen, rfl,
      sameButEncRegs_respond s _ _ _⟩
  · exact ⟨_, exec_epush_full hrun hlen, raise_faultOnly s _ (narrow_word hcfg 0x100#32)⟩

/-- Settles O12, through `encReverse_spec`. -/
theorem erevReversesTheBits : Obligations.ErevReversesTheBits := by
  refine ⟨by decide, fun s hrun => ?_, refusedInFault rfl⟩
  obtain ⟨hbits, hpadded⟩ := encReverse_spec s.ea
  exact ⟨_, exec_erev hrun, rfl, hbits, encReverse_len s.ea, hpadded, rfl, sameButEncRegs_respond s _ _ _⟩

/-- Settles O13, through `encEq_iff`. -/
theorem eeqComparesTheBitStrings : Obligations.EeqComparesTheBitStrings := by
  refine ⟨by decide, fun s hrun => ?_, refusedInFault rfl⟩
  exact ⟨_, exec_eeq hrun, sameState_respond s _, congrArg Response.done (boolData_eq_ite (encEq_iff _ _))⟩

/-- Settles O9: `ENEW` writes `EA` only. -/
theorem enewEmptiesEa : Obligations.EnewEmptiesEa :=
  ⟨by decide, fun s hrun => ⟨_, exec_enew hrun, rfl, rfl, rfl, sameButEncRegs_respond s _ _ _⟩, refusedInFault rfl⟩

/-- Settles O11: the length is the number of bits, and it is zero exactly for the empty bit string. -/
theorem elenAndEemptyReadTheLength : Obligations.ElenAndEemptyReadTheLength := by
  refine ⟨by decide, by decide, fun s hrun => ⟨?_, ?_⟩, refusedInFault rfl, refusedInFault rfl⟩
  · exact ⟨_, exec_elen hrun, sameState_respond s _, congrArg Response.done s.ea.length_bits.symm⟩
  · exact ⟨_, exec_eempty hrun, sameState_respond s _, congrArg Response.done (boolData_eq_ite (encIsEmpty_iff _))⟩

/-- Settles O14: `EXCH` writes `EA` and `EB` only. -/
theorem exchSwapsTheRegisters : Obligations.ExchSwapsTheRegisters :=
  ⟨by decide, fun s hrun => ⟨_, exec_exch hrun, rfl, rfl, rfl, sameButEncRegs_respond s _ _ _⟩, refusedInFault rfl⟩

/-- Settles O15: the phases of the table's row for `ELUT` are those that perform it; the others take `SEQ_ERROR`. -/
theorem elutCopiesACode : Obligations.ElutCopiesACode := by
  refine ⟨word_elut, fun s sym hphase => ?_, fun b => ⟨sequencedIn_legalPhases (.elut b), refusedInFault rfl⟩⟩
  exact ⟨_, exec_elut sym (mem_codePhases.1 hphase), rfl, rfl, rfl, sameButEncRegs_respond s _ _ _⟩

/-- Settles O16: a well-formed state holds zero padding in `EA`, which `padded_iff` reads bit by bit. -/
theorem erdReadsOutEa : Obligations.ErdReadsOutEa := by
  refine ⟨by decide, fun s hrun => ?_, refusedInFault rfl⟩
  exact ⟨_, exec_erd hrun, sameState_respond s _, rfl, fun hwf => s.ea.padded_iff.1 hwf.ea⟩

end Sys2Proof.Machine
end

section
/-! What the port's checks lead to, read at `exec` (30_encoding.md R103, 60_exceptions.md R236, R237, R242), and the
word of a command with a byte operand (30_encoding.md R97, R99). -/

namespace Sys2Proof.Machine

/-- A legal word out of phase takes `SEQ_ERROR`, whatever the command. -/
theorem exec_seqError {i : Instr} {s : State} (hwf : i.wellFormed s.cfg.cw = true) (hlegal : legalIn i s.phase = false)
    (hrun : s.phase ≠ .fault) : exec i s = .next (s.raise .seqError i.word.toNat) := by
  obtain ⟨own, hexec, -⟩ := exec_eq_command i
  rw [hexec, command_seqError own hwf hlegal hrun]

/-- A command with an illegal operand takes `ILLEGAL_CMD` in a running phase. -/
theorem exec_illegalCmd {i : Instr} {s : State} (hcfg : s.cfg.legal = true) (hwf : i.wellFormed s.cfg.cw = false)
    (hrun : s.phase ≠ .fault) : ∃ t, exec i s = .next t ∧ FaultOnly s t .illegalCmd i.word.toNat := by
  obtain ⟨own, hexec, -⟩ := exec_eq_command i
  rw [hexec, command_illegal own hwf hrun]
  exact ⟨_, rfl, raise_faultOnly s _ (narrow_word hcfg _)⟩

/-- A command with an illegal operand is refused in phase `FAULT`, `RDREG` too: no fault is taken there. -/
theorem exec_illegal_refused {i : Instr} {s : State} (hwf : i.wellFormed s.cfg.cw = false)
    (hfault : s.phase = .fault) : exec i s = .next s.refuse := by
  obtain ⟨own, hexec, -⟩ := exec_eq_command i
  rw [hexec, State.command, hwf, if_neg Bool.false_ne_true, State.illegalWord, if_pos hfault]

/-- An opcode over a zero-extended operand byte is the opcode's bits with the byte put in. -/
theorem append_byte {op : BitVec 8} {bits : BitVec 32} (hop : op.shiftLeftZeroExtend 24 = bits) (b : BitVec 8) :
    op ++ b.setWidth 24 = bits ||| b.setWidth 32 := by
  rw [← hop, ← BitVec.setWidth_setWidth (v := 24) (by decide)]
  exact (BitVec.append_def _ _).trans (congrArg _ (BitVec.setWidth'_eq _))

end Sys2Proof.Machine
end

section
/-! The registers as `RDREG` shows them (10_state.md R36 to R45). -/

namespace Sys2Proof.Machine

/-- A word put together reads as a number in two digits. -/
theorem toNat_append_eq_add {m n : Nat} (x : BitVec m) (y : BitVec n) :
    (x ++ y).toNat = x.toNat * 2 ^ n + y.toNat := by
  rw [BitVec.toNat_append, ← Nat.shiftLeft_add_eq_or_of_lt y.isLt, Nat.shiftLeft_eq]

/-- `STATUS` as a number: `PHASE`, `FPHASE` from bit 4 on, `FAULT` at bit 8 (10_state.md R37). -/
theorem State.status_toNat (s : State) :
    s.status.toNat = s.phase.code.toNat + 16 * s.fphase.code.toNat + if s.phase = .fault then 256 else 0 := by
  simp only [State.status, toNat_append_eq_add, BitVec.toNat_zero, BitVec.toNat_ofBool, State.faultFlag, Bool.toNat,
    Bool.cond_decide]
  split <;> omega

/-- `CONFIG` shows `CW` whole: a legal width fits its 8 bits (10_state.md R44). -/
theorem configRegister_eq {c : Config} (h : c.legal = true) : configRegister c = c.cw := by
  simp only [Config.legal, Bool.and_eq_true, decide_eq_true_eq] at h
  exact Nat.mod_eq_of_lt (by omega)

end Sys2Proof.Machine
end

section
/-! The host access commands (44_host_access.md R210 to R217): one equation per command for the phases that perform it,
then the obligations. -/

namespace Sys2Proof.Machine

/-! ## What each command does where it is performed -/

section
variable {s : State} (hrun : s.phase ≠ .fault)
include hrun

theorem exec_nop : exec .nop s = .next (s.respond (Response.done 0)) :=
  congrArg _ (command_running _ rfl rfl hrun)

theorem exec_clr : exec .clr s = .next (s.clear.respond (Response.done 0)) :=
  congrArg _ (command_running _ rfl rfl hrun)

theorem exec_rdfreq (sym : Symbol) :
    exec (.rdfreq (BitVec.ofNat 8 sym.val)) s = .next (s.respond (Response.done s.freq[sym])) :=
  congrArg _ ((command_running (i := .rdfreq _) _ rfl rfl hrun).trans (by simp only [symbolIndex_ofNat]))

end

theorem exec_rdlut {s : State} (sym : Symbol) (hcodes : s.phase.hasCodes = true) :
    exec (.rdlut (BitVec.ofNat 8 sym.val)) s = .next (s.respond (encodingResponse s.lut[sym])) :=
  congrArg _ ((command_own (i := .rdlut _) _ rfl hcodes).trans (by simp only [symbolIndex_ofNat]))

/-- `RDREG` of a register there is answers in every phase. -/
theorem exec_rdreg {s : State} {r : BitVec 8} (hr : r.toNat < 8) :
    exec (.rdreg r) s = .next (s.respond (Response.done (s.register r))) :=
  congrArg _ (command_own (i := .rdreg r) _ (decide_eq_true hr) rfl)

/-- `wdata` is stored whole where it fits `IN_LEN`. -/
theorem exec_wrreg {s : State} {wdata : Nat} (hidle : s.phase = .idle) (hfit : wdata < 2 ^ s.cfg.cw) :
    exec (.wrreg 4 wdata) s = .next ({ s with inLen := wdata }.respond (Response.done 0)) := by
  have hwf : (Instr.wrreg 4 wdata).wellFormed s.cfg.cw = true := decide_eq_true hfit
  have hnarrow : narrow s.cfg.cw wdata = wdata := Nat.mod_eq_of_lt hfit
  exact congrArg _ ((command_own _ hwf (decide_eq_true hidle)).trans (by rw [hnarrow]))

/-- Any other register, or `wdata` beyond `IN_LEN`, makes the word of `WRREG` illegal (30_encoding.md R101 e, f). -/
theorem wellFormed_wrreg_eq_false {cw wdata : Nat} {r : BitVec 8} (h : r ≠ 4 ∨ 2 ^ cw ≤ wdata) :
    (Instr.wrreg r wdata).wellFormed cw = false := by
  rcases h with hr | hwide
  · have hr : r.toNat ≠ 4 := fun heq => hr (BitVec.eq_of_toNat_eq heq)
    simp only [Instr.wellFormed, hr, decide_false, Bool.false_and]
  · simp only [Instr.wellFormed, Nat.not_lt.2 hwide, decide_false, Bool.and_false]

/-! ## What cannot be read after `CLR` -/

/-- After `CLR` nothing can be read that the phase table does not allow in phase 0 (44_host_access.md R211). -/
theorem unreadable_after_clear (s : State) (r : Response) {i : Instr} (hwf : i.wellFormed s.cfg.cw = true)
    (hlegal : legalIn i .idle = false) :
    ∃ u, exec i (s.clear.respond r) = .next u ∧ u.fcode = some .seqError :=
  ⟨_, exec_seqError hwf hlegal (by simp), rfl⟩

/-! ## The obligations -/

/-- Settles O1: `NOP` only answers. -/
theorem nopAnswersOkAndChangesNothing : Obligations.NopAnswersOkAndChangesNothing :=
  ⟨by decide, fun s hrun => ⟨_, exec_nop hrun, rfl, sameState_respond s _⟩, refusedInFault rfl⟩

/-- Settles O2: `State.clear` field by field, then the phase table in phase 0. -/
theorem clrBeginsANewCall : Obligations.ClrBeginsANewCall := by
  refine ⟨by decide, fun s hrun => ?_, refusedInFault rfl⟩
  refine ⟨_, exec_clr hrun, rfl, rfl, fun sym => ?_, rfl, rfl, rfl, rfl, rfl, ⟨rfl, rfl, rfl⟩,
    ⟨inByte_congr rfl, outByte_congr rfl⟩, ⟨rfl, rfl⟩, fun b n hn => ⟨?_, ?_, ?_⟩⟩
  · exact Vector.getElem_replicate sym.isLt
  · exact unreadable_after_clear s _ (i := .rdnode n) (decide_eq_true hn) rfl
  · exact unreadable_after_clear s _ (i := .rdlut b) rfl rfl
  · exact unreadable_after_clear s _ (i := .elut b) rfl rfl

/-- Settles O3: the register file read number by number; a number that names no register makes the word illegal. -/
theorem rdregReadsTheEightRegisters : Obligations.RdregReadsTheEightRegisters := by
  have hillegal {cw : Nat} {r : BitVec 8} (hr : 8 ≤ r.toNat) : (Instr.rdreg r).wellFormed cw = false :=
    decide_eq_false (Nat.not_lt.2 hr)
  refine ⟨append_byte (op := 0x02#8) (by decide), fun s r hcfg hr => ?_,
    fun s r hcfg hr hrun => exec_illegalCmd hcfg (hillegal hr) hrun,
    fun s r hr hfault => exec_illegal_refused (hillegal hr) hfault⟩
  refine ⟨_, exec_rdreg hr, sameState_respond s _, rfl, ?id, ?status, ?fcode, ?finfo, ?inLen, ?bitsReq, ?outLen,
    ?config⟩
  case status => rintro rfl; exact s.status_toNat
  case config => rintro rfl; exact configRegister_eq hcfg
  all_goals rintro rfl; rfl

/-- Settles O4: by the operands of the word, `IN_LEN` written or `ILLEGAL_CMD`; the other phases by the phase table. -/
theorem wrregWritesTheInputLength : Obligations.WrregWritesTheInputLength := by
  have hword : 0x03#8 ++ BitVec.setWidth 24 4#8 = 0x03000004#32 := by decide
  refine ⟨fun wdata => congrArg (Command.mk · wdata) hword, fun s wdata hidle hfit => ?_,
    fun s r wdata hcfg hrun hoperand => exec_illegalCmd hcfg (wellFormed_wrreg_eq_false hoperand) hrun,
    fun r wdata => ⟨sequencedIn_legalPhases (.wrreg r wdata), refusedInFault rfl⟩⟩
  exact ⟨_, exec_wrreg hidle hfit, rfl, rfl, hidle, rfl, rfl, ⟨inByte_congr rfl, outByte_congr rfl⟩, ⟨rfl, rfl, rfl⟩,
    ⟨rfl, rfl, rfl, rfl⟩, ⟨rfl, rfl⟩, rfl, rfl⟩

/-- Settles O6: `RDFREQ` only answers. -/
theorem rdfreqReadsOneCount : Obligations.RdfreqReadsOneCount :=
  ⟨append_byte (op := 0x21#8) (by decide),
    fun s sym hrun => ⟨_, exec_rdfreq hrun sym, rfl, sameState_respond s _⟩, fun _ => refusedInFault rfl⟩

/-- Settles O8: the phases of the table's row for `RDLUT` are those that perform it; the others take `SEQ_ERROR`. -/
theorem rdlutShowsACode : Obligations.RdlutShowsACode :=
  ⟨append_byte (op := 0x23#8) (by decide),
    fun s sym hphase => ⟨_, exec_rdlut sym (mem_codePhases.1 hphase), sameState_respond s _, rfl⟩,
    fun b => ⟨sequencedIn_legalPhases (.rdlut b), refusedInFault rfl⟩⟩

end Sys2Proof.Machine
end

section
/-! Phase `FAULT` (60_exceptions.md R242, R243): what the port answers there, and what a step can change. -/

namespace Sys2Proof.Machine

/-! ## The port in phase `FAULT` -/

/-- In phase `FAULT` every command but a legal `RDREG` is refused, an `RDREG` of no register among them. -/
theorem exec_refused {i : Instr} {s : State} (hfault : s.phase = .fault)
    (hother : ¬ ∃ r : BitVec 8, r.toNat < 8 ∧ i = .rdreg r) : exec i s = .next s.refuse := by
  by_cases hlegal : legalIn i .fault = true
  · obtain ⟨r, rfl⟩ := legalIn_fault hlegal
    have hr : ¬ r.toNat < 8 := fun hr => hother ⟨r, hr, rfl⟩
    exact exec_illegal_refused (decide_eq_false hr) hfault
  · exact refusedInFault (Bool.not_eq_true _ ▸ hlegal) s hfault

/-- A word that decodes to a legal `RDREG` is answered in every phase. -/
theorem process_rdreg {s : State} {c : Command} {r : BitVec 8} (hr : r.toNat < 8)
    (hdecode : decode s.cfg.cw c = .ok (.rdreg r)) :
    s.process c = .next (s.respond (Response.done (s.register r))) := by
  rw [State.process, hdecode]
  exact exec_rdreg hr

/-- In phase `FAULT` every other word is refused, whether the decoder reads a command in it or not. -/
theorem process_refused {s : State} {c : Command} (hfault : s.phase = .fault)
    (hother : ¬ ∃ r : BitVec 8, r.toNat < 8 ∧ decode s.cfg.cw c = .ok (.rdreg r)) :
    s.process c = .next s.refuse := by
  rw [State.process]
  cases hdecode : decode s.cfg.cw c with
  | error e => exact congrArg _ (if_pos hfault)
  | ok i =>
    refine exec_refused hfault fun ⟨r, hr, hi⟩ => hother ⟨r, hr, ?_⟩
    rw [hdecode, hi]

/-- Whatever the word, in phase `FAULT` a command changes the response only. -/
theorem process_fault {s : State} (c : Command) (hfault : s.phase = .fault) :
    ∃ r : Response, s.process c = .next (s.respond r) := by
  by_cases hrdreg : ∃ r : BitVec 8, r.toNat < 8 ∧ decode s.cfg.cw c = .ok (.rdreg r)
  · obtain ⟨r, hr, hdecode⟩ := hrdreg
    exact ⟨_, process_rdreg hr hdecode⟩
  · exact ⟨_, process_refused hfault hrdreg⟩

/-- Settles O44: a step takes the pending word to the port, which answers a legal `RDREG` and refuses the rest. -/
theorem faultPhaseRefusesAllButRdreg : Obligations.FaultPhaseRefusesAllButRdreg := by
  intro s c rest hfault hhost
  rw [step_issue hhost]
  refine ⟨fun r hr hdecode => ?_, fun hother => process_refused (s := { s with host := rest }) hfault hother⟩
  exact ⟨_, process_rdreg (s := { s with host := rest }) hr hdecode, rfl, sameState_respond _ _⟩

/-! ## What a step changes in phase `FAULT` -/

/-- A host write to `IN` that goes through changes the `IN` space only. -/
theorem hostWriteIn_next {s t : State} {a : Nat} {v : Byte} (h : s.hostWriteIn a v = .next t) :
    t = { s with inMem := Memory.write .input s.inMem a v } := by
  rw [State.hostWriteIn] at h
  split at h <;> cases h
  rfl

/-- A host write to `OUT` that goes through changes the `OUT` space only. -/
theorem hostWriteOut_next {s t : State} {a : Nat} {v : Byte} (h : s.hostWriteOut a v = .next t) :
    t = { s with outMem := Memory.write .output s.outMem a v } := by
  rw [State.hostWriteOut] at h
  split at h <;> cases h
  rfl

theorem step_reset {s : State} {rest : List HostAct} (h : s.host = .reset :: rest) :
    step s = .next s.taken.hostReset := by
  rw [step, h]

/-- Only reset leaves phase `FAULT` or loses the first fault (60_exceptions.md R243): a case per action of the host. -/
theorem step_keeps_fault {s t : State} (hfault : s.phase = .fault) (hstep : step s = .next t)
    (hreset : ∀ rest, s.host ≠ .reset :: rest) : t.phase = .fault ∧ SameFaultRegs s t := by
  rw [step] at hstep
  split at hstep
  next => -- waiting
    cases hstep
    exact ⟨hfault, rfl, rfl, rfl⟩
  next c _ _ => -- a command
    obtain ⟨r, hprocess⟩ := process_fault (s := s.taken) c hfault
    cases hprocess.symm.trans hstep
    exact ⟨hfault, rfl, rfl, rfl⟩
  next => -- a byte of `IN`
    cases hostWriteIn_next hstep
    exact ⟨hfault, rfl, rfl, rfl⟩
  next => -- a byte of `OUT`
    cases hostWriteOut_next hstep
    exact ⟨hfault, rfl, rfl, rfl⟩
  next rest hhost => exact absurd hhost (hreset rest)

/-- Settles O45: reset by its own equation, every other step by `step_keeps_fault`. -/
theorem onlyResetLeavesFault : Obligations.OnlyResetLeavesFault := by
  refine fun s t hfault hstep => ⟨fun rest hhost => ?_, step_keeps_fault hfault hstep⟩
  cases (step_reset hhost).symm.trans hstep
  exact ⟨rfl, rfl, rfl, rfl⟩

end Sys2Proof.Machine
end

section
/-! The empty input (60_exceptions.md R232): the stages that need the input fault on it before anything else, and
`BUILD`, `EXTRACT`, `SIZE` do not read `IN_LEN`. -/

namespace Sys2Proof.Machine

/-! ## The stages that need the input -/

theorem countStage_empty {s : State} (hempty : s.inLen = 0) : s.countStage = .raised (s.raise .emptyInput 0) :=
  if_pos hempty

/-- The fault of `COUNT` ends a composite command (43_count_size_pack.md R200). -/
theorem genencStage_empty {s : State} (hempty : s.inLen = 0) : s.genencStage = .raised (s.raise .emptyInput 0) := by
  simp only [State.genencStage, countStage_empty hempty, Stage.andThen_raised]

theorem packStage_empty {s : State} (hempty : s.inLen = 0) : s.packStage = .raised (s.packFault .emptyInput 0) :=
  if_pos hempty

theorem compressStage_empty {s : State} (hempty : s.inLen = 0) :
    s.genencStage.andThen State.packStage = .raised (s.raise .emptyInput 0) := by
  rw [genencStage_empty hempty, Stage.andThen_raised]

/-- A command that is a stage ends where the stage's fault leaves it. -/
theorem command_raised {s t : State} {i : Instr} {stage : State → Stage} (hw : i.wellFormed s.cfg.cw = true)
    (hlegal : legalIn i s.phase = true) (hraised : stage s = .raised t) :
    s.command i (fun s => (stage s).finish) = t := by
  rw [command_own _ hw hlegal, hraised, Stage.finish_raised]

/-- In phase 0 the commands that begin with `COUNT` take its fault on an empty input. -/
theorem exec_idle_empty {s : State} {i : Instr} (hidle : s.phase = .idle) (hempty : s.inLen = 0)
    (hi : i = .count ∨ i = .genenc ∨ i = .compress) : exec i s = .next (s.raise .emptyInput 0) := by
  have hlegal : decide (s.phase = .idle) = true := decide_eq_true hidle
  rcases hi with rfl | rfl | rfl
  · exact congrArg _ (command_raised (i := .count) rfl hlegal (countStage_empty hempty))
  · exact congrArg _ (command_raised (i := .genenc) rfl hlegal (genencStage_empty hempty))
  · exact congrArg _ (command_raised (i := .compress) rfl hlegal (compressStage_empty hempty))

theorem exec_pack_empty {s : State} (hsized : s.phase = .sized) (hempty : s.inLen = 0) :
    exec .pack s = .next (s.packFault .emptyInput 0) :=
  congrArg _ (command_raised (i := .pack) rfl (decide_eq_true hsized) (packStage_empty hempty))

/-- A fault of `PACK` leaves `OUT` from `ceil8(BITS_REQ)` on as it was (60_exceptions.md R241). -/
theorem packFault_outByte (s : State) (cause : Cause) (info : Nat) {a : Nat} (h : ceil8 s.bitsReq ≤ a) :
    (s.packFault cause info).outByte a = s.outByte a :=
  writeOutBytes_read_above _ h

/-! ## The stages that do not read `IN_LEN` -/

/-- The state with `n` in `IN_LEN`. -/
def State.setInLen (n : Nat) (s : State) : State := { s with inLen := n }

@[simp] theorem State.setInLen_cfg (n : Nat) (s : State) : (s.setInLen n).cfg = s.cfg := rfl
@[simp] theorem State.setInLen_phase (n : Nat) (s : State) : (s.setInLen n).phase = s.phase := rfl
@[simp] theorem State.setInLen_freq (n : Nat) (s : State) : (s.setInLen n).freq = s.freq := rfl
@[simp] theorem State.setInLen_arena (n : Nat) (s : State) : (s.setInLen n).arena = s.arena := rfl
@[simp] theorem State.setInLen_lut (n : Nat) (s : State) : (s.setInLen n).lut = s.lut := rfl

/-- A command's own rule does the same for every `IN_LEN`, which it keeps, and does not raise `EMPTY_INPUT`. -/
structure IgnoresInLen (own : State → State) : Prop where
  setInLen : ∀ (n : Nat) (s : State), own (s.setInLen n) = (own s).setInLen n
  fcode : ∀ s : State, s.fcode ≠ some .emptyInput → (own s).fcode ≠ some .emptyInput

/-- The four checks do not read `IN_LEN` either. -/
theorem IgnoresInLen.command {own : State → State} (h : IgnoresInLen own) (i : Instr) :
    IgnoresInLen (State.command · i own) where
  setInLen n s := by
    unfold State.command State.illegalWord
    rw [State.setInLen_cfg, State.setInLen_phase, h.setInLen]
    split_ifs <;> rfl
  fcode s hfcode := by
    rcases command_cases s i own with ⟨-, -, heq⟩ | ⟨-, heq⟩ | ⟨-, -, heq⟩ | ⟨-, -, -, heq⟩ <;> simp only [heq]
    · exact h.fcode s hfcode
    · exact hfcode
    · simp
    · simp

/-- How `BUILD` ends does not depend on `IN_LEN`, for every `TIEBREAK`. -/
theorem buildWith_ignoresInLen (tb : Tiebreak) : IgnoresInLen fun s => (s.buildWith tb).finish where
  setInLen n s := by
    unfold State.buildWith
    rw [State.setInLen_cfg, State.setInLen_freq]
    cases buildTree tb s.cfg.ncw s.freq with
    | marked a => rfl
    | twice a r => rfl
  fcode s hfcode := by
    unfold State.buildWith
    cases buildTree tb s.cfg.ncw s.freq with
    | marked a => exact hfcode
    | twice a r => simp

theorem buildStage_ignoresInLen : IgnoresInLen fun s => s.buildStage.finish := buildWith_ignoresInLen indexAsc

theorem extractFrom_ignoresInLen (syms : List Symbol) : IgnoresInLen fun s => (extractFrom syms s).finish where
  setInLen n s := by
    induction syms generalizing s with
    | nil => rfl
    | cons sym rest ih =>
      simp only [extractFrom, State.setInLen_arena]
      cases walkFrom s.arena.node sym with
      | root et => exact ih { s with et := et, lut := s.lut.set sym (encReverse et) }
      | overflow et => rfl
  fcode s hfcode := by
    induction syms generalizing s with
    | nil => exact hfcode
    | cons sym rest ih =>
      simp only [extractFrom]
      cases walkFrom s.arena.node sym with
      | root et => exact ih { s with et := et, lut := s.lut.set sym (encReverse et) } hfcode
      | overflow et => simp

theorem extractStage_ignoresInLen : IgnoresInLen fun s => s.extractStage.finish := extractFrom_ignoresInLen _

theorem sizeStage_ignoresInLen : IgnoresInLen fun s => s.sizeStage.finish where
  setInLen n s := by
    unfold State.sizeStage
    rw [State.setInLen_cfg, State.setInLen_freq, State.setInLen_lut]
    -- Named, so that no check of the two sides evaluates the sum over the 256 symbols.
    generalize sizeSum s.cfg.bw s.freq s.lut (List.finRange 256) 0 = t
    rfl
  fcode _ hfcode := hfcode

/-- `BUILD`, `EXTRACT` and `SIZE` are commands that do not read `IN_LEN`. -/
theorem exec_ignoresInLen {i : Instr} (hi : i = .build ∨ i = .extract ∨ i = .size) :
    ∃ f : State → State, (∀ s, exec i s = .next (f s)) ∧ IgnoresInLen f := by
  rcases hi with rfl | rfl | rfl
  · exact ⟨_, fun _ => rfl, buildStage_ignoresInLen.command .build⟩
  · exact ⟨_, fun _ => rfl, extractStage_ignoresInLen.command .extract⟩
  · exact ⟨_, fun _ => rfl, sizeStage_ignoresInLen.command .size⟩

/-- Settles O20: the first two clauses by the stages on an empty input, the third by `exec_ignoresInLen`. -/
theorem emptyInputFaults : Obligations.EmptyInputFaults := by
  refine ⟨fun s i hidle hempty hi => ?_, fun s hsized hempty => ?_, fun s n i hi => ?_⟩
  · exact ⟨_, exec_idle_empty hidle hempty hi, raise_faultOnly s _ (Nat.zero_mod _)⟩
  · exact ⟨_, exec_pack_empty hsized hempty, ⟨rfl, rfl, Nat.zero_mod _, rfl, rfl⟩, inByte_congr rfl,
      fun _ habove => packFault_outByte s _ _ habove, ⟨rfl, rfl, rfl⟩, ⟨rfl, rfl, rfl, rfl⟩, ⟨rfl, rfl⟩, rfl, rfl⟩
  · obtain ⟨f, hexec, hf⟩ := exec_ignoresInLen hi
    exact ⟨f s, hexec s, (hexec _).trans (congrArg _ (hf.setInLen n s)), hf.fcode s⟩

end Sys2Proof.Machine
end

section
/-! The decoder and the encoder are inverse to each other (30_encoding.md R91 to R102): one lemma per format for what it
reads from an argument, and one for the arguments it accepts. -/

namespace Sys2Proof.Machine

/-! ## The formats on an encoded operand -/

/-- The bits above an operand that was zero-extended are 0. -/
theorem extractLsb'_setWidth_high {n : Nat} (len : Nat) (x : BitVec n) :
    (x.setWidth 24).extractLsb' n len = 0 := by
  apply BitVec.eq_of_getLsbD_eq
  intro k hk
  simp

/-- The low bits of a zero-extended operand are the operand. -/
theorem extractLsb'_setWidth_low {n : Nat} (hn : n ≤ 24) (x : BitVec n) :
    (x.setWidth 24).extractLsb' 0 n = x := by
  apply BitVec.eq_of_getLsbD_eq
  intro k hk
  simp [hk, show k < 24 by omega]

theorem formatB_setWidth (b : Bool) (f : Bool → Instr) :
    formatB ((BitVec.ofBool b).setWidth 24) f = .ok (f b) := by
  rw [formatB, if_pos (extractLsb'_setWidth_high _ _)]
  cases b <;> rfl

theorem formatS_setWidth (s : BitVec 8) (f : BitVec 8 → Except DecodeError Instr) :
    formatS (s.setWidth 24) f = f s := by
  rw [formatS, if_pos (extractLsb'_setWidth_high _ s), extractLsb'_setWidth_low (by decide)]

theorem formatI_setWidth {n : BitVec 9} (hn : n.toNat < 511) (f : BitVec 9 → Instr) :
    formatI (n.setWidth 24) f = .ok (f n) := by
  rw [formatI, if_pos (extractLsb'_setWidth_high _ n), extractLsb'_setWidth_low (by decide), if_pos hn]

theorem formatR_setWidth {r : BitVec 8} (hr : r.toNat < 8) (f : BitVec 8 → Except DecodeError Instr) :
    formatR (r.setWidth 24) f = f r := by
  rw [formatR, if_pos (extractLsb'_setWidth_high _ r), extractLsb'_setWidth_low (by decide), if_pos hr]

/-- The two fields of an encoded command. -/
theorem encode_fields (i : Instr) : opField (encode i).word = i.opcode ∧ argField (encode i).word = i.argument :=
  Laws.fields_of_append i.opcode i.argument

/-- Settles O54: the opcode selects the command's row, and the row's format reads the operand back. -/
theorem everyCommandDecodesFromItsWord : Obligations.EveryCommandDecodesFromItsWord := by
  intro cw i hwf
  obtain ⟨hop, harg⟩ := encode_fields i
  unfold decode
  rw [hop, harg]
  cases i
  case rdreg r => exact formatR_setWidth (of_decide_eq_true hwf) _
  case wrreg r wdata =>
    simp only [Instr.wellFormed, Bool.and_eq_true, decide_eq_true_eq] at hwf
    obtain ⟨hr, hfit⟩ := hwf
    exact (formatR_setWidth (by omega) _).trans ((if_pos hr).trans (if_pos hfit))
  case epush b => exact formatB_setWidth b _
  case elut s | rdfreq s | rdlut s => exact formatS_setWidth s _
  case wrfreq s wdata => exact (formatS_setWidth s _).trans (if_pos (of_decide_eq_true hwf))
  case rdnode n => exact formatI_setWidth (of_decide_eq_true hwf) _
  all_goals rfl

/-! ## The arguments a format accepts -/

/-- An argument with zeros above the low `n` bits is those bits zero-extended. -/
theorem eq_setWidth_of_high {n len : Nat} {arg : BitVec 24} (hlen : n + len = 24)
    (h : arg.extractLsb' n len = 0) : arg = (arg.extractLsb' 0 n).setWidth 24 := by
  apply BitVec.eq_of_getLsbD_eq
  intro k hk
  by_cases hkn : k < n
  · simp [hkn, hk]
  · have hbit := congrArg (·.getLsbD (k - n)) h
    have hnk : n + (k - n) = k := by omega
    simpa [hkn, hnk, show k - n < len by omega] using hbit

/-- A check before the rest of the decoding accepts where it holds and the rest accepts. -/
theorem check_ok_iff {p : Prop} [Decidable p] {r : Except DecodeError Instr} {e : DecodeError} {i : Instr} :
    (if p then r else .error e) = .ok i ↔ p ∧ r = .ok i := by
  by_cases h : p <;> simp [h]

theorem formatN_ok {arg : BitVec 24} {i j : Instr} (h : formatN arg i = .ok j) : arg = 0 ∧ i = j := by
  obtain ⟨harg, ⟨⟩⟩ := check_ok_iff.1 h
  exact ⟨harg, rfl⟩

theorem formatB_ok {arg : BitVec 24} {f : Bool → Instr} {i : Instr} (h : formatB arg f = .ok i) :
    ∃ b, arg = (BitVec.ofBool b).setWidth 24 ∧ f b = i := by
  obtain ⟨harg, ⟨⟩⟩ := check_ok_iff.1 h
  refine ⟨_, (eq_setWidth_of_high (n := 1) rfl harg).trans (congrArg _ ?_), rfl⟩
  apply BitVec.eq_of_getLsbD_eq
  intro k hk
  obtain rfl : k = 0 := by omega
  simp

theorem formatS_ok {arg : BitVec 24} {f : BitVec 8 → Except DecodeError Instr} {i : Instr}
    (h : formatS arg f = .ok i) : ∃ s : BitVec 8, arg = s.setWidth 24 ∧ f s = .ok i := by
  obtain ⟨harg, hf⟩ := check_ok_iff.1 h
  exact ⟨_, eq_setWidth_of_high rfl harg, hf⟩

theorem formatI_ok {arg : BitVec 24} {f : BitVec 9 → Instr} {i : Instr} (h : formatI arg f = .ok i) :
    ∃ n : BitVec 9, arg = n.setWidth 24 ∧ n.toNat < 511 ∧ f n = i := by
  obtain ⟨harg, hf⟩ := check_ok_iff.1 h
  obtain ⟨hn, ⟨⟩⟩ := check_ok_iff.1 hf
  exact ⟨_, eq_setWidth_of_high rfl harg, hn, rfl⟩

theorem formatR_ok {arg : BitVec 24} {f : BitVec 8 → Except DecodeError Instr} {i : Instr}
    (h : formatR arg f = .ok i) : ∃ r : BitVec 8, arg = r.setWidth 24 ∧ r.toNat < 8 ∧ f r = .ok i := by
  obtain ⟨harg, hf⟩ := check_ok_iff.1 h
  obtain ⟨hr, hf⟩ := check_ok_iff.1 hf
  exact ⟨_, eq_setWidth_of_high rfl harg, hr, hf⟩

theorem fitWdata_ok {cw wdata : Nat} {i j : Instr} (h : fitWdata cw wdata i = .ok j) : wdata < 2 ^ cw ∧ i = j := by
  obtain ⟨hfit, ⟨⟩⟩ := check_ok_iff.1 h
  exact ⟨hfit, rfl⟩

/-- A word with the opcode and the argument of a command is the command's word. -/
theorem encode_word_eq {c : Command} {i : Instr} (hop : (opField c.word).toNat = i.opcode.toNat)
    (harg : argField c.word = i.argument) : (encode i).word = c.word := by
  obtain ⟨hop', harg'⟩ := encode_fields i
  exact word_ext (hop'.trans (BitVec.eq_of_toNat_eq hop.symm)) (harg'.trans harg.symm)

/-- Settles O55: a case per opcode, in which the row's format gives back the argument it read. -/
theorem decodedCommandEncodesToItsWord : Obligations.DecodedCommandEncodesToItsWord := by
  intro cw c i hdecode
  simp only [decode] at hdecode
  split at hdecode
  case h_3 hop => -- RDREG
    obtain ⟨r, harg, hr, ⟨⟩⟩ := formatR_ok hdecode
    exact ⟨decide_eq_true hr, encode_word_eq hop harg, by simp⟩
  case h_4 hop => -- WRREG
    obtain ⟨r, harg, hr, hf⟩ := formatR_ok hdecode
    obtain ⟨hr4, hf⟩ := check_ok_iff.1 hf
    obtain ⟨hfit, rfl⟩ := fitWdata_ok hf
    exact ⟨by simp [Instr.wellFormed, hr4, hfit], encode_word_eq hop harg, fun _ => rfl⟩
  case h_6 hop => -- EPUSH
    obtain ⟨b, harg, rfl⟩ := formatB_ok hdecode
    exact ⟨rfl, encode_word_eq hop harg, by simp⟩
  case h_14 hop => -- WRFREQ
    obtain ⟨s, harg, hf⟩ := formatS_ok hdecode
    obtain ⟨hfit, rfl⟩ := fitWdata_ok hf
    exact ⟨decide_eq_true hfit, encode_word_eq hop harg, fun _ => rfl⟩
  case h_16 hop => -- RDNODE
    obtain ⟨n, harg, hn, rfl⟩ := formatI_ok hdecode
    exact ⟨decide_eq_true hn, encode_word_eq hop harg, by simp⟩
  case h_12 hop | h_15 hop | h_17 hop => -- the other commands of format S
    obtain ⟨s, harg, ⟨⟩⟩ := formatS_ok hdecode
    exact ⟨rfl, encode_word_eq hop harg, by simp⟩
  case h_25 => cases hdecode
  all_goals -- format N
    rename_i hop
    obtain ⟨harg, rfl⟩ := formatN_ok hdecode
    exact ⟨rfl, encode_word_eq hop harg, by simp⟩

/-- Settles O53: each word is the encoding of its command, so it decodes by O54. -/
theorem wordsOfTheSpecDecode : Obligations.WordsOfTheSpecDecode := by
  have hdecode := everyCommandDecodesFromItsWord 64
  exact ⟨hdecode .nop rfl, hdecode (.rdreg 5) rfl, hdecode (.wrreg 4 9) (by decide), hdecode (.epush true) rfl,
    hdecode (.elut 98) rfl, hdecode (.wrfreq 97 4) (by decide), hdecode (.rdnode 510) (by decide), hdecode .pack rfl,
    hdecode .compress rfl⟩

end Sys2Proof.Machine
end

section
/-! `WRFREQ` and `RDNODE` (44_host_access.md R214, R216), and the laws of reversal and of the bit limit
(40_encoding_unit.md R131, R132). -/

namespace Sys2Proof.Machine

/-! ## The two commands where they are performed -/

/-- An opcode over a zero-extended operand is the opcode's bits with the operand put in. -/
theorem append_operand {n : Nat} (hn : n ≤ 24) {op : BitVec 8} {bits : BitVec 32}
    (hop : op.shiftLeftZeroExtend 24 = bits) (x : BitVec n) : op ++ x.setWidth 24 = bits ||| x.setWidth 32 := by
  have hword : x.setWidth 32 = (x.setWidth 24).setWidth 32 := by rw [BitVec.setWidth_setWidth (by omega)]
  rw [← hop, hword]
  exact (BitVec.append_def _ _).trans (congrArg _ (BitVec.setWidth'_eq _))

/-- `wdata` is stored whole where it fits a count. -/
theorem exec_wrfreq {s : State} {b : BitVec 8} {wdata : Nat} (hidle : s.phase = .idle) (hfit : wdata < 2 ^ s.cfg.cw) :
    exec (.wrfreq b wdata) s =
      .next ({ s with freq := s.freq.set (symbolIndex b) wdata }.respond (Response.done 0)) := by
  have hnarrow : narrow s.cfg.cw wdata = wdata := Nat.mod_eq_of_lt hfit
  exact congrArg _ ((command_own (i := .wrfreq b wdata) _ (decide_eq_true hfit) (decide_eq_true hidle)).trans
    (by rw [hnarrow]))

theorem nodeIndex?_ofNat (n : NodeIdx) : nodeIndex? (BitVec.ofNat 9 n.val) = some n := by
  have hval : (BitVec.ofNat 9 n.val).toNat = n.val := Nat.mod_eq_of_lt (by omega)
  simp only [nodeIndex?, hval, n.isLt, dite_true]

theorem exec_rdnode {s : State} (n : NodeIdx) (htree : s.phase.hasTree = true) :
    exec (.rdnode (BitVec.ofNat 9 n.val)) s = .next (s.respond (nodeResponse s.arena.node[n])) := by
  have hval : (BitVec.ofNat 9 n.val).toNat = n.val := Nat.mod_eq_of_lt (by omega)
  refine congrArg _ ((command_own (i := .rdnode _) _ (decide_eq_true (hval.trans_lt n.isLt)) htree).trans ?_)
  simp only [nodeIndex?_ofNat]

/-! ## The word in which `RDNODE` shows a node -/

/-- The low part of a word put together. -/
theorem extractLsb'_append_low {m n : Nat} (x : BitVec m) (y : BitVec n) : (x ++ y).extractLsb' 0 n = y := by
  apply BitVec.eq_of_getLsbD_eq
  intro k hk
  simp [BitVec.getLsbD_append, hk]

/-- What stands above the low part of a word put together. -/
theorem extractLsb'_append_high {m n len start : Nat} (x : BitVec m) (y : BitVec n) :
    (x ++ y).extractLsb' (n + start) len = x.extractLsb' start len := by
  apply BitVec.eq_of_getLsbD_eq
  intro k hk
  simp [BitVec.getLsbD_append, hk, show ¬ n + start + k < n by omega, show n + start + k - n = start + k by omega]

/-- `NONE` reads as 511, an index as itself (00_scope.md R8). -/
theorem indexBits_toNat (i : Option NodeIdx) : (indexBits i).toNat = (i.map Fin.val).getD 511 := by
  cases i with
  | none => rfl
  | some i => exact Nat.mod_eq_of_lt (by omega)

/-- The four fields of `aux` (44_host_access.md R216). -/
theorem nodeAux_fields (n : Node) :
    (nodeAux n).extractLsb' 0 9 = indexBits n.parent ∧ (nodeAux n).extractLsb' 9 9 = indexBits n.right ∧
    (nodeAux n).getLsbD 18 = n.bit ∧ (nodeAux n).extractLsb' 19 13 = 0 := by
  have hbit (b : Bool) : (BitVec.ofBool b).extractLsb' 0 1 = BitVec.ofBool b := BitVec.extractLsb'_eq_self
  refine ⟨extractLsb'_append_low _ _, ?_, ?_, ?_⟩
  · exact (extractLsb'_append_high (start := 0) _ (indexBits n.parent)).trans (extractLsb'_append_low _ _)
  · have hfield : (nodeAux n).extractLsb' 18 1 = BitVec.ofBool n.bit :=
      (extractLsb'_append_high (start := 9) _ (indexBits n.parent)).trans
        ((extractLsb'_append_high (start := 0) _ (indexBits n.right)).trans (extractLsb'_append_low _ _))
    have hget := congrArg (·.getLsbD 0) hfield
    simpa using hget
  · exact (extractLsb'_append_high (start := 10) _ (indexBits n.parent)).trans
      ((extractLsb'_append_high (start := 1) _ (indexBits n.right)).trans
        ((extractLsb'_append_high (start := 0) _ (BitVec.ofBool n.bit)).trans BitVec.extractLsb'_eq_self))

/-! ## The obligations -/

/-- Settles O5: by the write data, the count written or `ILLEGAL_CMD`; the other phases by the phase table. -/
theorem wrfreqWritesOneCount : Obligations.WrfreqWritesOneCount := by
  refine ⟨fun b wdata => congrArg (Command.mk · wdata) (append_byte (op := 0x20#8) (by decide) b),
    fun s b wdata hidle hfit => ?_,
    fun s b wdata hcfg hrun hwide => exec_illegalCmd hcfg (decide_eq_false (Nat.not_lt.2 hwide)) hrun,
    fun b wdata => ⟨sequencedIn_legalPhases (.wrfreq b wdata), refusedInFault rfl⟩⟩
  refine ⟨_, exec_wrfreq hidle hfit, rfl, fun sym => ?_, hidle, rfl, rfl, rfl, ⟨inByte_congr rfl, outByte_congr rfl⟩,
    ⟨rfl, rfl, rfl⟩, ⟨rfl, rfl, rfl⟩, ⟨rfl, rfl⟩, rfl, rfl⟩
  simp only [State.respond_freq, Fin.getElem_fin, Vector.getElem_set, symbolIndex, eq_comm]

/-- Settles O7: the fields of `aux` by `nodeAux_fields`; index 511 makes the word illegal. -/
theorem rdnodeShowsANode : Obligations.RdnodeShowsANode := by
  refine ⟨append_operand (by decide) (op := 0x22#8) (by decide), fun s n hphase => ?_,
    fun s hcfg hrun => exec_illegalCmd (i := .rdnode 511) hcfg rfl hrun,
    fun n => ⟨sequencedIn_legalPhases (.rdnode n), refusedInFault rfl⟩⟩
  obtain ⟨hparent, hright, hbit, hzero⟩ := nodeAux_fields s.arena.node[n]
  exact ⟨_, exec_rdnode n (mem_treePhases.1 hphase), sameState_respond s _, rfl, rfl, rfl,
    (congrArg BitVec.toNat hparent).trans (indexBits_toNat _), (congrArg BitVec.toNat hright).trans (indexBits_toNat _),
    hbit, hzero⟩

/-- Settles O17: on the bit strings it is `List.reverse_reverse`. -/
theorem reverseTwiceIsEqual : Obligations.ReverseTwiceIsEqual := by
  refine ⟨fun e => ⟨?_, encReverse_len e⟩, rfl⟩
  rw [encEq_iff, (encReverse_spec _).1, (encReverse_spec e).1, List.reverse_reverse]

/-- Pushes that all fit append the bits one by one (40_encoding_unit.md R121). -/
theorem foldlM_encPush_fits (bits : List Bool) (e : Encoding) (h : e.len.toNat + bits.length ≤ 255) :
    bits.foldlM encPush e = some (bits.foldl Encoding.append e) := by
  induction bits generalizing e with
  | nil => rfl
  | cons b bits ih =>
    rw [List.length_cons] at h
    rcases encPush_cases e b with ⟨hfull, -⟩ | ⟨hne, hpush, -⟩
    · rw [hfull] at h
      simp at h
    · rw [List.foldlM_cons, hpush]
      exact ih (e.append b) (by rw [Encoding.len_append b hne]; omega)

/-- Pushes beyond 255 bits overflow (40_encoding_unit.md R132). -/
theorem foldlM_encPush_overflows (bits : List Bool) (e : Encoding) (h : 256 ≤ e.len.toNat + bits.length) :
    bits.foldlM encPush e = none := by
  induction bits generalizing e with
  | nil => exact absurd e.len.isLt (by simpa using h)
  | cons b bits ih =>
    rw [List.length_cons] at h
    rcases encPush_cases e b with ⟨-, hpush⟩ | ⟨hne, hpush, -⟩
    · rw [List.foldlM_cons, hpush]
      rfl
    · rw [List.foldlM_cons, hpush]
      exact ih (e.append b) (by rw [Encoding.len_append b hne]; omega)

/-- Settles O18. -/
theorem pushesStopAt255Bits : Obligations.PushesStopAt255Bits := by
  refine ⟨fun bits hfit => ?_, fun bits hlong => foldlM_encPush_overflows bits _ (by omega), fun e b hlen => ?_⟩
  · obtain ⟨hbits, -⟩ := Encoding.ofBits_spec hfit
    refine ⟨_, foldlM_encPush_fits bits _ (by simpa [Encoding.empty] using hfit), hbits, ?_⟩
    rw [← Encoding.length_bits]
    exact congrArg List.length hbits
  · exact if_pos (BitVec.eq_of_toNat_eq hlen)

end Sys2Proof.Machine
end

section
/-! Reset, the host's writes and the port (10_state.md R49, 20_memory.md R65, 30_encoding.md R90, 70_reset_and_hazards.md
R260, R262). -/

namespace Sys2Proof.Machine

/-- Settles O50. -/
theorem stepRunsTheDecodedCommand : Obligations.StepRunsTheDecodedCommand := by
  refine ⟨fun s c rest i hhost hdecode => ?_, fun s hhost => by rw [step, hhost]⟩
  rw [step_issue hhost, State.process, hdecode]

/-- The value of `IN` at one address is what the host writes there, and nothing else changes (20_memory.md R65). -/
theorem inByte_write {s : State} (hwf : s.WF) (a k : Nat) (v : Byte) :
    State.inByte { s with inMem := Memory.write .input s.inMem a v } k = if k = a then v else s.inByte k := by
  rw [State.inByte, State.inByte]
  split
  next h => rw [h, Memory.read_write_same a v hwf.inMem, Option.getD_some]
  next h => rw [Memory.read_write_other v h]

/-- The same for `OUT` (20_memory.md R65). -/
theorem outByte_write {s : State} (hwf : s.WF) (a k : Nat) (v : Byte) :
    State.outByte { s with outMem := Memory.write .output s.outMem a v } k =
      if k = a then some v else s.outByte k := by
  rw [State.outByte, State.outByte]
  split
  next h => rw [h, Memory.read_write_same a v hwf.outMem]
  next h => rw [Memory.read_write_other v h]

theorem step_writeIn {s : State} {a : Nat} {v : Byte} {rest : List HostAct} (h : s.host = .writeIn a v :: rest) :
    step s = State.hostWriteIn { s with host := rest } a v := by
  simp only [step, h, State.taken, List.tail_cons]

theorem step_writeOut {s : State} {a : Nat} {v : Byte} {rest : List HostAct} (h : s.host = .writeOut a v :: rest) :
    step s = State.hostWriteOut { s with host := rest } a v := by
  simp only [step, h, State.taken, List.tail_cons]

/-- Settles O51: by the bound of the address, the write or the model's stop, in each of the two spaces. -/
theorem hostWritesOneByte : Obligations.HostWritesOneByte := by
  refine ⟨fun s a v rest hwf hhost => ⟨fun hin => ?_, fun hout => ?_⟩,
    fun s a v rest hwf hhost => ⟨fun hin => ?_, fun hout => ?_⟩⟩
  · exact ⟨_, (step_writeIn hhost).trans (if_pos hin), fun k => inByte_write hwf a k v⟩
  · exact (step_writeIn hhost).trans (if_neg (Nat.not_lt.2 hout))
  · exact ⟨_, (step_writeOut hhost).trans (if_pos hin), fun k => outByte_write hwf a k v⟩
  · exact (step_writeOut hhost).trans (if_neg (Nat.not_lt.2 hout))

/-- The values that reset gives (10_state.md R49), whatever the state was. -/
theorem resetValues_hostReset (s : State) : ResetValues s.hostReset :=
  ⟨rfl, rfl, rfl, rfl, rfl, rfl, rfl, rfl, fun sym => Vector.getElem_replicate sym.isLt, rfl, rfl, rfl,
    s.hostReset.status_toNat, rfl⟩

/-- Settles O52: the state after reset is a reset of itself. -/
theorem resetGivesTheSpecifiedValues : Obligations.ResetGivesTheSpecifiedValues := by
  refine ⟨resetValues_hostReset State.reset, fun s rest hhost => ?_⟩
  exact ⟨_, step_reset hhost, resetValues_hostReset _, rfl, congrArg List.tail hhost, inByte_congr rfl,
    outByte_congr rfl⟩

/-- After reset the invariants need only what reset leaves: a legal width, canonical memories, and the port's width. -/
theorem inv_hostReset {s : State} (hcfg : s.cfg.legal = true)
    (hin : Memory.wf .input (spaceSize s.cfg .input) s.inMem = true)
    (hout : Memory.wf .output (spaceSize s.cfg .output) s.outMem = true)
    (hport : ∀ c : Command, HostAct.issue c ∈ s.host → c.wdata < 2 ^ s.cfg.bw) : s.hostReset.Inv := by
  have hpos (w : Nat) : 0 < 2 ^ w := Nat.two_pow_pos w
  refine ⟨?wf, ?coherent, ?consistent⟩
  case wf =>
    constructor
    case config => exact hcfg
    case freq => exact fun sym => by simp [hpos]
    case counts => exact fun i => by simp [Arena.reset, Node.unmade, hpos]
    case lut => exact fun h => absurd h (by simp [Phase.hasCodes])
    case inMem => exact hin
    case outMem => exact hout
    case port => exact hport
    case respEnc | ea | eb => exact Encoding.padded_empty
    all_goals exact hpos _
  case coherent => constructor <;> simp
  case consistent => constructor <;> simp [Phase.hasTree, Phase.hasCodes, Phase.hasSize]

/-- Settles O59: the state after reset is a reset of itself. -/
theorem resetStateIsSound : Obligations.ResetStateIsSound :=
  inv_hostReset (s := State.reset) rfl rfl rfl (by simp [State.reset])

end Sys2Proof.Machine
end

section
/-! What every command leaves alone (10_state.md R21, R22, R29, R32; 20_memory.md R63, R64) and what it answers
(30_encoding.md R94). The port's checks are dealt with once, and each stage by what it writes. -/

namespace Sys2Proof.Machine

/-! ## The four checks -/

/-- A relation that every answer and every fault entry respects is respected by a command if it is by the command's
own rule. -/
theorem command_rel {R : State → State → Prop} {s : State} {i : Instr} {own : State → State}
    (hrefuse : R s s.refuse) (hraise : ∀ c n, R s (s.raise c n))
    (hown : i.wellFormed s.cfg.cw = true → legalIn i s.phase = true → R s (own s)) : R s (s.command i own) := by
  rcases command_cases s i own with ⟨hwf, hlegal, heq⟩ | ⟨-, heq⟩ | ⟨-, -, heq⟩ | ⟨-, -, -, heq⟩ <;> rw [heq]
  · exact hown hwf hlegal
  · exact hrefuse
  · exact hraise _ _
  · exact hraise _ _

/-- A command that is a stage ends with the stage's response where the stage is done. -/
theorem command_done {s t : State} {i : Instr} {stage : State → Stage} {data : Nat}
    (hw : i.wellFormed s.cfg.cw = true) (hlegal : legalIn i s.phase = true) (hdone : stage s = .done t data) :
    s.command i (fun s => (stage s).finish) = t.respond (Response.done data) := by
  rw [command_own _ hw hlegal, hdone, Stage.finish_done]

/-! ## How each stage ends -/

theorem countStage_nonempty {s : State} (h : s.inLen ≠ 0) :
    s.countStage = .done { s with freq := s.tally s.inLen 0 (Vector.replicate 256 0), phase := .counted } s.inLen :=
  if_neg h

/-- The state `BUILD` makes of an arena. -/
abbrev State.withTree (s : State) (a : Arena) : State := { s with arena := a, phase := .built }

theorem buildStage_marked {s : State} {a : Arena} (h : buildTree indexAsc s.cfg.ncw s.freq = .marked a) :
    s.buildStage = .done (s.withTree a) a.node[rootIdx].count := by
  unfold State.buildStage State.buildWith
  rw [h]

theorem buildStage_cases (s : State) :
    (∃ a, buildTree indexAsc s.cfg.ncw s.freq = .marked a ∧
      s.buildStage = .done (s.withTree a) a.node[rootIdx].count) ∨
    ∃ a r, s.buildStage = .raised ({ s with arena := a }.raise .doubleMark r) := by
  cases h : buildTree indexAsc s.cfg.ncw s.freq with
  | marked a => exact .inl ⟨a, rfl, buildStage_marked h⟩
  | twice a r =>
    refine .inr ⟨a, r.val, ?_⟩
    unfold State.buildStage State.buildWith
    rw [h]

/-- The state with other codes and another `ET`. -/
abbrev State.withCodes (s : State) (lut : Vector Encoding 256) (et : Encoding) : State := { s with lut := lut, et := et }

/-- Entry `sym` of the code table is `code_of(sym)` (42_lut_generator.md R171). -/
def CodeOf (node : Vector Node 511) (lut : Vector Encoding 256) (sym : Symbol) : Prop :=
  ∃ et, walkFrom node sym = .root et ∧ lut[sym] = encReverse et

/-- Everything `EXTRACT` over a list of symbols can do: it writes the code of each symbol of the list, or of those
before the first one whose walk overflows. -/
theorem extractFrom_cases (syms : List Symbol) (s : State) :
    (∃ lut et, extractFrom syms s = .done { s.withCodes lut et with phase := .extracted } 0 ∧
      (∀ sym ∈ syms, CodeOf s.arena.node lut sym) ∧ ∀ sym ∉ syms, lut[sym] = s.lut[sym]) ∨
    ∃ pre k post lut et et', syms = pre ++ k :: post ∧ walkFrom s.arena.node k = .overflow et' ∧
      extractFrom syms s = .raised ((s.withCodes lut et).raise .encOverflow k.val) ∧
      (∀ sym ∈ pre, CodeOf s.arena.node lut sym) ∧ ∀ sym ∉ pre, lut[sym] = s.lut[sym] := by
  induction syms generalizing s with
  | nil => exact .inl ⟨s.lut, s.et, rfl, by simp, by simp⟩
  | cons sym rest ih =>
    cases hwalk : walkFrom s.arena.node sym with
    | overflow et' =>
      exact .inr ⟨[], sym, rest, s.lut, et', et', rfl, hwalk, by simp only [extractFrom, hwalk], by simp, by simp⟩
    | root et =>
      have hset (x : Symbol) : (s.lut.set sym (encReverse et))[x] = if x = sym then encReverse et else s.lut[x] := by
        simp only [Fin.getElem_fin, Vector.getElem_set, Fin.val_inj, eq_comm]
      have hfirst {lut : Vector Encoding 256} {written : List Symbol}
          (hcodes : ∀ x ∈ written, CodeOf s.arena.node lut x)
          (hkept : ∀ x ∉ written, lut[x] = (s.lut.set sym (encReverse et))[x]) :
          (∀ x ∈ sym :: written, CodeOf s.arena.node lut x) ∧ ∀ x ∉ sym :: written, lut[x] = s.lut[x] := by
        refine ⟨fun x hx => ?_, fun x hx => ?_⟩
        · by_cases hmem : x ∈ written
          · exact hcodes x hmem
          · obtain rfl := (List.mem_cons.1 hx).resolve_right hmem
            exact ⟨et, hwalk, by rw [hkept x hmem, hset, if_pos rfl]⟩
        · rw [List.mem_cons, not_or] at hx
          rw [hkept x hx.2, hset, if_neg hx.1]
      rw [extractFrom, hwalk]
      rcases ih (s.withCodes (s.lut.set sym (encReverse et)) et) with
        ⟨lut, et', hdone, hcodes, hkept⟩ | ⟨pre, k, post, lut, et', et'', rfl, hover, hraised, hcodes, hkept⟩
      · exact .inl ⟨lut, et', hdone, hfirst hcodes hkept⟩
      · exact .inr ⟨sym :: pre, k, post, lut, et', et'', rfl, hover, hraised, hfirst hcodes hkept⟩

/-- Everything `EXTRACT` can do. -/
theorem extractStage_cases (s : State) :
    (∃ lut et, s.extractStage = .done { s.withCodes lut et with phase := .extracted } 0 ∧ CodesOf s.arena.node lut) ∨
    ∃ (k : Symbol) (lut : Vector Encoding 256) (et et' : Encoding), walkFrom s.arena.node k = .overflow et' ∧
      s.extractStage = .raised ((s.withCodes lut et).raise .encOverflow k.val) ∧
      (∀ sym < k, CodeOf s.arena.node lut sym) ∧ ∀ sym, k ≤ sym → lut[sym] = s.lut[sym] := by
  rcases extractFrom_cases (List.finRange 256) s with
    ⟨lut, et, hdone, hcodes, -⟩ | ⟨pre, k, post, lut, et, et', hsplit, hover, hraised, hcodes, hkept⟩
  · exact .inl ⟨lut, et, hdone, fun sym => hcodes sym (List.mem_finRange sym)⟩
  · have hsorted : (pre ++ k :: post).Pairwise (· < ·) := hsplit ▸ List.pairwise_lt_finRange 256
    obtain ⟨-, hpost, hpre⟩ := List.pairwise_append.1 hsorted
    have hmem {sym : Symbol} : sym ∈ pre ↔ sym < k := by
      refine ⟨fun h => hpre sym h k List.mem_cons_self, fun hlt => ?_⟩
      have hall : sym ∈ pre ++ k :: post := hsplit ▸ List.mem_finRange sym
      rcases List.mem_append.1 hall with h | h
      · exact h
      · rcases List.mem_cons.1 h with rfl | h
        · exact absurd hlt (lt_irrefl _)
        · exact absurd hlt (lt_asymm ((List.pairwise_cons.1 hpost).1 sym h))
    exact .inr ⟨k, lut, et, et', hover, hraised, fun sym h => hcodes sym (hmem.2 h),
      fun sym h => hkept sym fun hp => absurd (hmem.1 hp) (not_lt.2 h)⟩

/-- Everything `PACK` can do. -/
theorem packStage_cases (s : State) :
    (∃ c n, (c = .emptyInput ∨ s.packScan s.inLen 0 [] = .failed c n) ∧ s.packStage = .raised (s.packFault c n)) ∨
    ∃ image, s.inLen ≠ 0 ∧ s.packScan s.inLen 0 [] = .packed image ∧
      s.packStage = .done
        { s with
          outMem := writeOutBytes (imageByte image) (ceil8 s.bitsReq) s.outMem
          outLen := narrow s.cfg.bw image.length
          phase := .packed }
        (narrow s.cfg.bw image.length) := by
  by_cases hempty : s.inLen = 0
  · exact .inl ⟨_, _, .inl rfl, packStage_empty hempty⟩
  · cases hscan : s.packScan s.inLen 0 [] with
    | failed c n => exact .inl ⟨c, n, .inr rfl, by simp only [State.packStage, if_neg hempty, hscan]⟩
    | packed image => exact .inr ⟨image, hempty, rfl, by simp only [State.packStage, if_neg hempty, hscan]⟩

/-! ## What the stages leave alone -/

/-- What no stage writes, whether it completes or faults. -/
structure KeptByStages (s t : State) : Prop where
  cfg : t.cfg = s.cfg
  host : t.host = s.host
  inMem : t.inMem = s.inMem
  inLen : t.inLen = s.inLen
  ea : t.ea = s.ea
  eb : t.eb = s.eb

theorem KeptByStages.trans {s t u : State} (h : KeptByStages s t) (h' : KeptByStages t u) : KeptByStages s u :=
  ⟨h'.cfg.trans h.cfg, h'.host.trans h.host, h'.inMem.trans h.inMem, h'.inLen.trans h.inLen, h'.ea.trans h.ea,
    h'.eb.trans h.eb⟩

theorem KeptByStages.respond {s t : State} (h : KeptByStages s t) (p : Response) : KeptByStages s (t.respond p) :=
  ⟨h.cfg, h.host, h.inMem, h.inLen, h.ea, h.eb⟩

/-- A stage that begins in `s` ends in a state related to `s`, whether it is done or raised a fault. -/
inductive Stage.Rel (R : State → State → Prop) (s : State) : Stage → Prop
  | done {t : State} (data : Nat) (h : R s t) : Rel R s (.done t data)
  | raised {t : State} (h : R s t) : Rel R s (.raised t)

theorem Stage.Rel.mono {R R' : State → State → Prop} {s s' : State} {r : Stage} (h : r.Rel R s)
    (hR : ∀ t, R s t → R' s' t) : r.Rel R' s' := by
  cases h with
  | done data h => exact .done data (hR _ h)
  | raised h => exact .raised (hR _ h)

theorem Stage.Rel.andThen {R R' : State → State → Prop} {s : State} {r : Stage} {next : State → Stage} (h : r.Rel R s)
    (hraised : ∀ t, R s t → R' s t) (hnext : ∀ t, R s t → (next t).Rel R' s) : (r.andThen next).Rel R' s := by
  cases h with
  | done data h => exact hnext _ h
  | raised h => exact .raised (hraised _ h)

theorem Stage.Rel.finish {R : State → State → Prop} {s : State} {r : Stage} (h : r.Rel R s)
    (hrespond : ∀ t p, R s t → R s (t.respond p)) : R s r.finish := by
  cases h with
  | done data h => exact hrespond _ _ h
  | raised h => exact h

/-- What the stages of `GENENC` leave alone: `OUT` and `OUT_LEN` beside what no stage writes. -/
def KeptByGenenc (s t : State) : Prop := KeptByStages s t ∧ t.outMem = s.outMem ∧ t.outLen = s.outLen

theorem KeptByGenenc.trans {s t u : State} (h : KeptByGenenc s t) (h' : KeptByGenenc t u) : KeptByGenenc s u :=
  ⟨h.1.trans h'.1, h'.2.1.trans h.2.1, h'.2.2.trans h.2.2⟩

theorem KeptByGenenc.respond {s t : State} (h : KeptByGenenc s t) (p : Response) : KeptByGenenc s (t.respond p) :=
  ⟨h.1.respond p, h.2⟩

theorem countStage_kept (s : State) : s.countStage.Rel KeptByGenenc s := by
  by_cases hempty : s.inLen = 0
  · rw [countStage_empty hempty]
    exact .raised ⟨⟨rfl, rfl, rfl, rfl, rfl, rfl⟩, rfl, rfl⟩
  · rw [countStage_nonempty hempty]
    exact .done _ ⟨⟨rfl, rfl, rfl, rfl, rfl, rfl⟩, rfl, rfl⟩

/-- `BUILD` leaves `FREQ` and `LUT` as well. -/
theorem buildStage_kept (s : State) :
    s.buildStage.Rel (fun s t => KeptByGenenc s t ∧ t.freq = s.freq ∧ t.lut = s.lut) s := by
  rcases buildStage_cases s with ⟨a, -, heq⟩ | ⟨a, r, heq⟩ <;> rw [heq]
  · exact .done _ ⟨⟨⟨rfl, rfl, rfl, rfl, rfl, rfl⟩, rfl, rfl⟩, rfl, rfl⟩
  · exact .raised ⟨⟨⟨rfl, rfl, rfl, rfl, rfl, rfl⟩, rfl, rfl⟩, rfl, rfl⟩

/-- `EXTRACT` leaves `FREQ` and the tree as well. -/
theorem extractStage_kept (s : State) :
    s.extractStage.Rel (fun s t => KeptByGenenc s t ∧ t.freq = s.freq ∧ t.arena = s.arena) s := by
  rcases extractStage_cases s with ⟨lut, et, heq, -⟩ | ⟨k, lut, et, et', -, heq, -⟩ <;> rw [heq]
  · exact .done _ ⟨⟨⟨rfl, rfl, rfl, rfl, rfl, rfl⟩, rfl, rfl⟩, rfl, rfl⟩
  · exact .raised ⟨⟨⟨rfl, rfl, rfl, rfl, rfl, rfl⟩, rfl, rfl⟩, rfl, rfl⟩

/-- `SIZE` leaves `FREQ`, the tree and `LUT` as well. -/
theorem sizeStage_kept (s : State) :
    s.sizeStage.Rel (fun s t => KeptByGenenc s t ∧ t.freq = s.freq ∧ t.arena = s.arena ∧ t.lut = s.lut) s :=
  .done _ ⟨⟨⟨rfl, rfl, rfl, rfl, rfl, rfl⟩, rfl, rfl⟩, rfl, rfl, rfl⟩

theorem genencStage_kept (s : State) : s.genencStage.Rel KeptByGenenc s :=
  (((countStage_kept s).andThen (fun _ h => h)
    fun t h => (buildStage_kept t).mono fun _ h' => h.trans h'.1).andThen (fun _ h => h)
    fun t h => (extractStage_kept t).mono fun _ h' => h.trans h'.1).andThen (fun _ h => h)
    fun t h => (sizeStage_kept t).mono fun _ h' => h.trans h'.1

/-- What a command that packs leaves alone: `OUT` from `ceil8(BITS_REQ)` on beside what no stage writes
(20_memory.md R64). -/
def KeptByPacking (s t : State) : Prop := KeptByStages s t ∧ ∀ a, ceil8 t.bitsReq ≤ a → t.outByte a = s.outByte a

theorem KeptByPacking.respond {s t : State} (h : KeptByPacking s t) (p : Response) : KeptByPacking s (t.respond p) :=
  ⟨h.1.respond p, h.2⟩

theorem KeptByGenenc.packing {s t : State} (h : KeptByGenenc s t) : KeptByPacking s t :=
  ⟨h.1, fun a _ => outByte_congr h.2.1 a⟩

/-- `PACK` leaves the tables as well. -/
theorem packStage_kept (s : State) :
    s.packStage.Rel (fun s t => KeptByPacking s t ∧ t.freq = s.freq ∧ t.arena = s.arena ∧ t.lut = s.lut) s := by
  rcases packStage_cases s with ⟨c, n, -, heq⟩ | ⟨image, -, -, heq⟩ <;> rw [heq]
  · exact .raised ⟨⟨⟨rfl, rfl, rfl, rfl, rfl, rfl⟩, fun _ ha => packFault_outByte s c n ha⟩, rfl, rfl, rfl⟩
  · exact .done _ ⟨⟨⟨rfl, rfl, rfl, rfl, rfl, rfl⟩, fun _ ha => writeOutBytes_read_above _ ha⟩, rfl, rfl, rfl⟩

theorem compressStage_kept (s : State) : (s.genencStage.andThen State.packStage).Rel KeptByPacking s :=
  (genencStage_kept s).andThen (fun _ h => h.packing) fun t h =>
    (packStage_kept t).mono fun _ h' =>
      ⟨h.1.trans h'.1.1, fun a ha => (h'.1.2 a ha).trans (outByte_congr h.2.1 a)⟩

/-! ## What a command answers -/

/-- A command's own rule has answered with `ok` in phase `p`, or ended in a fault of its own. -/
def Answers (p : Phase) (t : State) : Prop := (t.resp.ok = true ∧ t.phase = p) ∨ OwnFault t

theorem Stage.Completes.answers {p : Phase} {fc : Option Cause} {r : Stage} (h : r.Completes p fc) :
    Answers p r.finish := by
  cases h with
  | done hphase _ => exact .inl ⟨rfl, hphase⟩
  | raised h => exact .inr h

/-- Every command is the four checks around a rule of its own, which answers where it is performed. -/
theorem exec_answers (i : Instr) : ∃ own : State → State, (∀ s, exec i s = .next (s.command i own)) ∧
    ∀ s, i.wellFormed s.cfg.cw = true → legalIn i s.phase = true → Answers (phaseAfter i s.phase) (own s) := by
  cases i
  case count => exact ⟨_, fun _ => rfl, fun s _ _ => (countStage_completes s).answers⟩
  case build => exact ⟨_, fun _ => rfl, fun s _ _ => (buildStage_completes s).answers⟩
  case extract => exact ⟨_, fun _ => rfl, fun s _ _ => (extractStage_completes s).answers⟩
  case size => exact ⟨_, fun _ => rfl, fun s _ _ => (sizeStage_completes s).answers⟩
  case pack => exact ⟨_, fun _ => rfl, fun s _ _ => (packStage_completes s).answers⟩
  case genenc => exact ⟨_, fun _ => rfl, fun s _ _ => (genencStage_completes s).answers⟩
  case compress =>
    exact ⟨_, fun _ => rfl, fun s _ _ => ((genencStage_completes s).andThen packStage_completes).answers⟩
  case epush b =>
    refine ⟨_, fun _ => rfl, fun s _ _ => ?_⟩
    split
    · exact .inl ⟨rfl, rfl⟩
    · exact .inr (ownFault_raise _ _ rfl)
  case rdnode n =>
    refine ⟨_, fun _ => rfl, fun s hwf _ => ?_⟩
    rw [nodeIndex?, dif_pos (of_decide_eq_true hwf)]
    exact .inl ⟨rfl, rfl⟩
  case wrreg | wrfreq => exact ⟨_, fun _ => rfl, fun s _ h => .inl ⟨rfl, of_decide_eq_true h⟩⟩
  all_goals exact ⟨_, fun _ => rfl, fun s _ _ => .inl ⟨rfl, rfl⟩⟩

/-- No command that is performed in a running phase succeeds into phase `FAULT`. -/
theorem phaseAfter_eq_fault {i : Instr} {p : Phase} (h : phaseAfter i p = .fault) : p = .fault := by
  cases i
  case clr | wrreg | wrfreq | count | build | extract | size | pack | genenc | compress => cases h
  all_goals exact h

/-- Settles O43: a legal `RDREG` answers with `ok` in every phase; another command answers with `ok` in a running phase
and stays in one, or has taken a fault or been refused. -/
theorem everyCommandAnswers : Obligations.EveryCommandAnswers := by
  intro i s
  by_cases hrdreg : ∃ r : BitVec 8, r.toNat < 8 ∧ i = .rdreg r
  · obtain ⟨r, hr, rfl⟩ := hrdreg
    refine ⟨_, exec_rdreg hr, ?_⟩
    have hok : (s.respond (Response.done (s.register r))).resp.ok = true := rfl
    rw [hok]
    exact ⟨(nomatch ·), (nomatch ·), fun h => absurd ⟨r, hr, rfl⟩ h.2⟩
  · obtain ⟨own, hexec, hanswers⟩ := exec_answers i
    refine ⟨_, hexec s, ?_⟩
    have hfailed {t : State} (hresp : t.resp = Response.failed) (hphase : t.phase = .fault) :
        (t.resp.ok = false → t.resp = Response.failed) ∧
          (t.resp.ok = false ↔ t.phase = .fault ∧ ¬ ∃ r : BitVec 8, r.toNat < 8 ∧ i = .rdreg r) :=
      ⟨fun _ => hresp, fun _ => ⟨hphase, hrdreg⟩, fun _ => congrArg Response.ok hresp⟩
    rcases command_cases s i own with ⟨hwf, hlegal, heq⟩ | ⟨hfault, heq⟩ | ⟨-, -, heq⟩ | ⟨-, -, -, heq⟩ <;> rw [heq]
    · rcases hanswers s hwf hlegal with ⟨hok, hphase⟩ | hfaulted
      · have hrun : phaseAfter i s.phase ≠ .fault := by
          intro hafter
          rw [phaseAfter_eq_fault hafter] at hlegal
          obtain ⟨r, rfl⟩ := legalIn_fault hlegal
          exact hrdreg ⟨r, of_decide_eq_true hwf, rfl⟩
        rw [hok, hphase]
        exact ⟨(nomatch ·), (nomatch ·), fun h => absurd h.1 hrun⟩
      · exact hfailed hfaulted.resp hfaulted.phase
    · exact hfailed rfl hfault
    · exact hfailed rfl rfl
    · exact hfailed rfl rfl

/-! ## What a command leaves alone -/

/-- The tables that a phase holds are kept (10_state.md R21, R22, R29). -/
def TablesFrozen (s t : State) : Prop :=
  (s.phase ≠ .idle → t.freq = s.freq) ∧
  (s.phase ∈ [.built, .extracted, .sized, .packed, .fault] → t.arena = s.arena) ∧
  (s.phase ∈ [.extracted, .sized, .packed, .fault] → t.lut = s.lut)

theorem tablesFrozen_of_eq {s t : State} (hfreq : t.freq = s.freq) (harena : t.arena = s.arena) (hlut : t.lut = s.lut) :
    TablesFrozen s t :=
  ⟨fun _ => hfreq, fun _ => harena, fun _ => hlut⟩

/-- In phase 0 nothing is made yet. -/
theorem tablesFrozen_of_idle {s : State} (t : State) (hidle : decide (s.phase = .idle) = true) : TablesFrozen s t := by
  simp [TablesFrozen, of_decide_eq_true hidle]

/-- Settles O47: a stage is performed only in a phase that does not hold yet what the stage writes. -/
theorem tablesAreImmutableOnceMade : Obligations.TablesAreImmutableOnceMade := by
  intro i s hclr
  have hkept {own : State → State} (hown : legalIn i s.phase = true → TablesFrozen s (own s)) :
      TablesFrozen s (s.command i own) :=
    command_rel (tablesFrozen_of_eq rfl rfl rfl) (fun _ _ => tablesFrozen_of_eq rfl rfl rfl) fun _ => hown
  cases i
  case clr => exact absurd rfl hclr
  case wrfreq | count | genenc | compress => exact ⟨_, rfl, hkept fun hidle => tablesFrozen_of_idle _ hidle⟩
  case build =>
    refine ⟨_, rfl, hkept fun hlegal => ?_⟩
    obtain ⟨-, hfreq, hlut⟩ := (buildStage_kept s).finish fun _ _ h => ⟨h.1.respond _, h.2⟩
    have hphase : s.phase = .idle ∨ s.phase = .counted := by simpa [legalIn] using hlegal
    refine ⟨fun _ => hfreq, fun hbuilt => ?_, fun _ => hlut⟩
    rcases hphase with h | h <;> simp [h] at hbuilt
  case extract =>
    refine ⟨_, rfl, hkept fun hlegal => ?_⟩
    obtain ⟨-, hfreq, harena⟩ := (extractStage_kept s).finish fun _ p h => ⟨h.1.respond p, h.2⟩
    refine ⟨fun _ => hfreq, fun _ => harena, fun hextracted => ?_⟩
    rw [of_decide_eq_true hlegal] at hextracted
    simp at hextracted
  case size =>
    obtain ⟨-, hfreq, harena, hlut⟩ := (sizeStage_kept s).finish fun _ p h => ⟨h.1.respond p, h.2⟩
    exact ⟨_, rfl, hkept fun _ => tablesFrozen_of_eq hfreq harena hlut⟩
  case pack =>
    obtain ⟨-, hfreq, harena, hlut⟩ := (packStage_kept s).finish fun _ p h => ⟨h.1.respond p, h.2⟩
    exact ⟨_, rfl, hkept fun _ => tablesFrozen_of_eq hfreq harena hlut⟩
  case epush | rdnode =>
    refine ⟨_, rfl, hkept fun _ => ?_⟩
    split <;> exact tablesFrozen_of_eq rfl rfl rfl
  all_goals exact ⟨_, rfl, hkept fun _ => tablesFrozen_of_eq rfl rfl rfl⟩

/-- The commands made of stages keep what no stage writes. -/
theorem stages_kept (s : State) :
    KeptByStages s s.countStage.finish ∧ KeptByStages s s.buildStage.finish ∧ KeptByStages s s.extractStage.finish ∧
    KeptByStages s s.sizeStage.finish ∧ KeptByStages s s.packStage.finish ∧ KeptByStages s s.genencStage.finish ∧
    KeptByStages s (s.genencStage.andThen State.packStage).finish := by
  have hfinish {r : Stage} (h : r.Rel KeptByStages s) : KeptByStages s r.finish :=
    h.finish fun _ p h => h.respond p
  exact ⟨hfinish ((countStage_kept s).mono fun _ h => h.1), hfinish ((buildStage_kept s).mono fun _ h => h.1.1),
    hfinish ((extractStage_kept s).mono fun _ h => h.1.1), hfinish ((sizeStage_kept s).mono fun _ h => h.1.1),
    hfinish ((packStage_kept s).mono fun _ h => h.1.1), hfinish ((genencStage_kept s).mono fun _ h => h.1),
    hfinish ((compressStage_kept s).mono fun _ h => h.1)⟩

/-- The writers of `EA` (10_state.md R32). -/
def writesEa : Instr → Bool
  | .epush _ | .elut _ | .enew | .erev | .exch | .clr => true
  | _ => false

/-- The writers of `EB` (10_state.md R32). -/
def writesEb : Instr → Bool
  | .exch | .clr => true
  | _ => false

theorem exec_encRegs (i : Instr) (s : State) : ∃ t, exec i s = .next t ∧
    (writesEa i = false → t.ea = s.ea) ∧ (writesEb i = false → t.eb = s.eb) := by
  have hkept {own : State → State}
      (hown : (writesEa i = false → (own s).ea = s.ea) ∧ (writesEb i = false → (own s).eb = s.eb)) :
      (writesEa i = false → (s.command i own).ea = s.ea) ∧ (writesEb i = false → (s.command i own).eb = s.eb) :=
    command_rel (R := fun s t => (writesEa i = false → t.ea = s.ea) ∧ (writesEb i = false → t.eb = s.eb))
      ⟨fun _ => rfl, fun _ => rfl⟩ (fun _ _ => ⟨fun _ => rfl, fun _ => rfl⟩) fun _ _ => hown
  have hstage {own : State → State} (h : KeptByStages s (own s)) :
      (writesEa i = false → (s.command i own).ea = s.ea) ∧ (writesEb i = false → (s.command i own).eb = s.eb) :=
    hkept ⟨fun _ => h.ea, fun _ => h.eb⟩
  obtain ⟨hcount, hbuild, hextract, hsize, hpack, hgenenc, hcompress⟩ := stages_kept s
  cases i
  case count => exact ⟨_, rfl, hstage hcount⟩
  case build => exact ⟨_, rfl, hstage hbuild⟩
  case extract => exact ⟨_, rfl, hstage hextract⟩
  case size => exact ⟨_, rfl, hstage hsize⟩
  case pack => exact ⟨_, rfl, hstage hpack⟩
  case genenc => exact ⟨_, rfl, hstage hgenenc⟩
  case compress => exact ⟨_, rfl, hstage hcompress⟩
  case clr | exch => exact ⟨_, rfl, (nomatch ·), (nomatch ·)⟩
  case enew | erev | elut => exact ⟨_, rfl, (nomatch ·), (hkept ⟨(nomatch ·), fun _ => rfl⟩).2⟩
  case epush =>
    refine ⟨_, rfl, (nomatch ·), (hkept ⟨(nomatch ·), fun _ => ?_⟩).2⟩
    split <;> rfl
  case rdnode =>
    refine ⟨_, rfl, hkept ?_⟩
    split <;> exact ⟨fun _ => rfl, fun _ => rfl⟩
  all_goals exact ⟨_, rfl, hkept ⟨fun _ => rfl, fun _ => rfl⟩⟩

/-- Settles O48. -/
theorem stagesLeaveTheEncodingRegisters : Obligations.StagesLeaveTheEncodingRegisters := by
  intro i s
  obtain ⟨t, hexec, hea, heb⟩ := exec_encRegs i s
  refine ⟨t, hexec, fun hepush helut henew herev hexch hclr => hea ?_, fun hexch hclr => heb ?_⟩
  · cases i <;> simp_all [writesEa]
  · cases i <;> simp_all [writesEb]

/-- No byte of `IN` changes, none of `OUT` but by `PACK` and `COMPRESS`, and none from `ceil8(BITS_REQ)` on
(20_memory.md R63, R64). -/
def MemoryKept (i : Instr) (s t : State) : Prop :=
  (∀ a, t.inByte a = s.inByte a) ∧ (i ≠ .pack → i ≠ .compress → ∀ a, t.outByte a = s.outByte a) ∧
    ∀ a, ceil8 t.bitsReq ≤ a → t.outByte a = s.outByte a

theorem memoryKept_of_eq (i : Instr) {s t : State} (hin : t.inMem = s.inMem) (hout : t.outMem = s.outMem) :
    MemoryKept i s t :=
  ⟨inByte_congr hin, fun _ _ => outByte_congr hout, fun a _ => outByte_congr hout a⟩

/-- A command that packs keeps the memory as the packing does. -/
theorem memoryKept_of_packing {i : Instr} {s t : State} (hi : i = .pack ∨ i = .compress) (h : KeptByPacking s t) :
    MemoryKept i s t :=
  ⟨inByte_congr h.1.inMem, fun hpack hcompress => absurd hi (not_or.2 ⟨hpack, hcompress⟩), h.2⟩

/-- Settles O49: the stages by `KeptByGenenc` and `KeptByPacking`; the other commands touch no memory. -/
theorem onlyPackWritesOutAndOnlyItsExtent : Obligations.OnlyPackWritesOutAndOnlyItsExtent := by
  intro i s
  have hkept {own : State → State} (hown : MemoryKept i s (own s)) : MemoryKept i s (s.command i own) :=
    command_rel (memoryKept_of_eq i rfl rfl) (fun _ _ => memoryKept_of_eq i rfl rfl) fun _ _ => hown
  have hstage {r : Stage} (h : r.Rel KeptByGenenc s) : MemoryKept i s r.finish :=
    (h.mono fun t h => (memoryKept_of_eq i h.1.inMem h.2.1 : MemoryKept i s t)).finish fun _ _ h => h
  have hpacking {r : Stage} (hi : i = .pack ∨ i = .compress) (h : r.Rel KeptByPacking s) : MemoryKept i s r.finish :=
    (h.mono fun t h => (memoryKept_of_packing hi h : MemoryKept i s t)).finish fun _ _ h => h
  cases i
  case count => exact ⟨_, rfl, hkept (hstage (countStage_kept s))⟩
  case build => exact ⟨_, rfl, hkept (hstage ((buildStage_kept s).mono fun _ h => h.1))⟩
  case extract => exact ⟨_, rfl, hkept (hstage ((extractStage_kept s).mono fun _ h => h.1))⟩
  case size => exact ⟨_, rfl, hkept (hstage ((sizeStage_kept s).mono fun _ h => h.1))⟩
  case genenc => exact ⟨_, rfl, hkept (hstage (genencStage_kept s))⟩
  case pack => exact ⟨_, rfl, hkept (hpacking (.inl rfl) ((packStage_kept s).mono fun _ h => h.1))⟩
  case compress => exact ⟨_, rfl, hkept (hpacking (.inr rfl) (compressStage_kept s))⟩
  case epush | rdnode =>
    refine ⟨_, rfl, hkept ?_⟩
    split <;> exact memoryKept_of_eq _ rfl rfl
  all_goals exact ⟨_, rfl, hkept (memoryKept_of_eq _ rfl rfl)⟩

end Sys2Proof.Machine
end

section
/-! One merge of the tree builder, for every legal `TIEBREAK` (41_tree_builder.md R143 to R148): what the pops take, and
what the arena holds afterwards, field by field. -/

namespace Sys2Proof.Machine

/-! ## The queue -/

/-- The members of the queue (10_state.md R27). -/
def Arena.queue (a : Arena) : Finset NodeIdx := Finset.univ.filter fun i => a.inq[i] = true

@[simp] theorem Arena.mem_queue {a : Arena} {i : NodeIdx} : i ∈ a.queue ↔ a.inq[i] = true := by simp [Arena.queue]

theorem mem_queueMembers {a : Arena} {m : Nat × NodeIdx} :
    m ∈ queueMembers a ↔ m.2 ∈ a.queue ∧ m.1 = a.node[m.2].count := by
  obtain ⟨c, i⟩ := m
  simp only [queueMembers, List.mem_map, List.mem_filter, List.mem_finRange, true_and, Prod.mk.injEq, Arena.mem_queue]
  constructor
  · rintro ⟨j, hj, rfl, rfl⟩
    exact ⟨hj, rfl⟩
  · rintro ⟨hi, hc⟩
    exact ⟨i, hi, hc.symm, rfl⟩

/-- The count of a node, as a function. -/
def Arena.weight (a : Arena) (i : NodeIdx) : Nat := a.node[i].count

/-- `m` is a member of least count (00_scope.md R11). -/
def LeastMember (a : Arena) (m : NodeIdx) : Prop := m ∈ a.queue ∧ ∀ x ∈ a.queue, a.node[m].count ≤ a.node[x].count

/-- The arena with `i` taken off the queue. -/
def Arena.drop (a : Arena) (i : NodeIdx) : Arena := { a with inq := a.inq.set i false }

@[simp] theorem Arena.drop_node (a : Arena) (i : NodeIdx) : (a.drop i).node = a.node := rfl
@[simp] theorem Arena.drop_next (a : Arena) (i : NodeIdx) : (a.drop i).next = a.next := rfl

@[simp] theorem Arena.drop_queue (a : Arena) (i : NodeIdx) : (a.drop i).queue = a.queue.erase i := by
  ext j
  simp only [Arena.mem_queue, Arena.drop, Finset.mem_erase, Fin.getElem_fin, Vector.getElem_set, Fin.val_inj]
  by_cases h : i = j
  · simp [h]
  · simp [h, Ne.symm h]

theorem pqPop_of_pqMin {tb : Tiebreak} {a : Arena} {m : NodeIdx} (h : pqMin tb a = some m) :
    pqPop tb a = some (m, a.drop m) := by
  rw [pqPop, h]
  rfl

/-- A legal `TIEBREAK` takes a member of least count off a queue that has one (41_tree_builder.md R143, R144). -/
theorem pqPop_legal {tb : Tiebreak} (htb : LegalTiebreak tb) {a : Arena} (hne : a.queue.Nonempty) :
    ∃ m, LeastMember a m ∧ pqPop tb a = some (m, a.drop m) := by
  obtain ⟨i, hi⟩ := hne
  have hmem {x : NodeIdx} (hx : x ∈ a.queue) : (a.node[x].count, x) ∈ queueMembers a := mem_queueMembers.2 ⟨hx, rfl⟩
  obtain ⟨m, hm, hpick, hleast⟩ := htb (queueMembers a) (List.ne_nil_of_mem (hmem hi))
  obtain ⟨hqueued, hcount⟩ := mem_queueMembers.1 hm
  exact ⟨m.2, ⟨hqueued, fun x hx => hcount ▸ hleast _ (hmem hx)⟩, pqPop_of_pqMin hpick⟩

/-! ## One merge -/

/-- `l` and `r` are what two pops take off the queue, in this order. -/
structure PopsTwo (a : Arena) (l r : NodeIdx) : Prop where
  first : LeastMember a l
  second : LeastMember (a.drop l) r

theorem PopsTwo.ne {a : Arena} {l r : NodeIdx} (h : PopsTwo a l r) : l ≠ r := by
  have := h.second.1
  simp only [Arena.drop_queue, Finset.mem_erase] at this
  exact this.1.symm

theorem PopsTwo.mem {a : Arena} {l r : NodeIdx} (h : PopsTwo a l r) : l ∈ a.queue ∧ r ∈ a.queue :=
  ⟨h.first.1, Finset.mem_of_mem_erase (a.drop_queue l ▸ h.second.1)⟩

theorem PopsTwo.count_le {a : Arena} {l r : NodeIdx} (h : PopsTwo a l r) : a.node[l].count ≤ a.node[r].count :=
  h.first.2 r h.mem.2

/-- The second pop takes a least member of the others. -/
theorem PopsTwo.second_le {a : Arena} {l r x : NodeIdx} (h : PopsTwo a l r) (hx : x ∈ a.queue) (hxl : x ≠ l) :
    a.node[r].count ≤ a.node[x].count :=
  h.second.2 x (by simpa [hxl] using hx)

/-- The sum over the queue, with the two popped members apart. -/
theorem PopsTwo.sum_queue {a : Arena} {l r : NodeIdx} (hpops : PopsTwo a l r) (f : NodeIdx → Nat) :
    ∑ i ∈ a.queue, f i = f l + f r + ∑ i ∈ (a.queue.erase l).erase r, f i := by
  obtain ⟨hl, hr⟩ := hpops.mem
  rw [← Finset.add_sum_erase _ _ hl, ← Finset.add_sum_erase _ _ (Finset.mem_erase.2 ⟨hpops.ne.symm, hr⟩), add_assoc]

/-- `merge_step` with what its pops take written out (41_tree_builder.md R146). -/
def mergeOf (ncw : Nat) (n l r : NodeIdx) (a : Arena) : Arena := joinNodes ncw n l r ((a.drop l).drop r)

theorem mergeStep_of_pops {tb : Tiebreak} (ncw : Nat) (n : NodeIdx) {a : Arena} {l r : NodeIdx}
    (hl : pqPop tb a = some (l, a.drop l)) (hr : pqPop tb (a.drop l) = some (r, (a.drop l).drop r)) :
    mergeStep tb ncw n a = mergeOf ncw n l r a := by
  rw [mergeStep, hl]
  simp only [hr]
  rfl

/-- On a queue of two or more members `merge_step` pops two of them and joins them. -/
theorem mergeStep_legal {tb : Tiebreak} (htb : LegalTiebreak tb) (ncw : Nat) (n : NodeIdx) {a : Arena}
    (hcard : 2 ≤ a.queue.card) : ∃ l r, PopsTwo a l r ∧ mergeStep tb ncw n a = mergeOf ncw n l r a := by
  obtain ⟨l, hl, hpop⟩ := pqPop_legal htb (Finset.card_pos.1 (by omega : 0 < a.queue.card))
  have hrest : (a.drop l).queue.Nonempty := by
    rw [Arena.drop_queue, ← Finset.card_pos, Finset.card_erase_of_mem hl.1]
    omega
  obtain ⟨r, hr, hpop'⟩ := pqPop_legal htb hrest
  exact ⟨l, r, ⟨hl, hr⟩, mergeStep_of_pops ncw n hpop hpop'⟩

theorem mergeOf_queue {ncw : Nat} {n l r : NodeIdx} {a : Arena} :
    (mergeOf ncw n l r a).queue = insert n ((a.queue.erase l).erase r) := by
  ext i
  have hdrop : i ∈ ((a.drop l).drop r).queue ↔ i ∈ (a.queue.erase l).erase r := by
    rw [Arena.drop_queue, Arena.drop_queue]
  rw [Finset.mem_insert, ← hdrop]
  simp only [Arena.mem_queue, mergeOf, joinNodes, pqPush, Fin.getElem_fin, Vector.getElem_set, Fin.val_inj]
  by_cases h : n = i
  · simp [h]
  · simp [h, Ne.symm h]

section
variable {ncw : Nat} {n l r : NodeIdx} {a : Arena} (hpops : PopsTwo a l r) (hnew : n ∉ a.queue)
include hpops hnew

/-- The array after a merge: the new node, its two children, and every other node as before (41_tree_builder.md
R146). -/
theorem mergeOf_node (i : NodeIdx) : (mergeOf ncw n l r a).node[i] =
    if i = n then { a.node[n] with count := narrow ncw (a.node[l].count + a.node[r].count), right := some r }
    else if i = l ∨ i = r then { a.node[i] with parent := some n } else a.node[i] := by
  obtain ⟨hl, hr⟩ := hpops.mem
  have hnl : n ≠ l := fun h => hnew (h ▸ hl)
  have hnr : n ≠ r := fun h => hnew (h ▸ hr)
  have hheavier : ¬ a.node[l.val].count > a.node[r.val].count := Nat.not_lt.2 hpops.count_le
  simp only [mergeOf, joinNodes, pqPush, setParent, Arena.drop_node, hheavier, if_false, Fin.getElem_fin,
    Vector.getElem_set, Fin.val_inj, hnl, hnr, hpops.ne]
  by_cases hi : i = n
  · subst hi
    simp [hnl.symm, hnr.symm]
  · by_cases hil : i = l
    · subst hil
      simp [hi, hpops.ne.symm]
    · by_cases hir : i = r
      · subst hir
        simp [hi]
      · simp [hi, hil, hir, Ne.symm hi, Ne.symm hil, Ne.symm hir]

theorem mergeOf_parent (i : NodeIdx) : (mergeOf ncw n l r a).node[i].parent =
    if i = l ∨ i = r then some n else a.node[i].parent := by
  rw [mergeOf_node hpops hnew]
  by_cases hi : i = n
  · subst hi
    have hil : i ≠ l := fun h => hnew (h ▸ hpops.mem.1)
    have hir : i ≠ r := fun h => hnew (h ▸ hpops.mem.2)
    simp [hil, hir]
  · rw [if_neg hi]
    split <;> rfl

theorem mergeOf_bit (i : NodeIdx) : (mergeOf ncw n l r a).node[i].bit = a.node[i].bit := by
  rw [mergeOf_node hpops hnew]
  split
  next hi => rw [hi]
  next => split <;> rfl

theorem mergeOf_count_new :
    (mergeOf ncw n l r a).node[n].count = narrow ncw (a.node[l].count + a.node[r].count) := by
  rw [mergeOf_node hpops hnew, if_pos rfl]

theorem mergeOf_right_new : (mergeOf ncw n l r a).node[n].right = some r := by
  rw [mergeOf_node hpops hnew, if_pos rfl]

theorem mergeOf_count {i : NodeIdx} (hi : i ≠ n) : (mergeOf ncw n l r a).node[i].count = a.node[i].count := by
  rw [mergeOf_node hpops hnew, if_neg hi]
  split <;> rfl

theorem mergeOf_right {i : NodeIdx} (hi : i ≠ n) : (mergeOf ncw n l r a).node[i].right = a.node[i].right := by
  rw [mergeOf_node hpops hnew, if_neg hi]
  split <;> rfl

end

theorem mergeOf_next {ncw : Nat} {n l r : NodeIdx} {a : Arena} : (mergeOf ncw n l r a).next.toNat = n.val + 1 := by
  show (BitVec.ofNat 9 (n.val + 1)).toNat = n.val + 1
  exact Nat.mod_eq_of_lt (by omega)

/-! ## The merge loop -/

/-- What every merge step keeps, going from `n` made nodes to `n + 1`, holds when the loop ends with all nodes made
(41_tree_builder.md R148). -/
theorem mergeLoop_of_step {tb : Tiebreak} {ncw : Nat} {P : Nat → Arena → Prop}
    (hnext : ∀ n a, P n a → a.next.toNat = n)
    (hstep : ∀ n : NodeIdx, ∀ a, P n.val a → P (n.val + 1) (mergeStep tb ncw n a)) (fuel : Nat) {n : Nat} {a : Arena}
    (hP : P n a) (hfuel : n + fuel = 511) : P 511 (mergeLoop tb ncw fuel a) := by
  induction fuel generalizing n a with
  | zero =>
    obtain rfl : n = 511 := by omega
    exact hP
  | succ fuel ih =>
    have hn : a.next.toNat < 511 := by rw [hnext n a hP]; omega
    rw [mergeLoop, dif_pos hn]
    refine ih (n := a.next.toNat + 1) (hstep ⟨a.next.toNat, hn⟩ a ?_) (by rw [hnext n a hP]; omega)
    exact (hnext n a hP).symm ▸ hP

end Sys2Proof.Machine
end

section
/-! The built tree, for every legal `TIEBREAK` (41_tree_builder.md R147 to R152): the invariant of the merge loop, the
marking, and `BUILD`. -/

namespace Sys2Proof.Machine

/-! ## The invariant of the merge loop -/

/-- In the array the internal node `m` joins `l` and `r`, of which `r` is recorded as the heavier. -/
structure Joins (node : Vector Node 511) (m l r : NodeIdx) : Prop where
  distinct : l ≠ r
  only : ∀ i : NodeIdx, node[i].parent = some m ↔ i = l ∨ i = r
  right : node[m].right = some r
  count : node[m].count = node[l].count + node[r].count
  heavier : node[l].count ≤ node[r].count

/-- The arena between two merges, when the nodes below `n` are made: the queue holds the made nodes without a parent,
and the trees under them weigh together what the symbols do (41_tree_builder.md R147, R148). -/
structure Merging (freq : Vector Nat 256) (n : Nat) (a : Arena) : Prop where
  next : a.next.toNat = n
  started : 256 ≤ n
  queued : ∀ i : NodeIdx, i ∈ a.queue ↔ i.val < n ∧ a.node[i].parent = none
  above : ∀ i p : NodeIdx, a.node[i].parent = some p → 256 ≤ p.val ∧ i < p ∧ p.val < n
  leaves : ∀ sym : Symbol, a.node[leafOf sym].count = freq[sym] ∧ a.node[leafOf sym].right = none
  unmarked : ∀ i : NodeIdx, a.node[i].bit = false
  joins : ∀ m : NodeIdx, 256 ≤ m.val → m.val < n → ∃ l r, Joins a.node m l r
  card : a.queue.card + n = 512
  total : ∑ i ∈ a.queue, a.node[i].count = ∑ sym : Symbol, freq[sym]

/-- A sum over the leaves is a sum over the symbols. -/
theorem sum_leaves {M : Type} [AddCommMonoid M] (f : NodeIdx → M) :
    ∑ i ∈ Finset.univ.filter (fun i : NodeIdx => i.val < 256), f i = ∑ sym : Symbol, f (leafOf sym) := by
  symm
  refine Finset.sum_bij (fun sym _ => leafOf sym) (fun sym _ => ?_) (fun x _ y _ h => ?_) (fun i hi => ?_)
    fun _ _ => rfl
  · simp [leafOf]
  · exact Fin.ext (congrArg (fun i : NodeIdx => i.val) h)
  · exact ⟨⟨i.val, by simpa using hi⟩, Finset.mem_univ _, rfl⟩

theorem buildInit_node (freq : Vector Nat 256) (i : NodeIdx) :
    (buildInit freq).node[i] = if h : i.val < 256 then { Node.unmade with count := freq[i.val] } else Node.unmade := by
  simp only [buildInit, Fin.getElem_fin, Vector.getElem_ofFn]

theorem buildInit_queue (freq : Vector Nat 256) :
    (buildInit freq).queue = Finset.univ.filter fun i : NodeIdx => i.val < 256 := by
  ext i
  simp [buildInit]

theorem buildInit_leaf (freq : Vector Nat 256) (sym : Symbol) :
    (buildInit freq).node[leafOf sym] = { Node.unmade with count := freq[sym] } :=
  (buildInit_node freq _).trans (dif_pos sym.isLt)

theorem buildInit_parent (freq : Vector Nat 256) (i : NodeIdx) : (buildInit freq).node[i].parent = none := by
  rw [buildInit_node]
  split <;> rfl

theorem buildInit_bit (freq : Vector Nat 256) (i : NodeIdx) : (buildInit freq).node[i].bit = false := by
  rw [buildInit_node]
  split <;> rfl

/-- `build_init` is where the merges begin (41_tree_builder.md R142). -/
theorem merging_buildInit (freq : Vector Nat 256) : Merging freq 256 (buildInit freq) := by
  constructor
  case next => rfl
  case started => exact le_rfl
  case queued =>
    intro i
    rw [buildInit_queue, buildInit_parent, Finset.mem_filter]
    simp
  case above =>
    intro i p h
    rw [buildInit_parent] at h
    cases h
  case leaves => exact fun sym => by rw [buildInit_leaf]; exact ⟨rfl, rfl⟩
  case unmarked => exact buildInit_bit freq
  case joins => omega
  case card =>
    have hcard := sum_leaves fun _ => 1
    simp only [Finset.sum_const, smul_eq_mul, mul_one, Finset.card_univ, Fintype.card_fin] at hcard
    rw [buildInit_queue, hcard]
  case total =>
    rw [buildInit_queue, sum_leaves]
    exact Finset.sum_congr rfl fun sym _ => by rw [buildInit_leaf]

section
variable {freq : Vector Nat 256} {n : NodeIdx} {a : Arena} (h : Merging freq n.val a)
include h

/-- The next node to be made has no parent and is no member of the queue. -/
theorem Merging.parent_new : a.node[n].parent = none := by
  rcases hp : a.node[n].parent with _ | p
  · rfl
  · obtain ⟨-, hnp, hpn⟩ := h.above n p hp
    exact absurd hpn (not_lt.2 hnp.le)

theorem Merging.new_notMem : n ∉ a.queue := fun hn => lt_irrefl _ ((h.queued n).1 hn).1

/-- Before the last node is made the queue has two members (41_tree_builder.md R148). -/
theorem Merging.two_le_card : 2 ≤ a.queue.card := by
  have := h.card
  omega

/-- A member is a made node without a parent. -/
theorem Merging.of_mem {i : NodeIdx} (hi : i ∈ a.queue) : i < n ∧ a.node[i].parent = none := (h.queued i).1 hi

/-- The sum over the queue after the merge. -/
theorem Merging.sum_queue_mergeOf {ncw : Nat} {l r : NodeIdx} (f : NodeIdx → Nat) :
    ∑ i ∈ (mergeOf ncw n l r a).queue, f i = f n + ∑ i ∈ (a.queue.erase l).erase r, f i := by
  rw [mergeOf_queue, Finset.sum_insert]
  exact fun hn => h.new_notMem (Finset.mem_of_mem_erase (Finset.mem_of_mem_erase hn))

section
variable {ncw : Nat} {l r : NodeIdx} (hpops : PopsTwo a l r)
include hpops

/-- The new node weighs what its children do: the sum does not wrap (41_tree_builder.md R147). -/
theorem Merging.count_new (hfit : ∀ x ≤ ∑ sym : Symbol, freq[sym], narrow ncw x = x) :
    (mergeOf ncw n l r a).node[n].count = a.node[l].count + a.node[r].count := by
  rw [mergeOf_count_new hpops h.new_notMem]
  refine hfit _ ?_
  rw [← h.total, hpops.sum_queue]
  omega

theorem Merging.queued_mergeOf (i : NodeIdx) :
    i ∈ (mergeOf ncw n l r a).queue ↔ i.val < n.val + 1 ∧ (mergeOf ncw n l r a).node[i].parent = none := by
  obtain ⟨hl, hr⟩ := hpops.mem
  have hln := (h.of_mem hl).1
  have hrn := (h.of_mem hr).1
  rw [mergeOf_queue, mergeOf_parent hpops h.new_notMem, Finset.mem_insert, Finset.mem_erase, Finset.mem_erase, h.queued]
  by_cases hchild : i = l ∨ i = r
  · have hin : i ≠ n := by
      rcases hchild with rfl | rfl
      · exact hln.ne
      · exact hrn.ne
    rw [if_pos hchild]
    simp only [hin, false_or, reduceCtorEq, and_false, iff_false]
    exact fun ⟨hir, hil, _⟩ => hchild.elim hil hir
  · rw [if_neg hchild]
    rw [not_or] at hchild
    by_cases hin : i = n
    · rw [hin, h.parent_new]
      simp
    · have hlt : i.val < n.val + 1 ↔ i.val < n.val := by
        have : i.val ≠ n.val := fun e => hin (Fin.ext e)
        omega
      simp only [hlt, hin, hchild.1, hchild.2, false_or, ne_eq, not_false_eq_true, true_and]

theorem Merging.above_mergeOf {i p : NodeIdx} (hp : (mergeOf ncw n l r a).node[i].parent = some p) :
    256 ≤ p.val ∧ i < p ∧ p.val < n.val + 1 := by
  obtain ⟨hl, hr⟩ := hpops.mem
  rw [mergeOf_parent hpops h.new_notMem] at hp
  split at hp
  next hchild =>
    cases hp
    refine ⟨h.started, ?_, Nat.lt_succ_self _⟩
    rcases hchild with rfl | rfl
    · exact (h.of_mem hl).1
    · exact (h.of_mem hr).1
  next =>
    obtain ⟨hlow, hlt, hpn⟩ := h.above i p hp
    exact ⟨hlow, hlt, hpn.trans (Nat.lt_succ_self _)⟩

/-- The new node joins what the pops took off. -/
theorem Merging.joins_new (hfit : ∀ x ≤ ∑ sym : Symbol, freq[sym], narrow ncw x = x) :
    Joins (mergeOf ncw n l r a).node n l r := by
  have hnew := h.new_notMem
  obtain ⟨hl, hr⟩ := hpops.mem
  have hln := (h.of_mem hl).1.ne
  have hrn := (h.of_mem hr).1.ne
  constructor
  case distinct => exact hpops.ne
  case only =>
    intro i
    rw [mergeOf_parent hpops hnew]
    split
    next hchild => simp [hchild]
    next hchild => simp only [hchild, iff_false]; exact fun hp => lt_irrefl _ (h.above i n hp).2.2
  case right => exact mergeOf_right_new hpops hnew
  case count => rw [h.count_new hpops hfit, mergeOf_count hpops hnew hln, mergeOf_count hpops hnew hrn]
  case heavier =>
    rw [mergeOf_count hpops hnew hln, mergeOf_count hpops hnew hrn]
    exact hpops.count_le

/-- The nodes made before keep their children: the members popped had no parent. -/
theorem Merging.joins_old {m l' r' : NodeIdx} (hm : m < n) (hjoins : Joins a.node m l' r') :
    Joins (mergeOf ncw n l r a).node m l' r' := by
  have hnew := h.new_notMem
  obtain ⟨hl, hr⟩ := hpops.mem
  have hchild {i : NodeIdx} (hi : i = l' ∨ i = r') : i ≠ n :=
    ((h.above i m ((hjoins.only i).2 hi)).2.1.trans hm).ne
  have hl' := hchild (.inl rfl)
  have hr' := hchild (.inr rfl)
  constructor
  case distinct => exact hjoins.distinct
  case only =>
    intro i
    rw [mergeOf_parent hpops hnew, ← hjoins.only]
    split
    next hpopped =>
      have hnone : a.node[i].parent = none := by
        rcases hpopped with rfl | rfl
        · exact (h.of_mem hl).2
        · exact (h.of_mem hr).2
      rw [hnone]
      simp [hm.ne']
    next => rfl
  case right => rw [mergeOf_right hpops hnew hm.ne, hjoins.right]
  case count =>
    rw [mergeOf_count hpops hnew hm.ne, mergeOf_count hpops hnew hl', mergeOf_count hpops hnew hr', hjoins.count]
  case heavier =>
    rw [mergeOf_count hpops hnew hl', mergeOf_count hpops hnew hr']
    exact hjoins.heavier

/-- One merge goes on to the next node (41_tree_builder.md R146, R147). -/
theorem Merging.next_mergeOf (hfit : ∀ x ≤ ∑ sym : Symbol, freq[sym], narrow ncw x = x) :
    Merging freq (n.val + 1) (mergeOf ncw n l r a) := by
  have hnew := h.new_notMem
  obtain ⟨hl, hr⟩ := hpops.mem
  constructor
  case next => exact mergeOf_next
  case started => exact h.started.trans (Nat.le_succ _)
  case queued => exact h.queued_mergeOf hpops
  case above => exact fun i p => h.above_mergeOf hpops
  case leaves =>
    intro sym
    have hsym : leafOf sym ≠ n := Fin.ne_of_lt (sym.isLt.trans_le h.started)
    rw [mergeOf_count hpops hnew hsym, mergeOf_right hpops hnew hsym]
    exact h.leaves sym
  case unmarked => exact fun i => (mergeOf_bit hpops hnew i).trans (h.unmarked i)
  case joins =>
    intro m hlow hm
    rcases Nat.lt_succ_iff_lt_or_eq.1 hm with hlt | heq
    · obtain ⟨l', r', hjoins⟩ := h.joins m hlow hlt
      exact ⟨l', r', h.joins_old hpops hlt hjoins⟩
    · obtain rfl : m = n := Fin.ext heq
      exact ⟨l, r, h.joins_new hpops hfit⟩
  case card =>
    have hafter := h.sum_queue_mergeOf (ncw := ncw) (l := l) (r := r) fun _ => 1
    have hbefore := hpops.sum_queue fun _ => 1
    simp only [← Finset.card_eq_sum_ones] at hafter hbefore
    have := h.card
    omega
  case total =>
    rw [h.sum_queue_mergeOf, h.count_new hpops hfit, ← h.total, hpops.sum_queue]
    refine congrArg _ (Finset.sum_congr rfl fun i hi => mergeOf_count hpops hnew ?_)
    rintro rfl
    exact hnew (Finset.mem_of_mem_erase (Finset.mem_of_mem_erase hi))

end

end

end Sys2Proof.Machine
end

section
/-! The marking, and `BUILD` (41_tree_builder.md R141, R149 to R152). -/

namespace Sys2Proof.Machine

/-! ## The marking -/

/-- The arena `a'` is `a` with other bits in its nodes. -/
structure SameButBits (a a' : Arena) : Prop where
  inq : a'.inq = a.inq
  next : a'.next = a.next
  count : ∀ i : NodeIdx, a'.node[i].count = a.node[i].count
  parent : ∀ i : NodeIdx, a'.node[i].parent = a.node[i].parent
  right : ∀ i : NodeIdx, a'.node[i].right = a.node[i].right

theorem markNode_node (r : NodeIdx) (a : Arena) (i : NodeIdx) :
    (markNode r a).node[i] = if i = r then { a.node[r] with bit := true } else a.node[i] := by
  simp only [markNode, Fin.getElem_fin, Vector.getElem_set, Fin.val_inj, eq_comm]

theorem markNode_sameButBits (r : NodeIdx) (a : Arena) : SameButBits a (markNode r a) := by
  refine ⟨rfl, rfl, fun i => ?_, fun i => ?_, fun i => ?_⟩ <;> rw [markNode_node] <;> split
  all_goals simp [*]

theorem markNode_bit (r : NodeIdx) (a : Arena) (i : NodeIdx) :
    (markNode r a).node[i].bit = (decide (i = r) || a.node[i].bit) := by
  rw [markNode_node]
  by_cases h : i = r <;> simp [h]

theorem SameButBits.trans {a b c : Arena} (h : SameButBits a b) (h' : SameButBits b c) : SameButBits a c :=
  ⟨h'.inq.trans h.inq, h'.next.trans h.next, fun i => (h'.count i).trans (h.count i),
    fun i => (h'.parent i).trans (h.parent i), fun i => (h'.right i).trans (h.right i)⟩

/-- Where the nodes of the list have different `right` children, none of them marked, the marking goes through and marks
exactly those children (41_tree_builder.md R149, R152). -/
theorem buildMark_marks (ns : List NodeIdx) (a : Arena)
    (hright : ∀ n ∈ ns, ∃ r, a.node[n].right = some r ∧ a.node[r].bit = false)
    (hdistinct : ns.Pairwise fun n m => a.node[n].right ≠ a.node[m].right) :
    ∃ a', buildMark ns a = .marked a' ∧ SameButBits a a' ∧
      ∀ i : NodeIdx, a'.node[i].bit = true ↔ a.node[i].bit = true ∨ ∃ n ∈ ns, a.node[n].right = some i := by
  induction ns generalizing a with
  | nil => exact ⟨a, rfl, ⟨rfl, rfl, fun _ => rfl, fun _ => rfl, fun _ => rfl⟩, by simp⟩
  | cons n rest ih =>
    obtain ⟨r, hr, hbit⟩ := hright n List.mem_cons_self
    obtain ⟨hfirst, hrest⟩ := List.pairwise_cons.1 hdistinct
    have hsame := markNode_sameButBits r a
    obtain ⟨a', hmark, hsame', hbits⟩ := ih (markNode r a)
      (fun m hm => by
        obtain ⟨r', hr', hbit'⟩ := hright m (List.mem_cons_of_mem _ hm)
        have hne : r' ≠ r := fun h => hfirst m hm (by rw [hr, hr', h])
        exact ⟨r', (hsame.right m).trans hr', by rw [markNode_bit, hbit']; simp [hne]⟩)
      (by simpa only [hsame.right] using hrest)
    refine ⟨a', ?_, hsame.trans hsame', fun i => ?_⟩
    · rw [buildMark]
      simp only [hr, hbit, Bool.false_eq_true, if_false]
      exact hmark
    · rw [hbits, markNode_bit]
      simp only [hsame.right, List.exists_mem_cons_iff, hr, Bool.or_eq_true, decide_eq_true_eq, Option.some.injEq,
        eq_comm (a := r)]
      tauto

theorem mem_internalNodes {n : NodeIdx} : n ∈ internalNodes ↔ 256 ≤ n.val := by simp [internalNodes]

theorem nodup_internalNodes : internalNodes.Nodup := (List.nodup_finRange 511).filter _

/-! ## The finished merges -/

/-- The arena when the merge loop has ended. -/
def mergedTree (tb : Tiebreak) (ncw : Nat) (freq : Vector Nat 256) : Arena := mergeLoop tb ncw 255 (buildInit freq)

/-- The counts of all symbols together fit a node's count (41_tree_builder.md R147). -/
theorem narrow_total {cw : Nat} {freq : Vector Nat 256} (hfreq : ∀ sym : Symbol, freq[sym] < 2 ^ cw) :
    ∀ x ≤ ∑ sym : Symbol, freq[sym], narrow (cw + 8) x = x := by
  intro x hx
  refine Nat.mod_eq_of_lt (hx.trans_lt ?_)
  calc ∑ sym : Symbol, freq[sym] < ∑ _sym : Symbol, 2 ^ cw :=
        Finset.sum_lt_sum_of_nonempty ⟨0, Finset.mem_univ _⟩ fun sym _ => hfreq sym
    _ = 2 ^ (cw + 8) := by rw [Finset.sum_const, Finset.card_univ, Fintype.card_fin, smul_eq_mul, pow_add, mul_comm]; rfl

/-- A legal merge step goes on to the next node. -/
theorem merging_mergeStep {tb : Tiebreak} (htb : LegalTiebreak tb) {ncw : Nat} {freq : Vector Nat 256}
    (hfit : ∀ x ≤ ∑ sym : Symbol, freq[sym], narrow ncw x = x) {n : NodeIdx} {a : Arena} (h : Merging freq n.val a) :
    ∃ l r, PopsTwo a l r ∧ mergeStep tb ncw n a = mergeOf ncw n l r a ∧
      Merging freq (n.val + 1) (mergeOf ncw n l r a) := by
  obtain ⟨l, r, hpops, heq⟩ := mergeStep_legal htb ncw n h.two_le_card
  exact ⟨l, r, hpops, heq, h.next_mergeOf hpops hfit⟩

theorem merging_mergedTree {tb : Tiebreak} (htb : LegalTiebreak tb) {ncw : Nat} {freq : Vector Nat 256}
    (hfit : ∀ x ≤ ∑ sym : Symbol, freq[sym], narrow ncw x = x) : Merging freq 511 (mergedTree tb ncw freq) := by
  refine mergeLoop_of_step (P := Merging freq) (fun n a h => h.next) (fun n a h => ?_) 255 (merging_buildInit freq) rfl
  obtain ⟨l, r, -, heq, hnext⟩ := merging_mergeStep htb hfit h
  exact heq ▸ hnext

/-- The node made last is a root. -/
theorem Merging.root_parent {freq : Vector Nat 256} {a : Arena} (h : Merging freq 511 a) :
    a.node[rootIdx].parent = none := by
  rcases hp : a.node[rootIdx].parent with _ | p
  · rfl
  · obtain ⟨-, hlt, hp⟩ := h.above rootIdx p hp
    exact absurd hlt (not_lt.2 (Fin.le_def.2 (Nat.le_of_lt_succ hp)))

/-- After the last merge only the root is queued (41_tree_builder.md R148, R150). -/
theorem Merging.queue_final {freq : Vector Nat 256} {a : Arena} (h : Merging freq 511 a) : a.queue = {rootIdx} := by
  have hcard : a.queue.card = 1 := by have := h.card; omega
  obtain ⟨i, hi⟩ := Finset.card_eq_one.1 hcard
  have hroot : rootIdx ∈ a.queue := (h.queued rootIdx).2 ⟨by decide, h.root_parent⟩
  rw [hi, Finset.mem_singleton] at hroot
  rw [hi, hroot]

/-- `build_merge` ends with the pop of the root (41_tree_builder.md R148). -/
theorem buildMerge_eq {tb : Tiebreak} (htb : LegalTiebreak tb) {ncw : Nat} {freq : Vector Nat 256}
    (hfit : ∀ x ≤ ∑ sym : Symbol, freq[sym], narrow ncw x = x) :
    buildMerge tb ncw (buildInit freq) = (mergedTree tb ncw freq).drop rootIdx := by
  have hqueue := (merging_mergedTree htb hfit).queue_final
  obtain ⟨m, hm, hpop⟩ := pqPop_legal htb (a := mergedTree tb ncw freq) (by rw [hqueue]; exact Finset.singleton_nonempty _)
  obtain rfl : m = rootIdx := Finset.mem_singleton.1 (hqueue ▸ hm.1)
  rw [buildMerge, ← mergedTree, hpop]

/-! ## The tree -/

/-- The finished merges can be marked: an internal node's heavier child is no other node's (41_tree_builder.md R149,
R152). -/
theorem Merging.buildMark {freq : Vector Nat 256} {m : Arena} (hm : Merging freq 511 m) :
    ∃ a, buildMark internalNodes (m.drop rootIdx) = .marked a ∧ SameButBits (m.drop rootIdx) a ∧
      ∀ i : NodeIdx, a.node[i].bit = true ↔ ∃ n : NodeIdx, 256 ≤ n.val ∧ a.node[n].right = some i := by
  have hright {n r : NodeIdx} (hn : 256 ≤ n.val) (hr : m.node[n].right = some r) : m.node[r].parent = some n := by
    obtain ⟨l, r', h⟩ := hm.joins n hn n.isLt
    cases h.right.symm.trans hr
    exact (h.only r).2 (.inr rfl)
  obtain ⟨a, hmark, hsame, hbits⟩ := buildMark_marks internalNodes (m.drop rootIdx)
    (fun n hn => by
      obtain ⟨l, r, h⟩ := hm.joins n (mem_internalNodes.1 hn) n.isLt
      exact ⟨r, h.right, hm.unmarked r⟩)
    (nodup_internalNodes.imp_of_mem fun {n n'} hn hn' hne heq => by
      have hn := mem_internalNodes.1 hn
      obtain ⟨l, r, h⟩ := hm.joins n hn n.isLt
      have hparent := hright (mem_internalNodes.1 hn') (heq.symm.trans h.right)
      exact hne (Option.some.inj ((hright hn h.right).symm.trans hparent)))
  refine ⟨a, hmark, hsame, fun i => ?_⟩
  rw [hbits]
  simp only [mem_internalNodes, Arena.drop_node, hm.unmarked, Bool.false_eq_true, false_or, hsame.right]

/-- The tree of a table is the finished merges with the heavier children marked (41_tree_builder.md R141). -/
theorem buildTree_eq_marked {tb : Tiebreak} (htb : LegalTiebreak tb) {ncw : Nat} {freq : Vector Nat 256}
    (hfit : ∀ x ≤ ∑ sym : Symbol, freq[sym], narrow ncw x = x) :
    ∃ a, buildTree tb ncw freq = .marked a ∧ SameButBits ((mergedTree tb ncw freq).drop rootIdx) a ∧
      ∀ i : NodeIdx, a.node[i].bit = true ↔ ∃ n : NodeIdx, 256 ≤ n.val ∧ a.node[n].right = some i := by
  rw [buildTree, buildMerge_eq htb hfit]
  exact (merging_mergedTree htb hfit).buildMark

/-- The marked merges are the tree of BUILD (41_tree_builder.md R147, R149 to R151). -/
theorem builtTree_of_merging {freq : Vector Nat 256} {m a : Arena} (hm : Merging freq 511 m)
    (hsame : SameButBits (m.drop rootIdx) a)
    (hbits : ∀ i : NodeIdx, a.node[i].bit = true ↔ ∃ n : NodeIdx, 256 ≤ n.val ∧ a.node[n].right = some i) :
    BuiltTree freq a := by
  have hjoins {n l r : NodeIdx} (h : Joins m.node n l r) : Joins a.node n l r :=
    ⟨h.distinct, fun i => by rw [hsame.parent]; exact h.only i, (hsame.right n).trans h.right,
      by simp only [hsame.count]; exact h.count, by simp only [hsame.count]; exact h.heavier⟩
  have hbit {n l r i : NodeIdx} (h : Joins a.node n l r) (hi : a.node[i].parent = some n) :
      a.node[i].bit = true ↔ i = r := by
    rw [hbits]
    constructor
    · rintro ⟨n', hn', hright⟩
      obtain ⟨l', r', h'⟩ := hm.joins n' hn' n'.isLt
      cases (hjoins h').right.symm.trans hright
      cases ((hjoins h').only i).2 (.inr rfl) |>.symm.trans hi
      exact Option.some.inj (hright.symm.trans h.right)
    · rintro rfl
      rw [hsame.parent] at hi
      exact ⟨n, (hm.above _ n hi).1, h.right⟩
  constructor
  case next =>
    rw [hsame.next]
    exact BitVec.eq_of_toNat_eq hm.next
  case queue =>
    intro i
    rw [hsame.inq, ← Bool.not_eq_true, ← Arena.mem_queue, Arena.drop_queue, hm.queue_final]
    simp
  case leaves => exact fun sym => by rw [hsame.count, hsame.right]; exact hm.leaves sym
  case root =>
    rw [hsame.parent]
    refine ⟨hm.root_parent, ?_⟩
    rw [← Bool.not_eq_true, hbits]
    rintro ⟨n, hn, hright⟩
    obtain ⟨l, r, h⟩ := hm.joins n hn n.isLt
    cases (hjoins h).right.symm.trans hright
    have hchild := (h.only rootIdx).2 (.inr rfl)
    rw [hm.root_parent] at hchild
    cases hchild
  case above =>
    intro i hi
    rw [hsame.parent]
    rcases hp : (m.drop rootIdx).node[i].parent with _ | p
    · have hqueued := (hm.queued i).2 ⟨i.isLt, hp⟩
      rw [hm.queue_final] at hqueued
      exact absurd (Finset.mem_singleton.1 hqueued) hi
    · obtain ⟨hlow, hlt, -⟩ := hm.above i p hp
      exact ⟨p, rfl, hlow, hlt⟩
  case children =>
    intro n hn
    obtain ⟨l, r, h⟩ := hm.joins n hn n.isLt
    have h := hjoins h
    have hl := (h.only l).2 (.inl rfl)
    have hr := (h.only r).2 (.inr rfl)
    refine ⟨l, r, h.distinct, h.only, h.right, h.count, h.heavier, ?_, (hbit h hr).2 rfl⟩
    rw [← Bool.not_eq_true, hbit h hl]
    exact h.distinct
  case total => rw [hsame.count, ← hm.total, hm.queue_final, Finset.sum_singleton]; rfl

theorem buildTree_built {tb : Tiebreak} (htb : LegalTiebreak tb) {cw : Nat} {freq : Vector Nat 256}
    (hfreq : ∀ sym : Symbol, freq[sym] < 2 ^ cw) :
    ∃ a, buildTree tb (cw + 8) freq = .marked a ∧ BuiltTree freq a := by
  obtain ⟨a, hmarked, hsame, hbits⟩ := buildTree_eq_marked htb (narrow_total hfreq)
  exact ⟨a, hmarked, builtTree_of_merging (merging_mergedTree htb (narrow_total hfreq)) hsame hbits⟩

/-! ## The obligations -/

/-- `BUILD` where it is performed, on a table of `CW`-bit counts. -/
theorem exec_build {s : State} (hphase : s.phase = .idle ∨ s.phase = .counted)
    (hfreq : ∀ sym : Symbol, s.freq[sym] < 2 ^ s.cfg.cw) :
    ∃ a, exec .build s = .next ((s.withTree a).respond (Response.done (∑ sym : Symbol, s.freq[sym]))) ∧
      buildTree indexAsc s.cfg.ncw s.freq = .marked a ∧ BuiltTree s.freq a := by
  obtain ⟨a, hmarked, hbuilt⟩ := buildTree_built indexAsc_legal hfreq
  have hlegal : legalIn .build s.phase = true := by simpa [legalIn] using hphase
  refine ⟨a, ?_, hmarked, hbuilt⟩
  rw [← hbuilt.total]
  exact congrArg _ (command_done (i := .build) rfl hlegal (buildStage_marked hmarked))

/-- Settles O21: every table of counts has its tree, and the root weighs what the symbols do together. -/
theorem buildBuildsTheTree : Obligations.BuildBuildsTheTree := by
  refine ⟨by decide, fun s hphase hfreq => ?_, sequencedIn_legalPhases .build, refusedInFault rfl⟩
  obtain ⟨a, hexec, -, hbuilt⟩ := exec_build hphase hfreq
  exact ⟨a, hexec, hbuilt⟩

end Sys2Proof.Machine
end

section
/-! The walks of EXTRACT and the paths of a node array (42_lut_generator.md R171, R172), and that in a built tree every
node reaches the root (41_tree_builder.md R151, R158). -/

namespace Sys2Proof.Machine

/-! ## Walks and paths -/

/-- A node has one path. -/
theorem RootPath.unique {node : Vector Node 511} {i : NodeIdx} {bits bits' : List Bool} (h : RootPath node i bits)
    (h' : RootPath node i bits') : bits = bits' := by
  induction h generalizing bits' with
  | root i hroot =>
    cases h' with
    | root => rfl
    | link _ _ _ hp _ => rw [hroot] at hp; cases hp
  | link i p bits hp _ ih =>
    cases h' with
    | root _ hroot => rw [hroot] at hp; cases hp
    | link _ p' _ hp' h' =>
      cases hp.symm.trans hp'
      rw [ih h']

/-- Along a path that fits an Encoding the walk pushes its bits and ends at the root (42_lut_generator.md R172). -/
theorem walkUp_of_path {node : Vector Node 511} {i : NodeIdx} {bits : List Bool} (h : RootPath node i bits)
    {fuel : Nat} {et : Encoding} (hfuel : bits.length < fuel) (hfit : et.len.toNat + bits.length ≤ 255) :
    ∃ et', walkUp node fuel i et = .root et' ∧ et'.bits = et.bits ++ bits := by
  induction h generalizing fuel et with
  | root i hroot =>
    obtain ⟨fuel, rfl⟩ : ∃ k, fuel = k + 1 := ⟨fuel - 1, by rw [List.length_nil] at hfuel; omega⟩
    exact ⟨et, by rw [walkUp]; simp only [hroot], by simp⟩
  | link i p bits hp _ ih =>
    rw [List.length_cons] at hfuel hfit
    obtain ⟨fuel, rfl⟩ : ∃ k, fuel = k + 1 := ⟨fuel - 1, by omega⟩
    rcases encPush_cases et node[i].bit with ⟨hfull, -⟩ | ⟨hne, hpush, hbits⟩
    · rw [hfull] at hfit
      simp at hfit
    · obtain ⟨et', hwalk, het'⟩ := ih (fuel := fuel) (et := et.append node[i].bit) (by omega)
        (by rw [Encoding.len_append _ hne]; omega)
      exact ⟨et', by rw [walkUp]; simp only [hp, hpush, hwalk], by rw [het', hbits, List.append_assoc]; rfl⟩

/-- A walk that ends at the root has pushed the bits of the path (42_lut_generator.md R172). -/
theorem path_of_walkUp {node : Vector Node 511} {fuel : Nat} {i : NodeIdx} {et et' : Encoding}
    (h : walkUp node fuel i et = .root et') : ∃ bits, RootPath node i bits ∧ et'.bits = et.bits ++ bits := by
  induction fuel generalizing i et with
  | zero => cases h
  | succ fuel ih =>
    rw [walkUp] at h
    split at h
    next hroot =>
      cases h
      exact ⟨[], .root i hroot, (List.append_nil _).symm⟩
    next p hp =>
      rcases encPush_cases et node[i].bit with ⟨-, hpush⟩ | ⟨-, hpush, hbits⟩
      · rw [hpush] at h
        cases h
      · rw [hpush] at h
        obtain ⟨bits, hpath, het'⟩ := ih h
        exact ⟨_, .link i p bits hp hpath, by rw [het', hbits, List.append_assoc]; rfl⟩

/-- The leaf of a symbol is at most 255 links from a root. -/
def Reaches (node : Vector Node 511) (sym : Symbol) : Prop := ∃ bits, RootPath node (leafOf sym) bits ∧ bits.length ≤ 255

theorem walkFrom_of_reaches {node : Vector Node 511} {sym : Symbol} (h : Reaches node sym) :
    ∃ et, walkFrom node sym = .root et := by
  obtain ⟨bits, hpath, hlen⟩ := h
  obtain ⟨et, hwalk, -⟩ := walkUp_of_path hpath (fuel := 256) (et := Encoding.empty) (by omega)
    (by simpa [Encoding.empty] using hlen)
  exact ⟨et, hwalk⟩

/-- A code is the path to the leaf, root end first, with zero padding (42_lut_generator.md R172). -/
theorem CodeOf.path {node : Vector Node 511} {lut : Vector Encoding 256} {sym : Symbol} (h : CodeOf node lut sym) :
    ∃ bits, RootPath node (leafOf sym) bits ∧ lut[sym].bits = bits.reverse ∧ lut[sym].padded = true := by
  obtain ⟨et, hwalk, hcode⟩ := h
  obtain ⟨bits, hpath, het⟩ := path_of_walkUp hwalk
  obtain ⟨hbits, hpadded⟩ := encReverse_spec et
  exact ⟨bits, hpath, by rw [hcode, hbits, het, Encoding.bits_empty, List.nil_append], hcode ▸ hpadded⟩

theorem CodeOf.reaches {node : Vector Node 511} {lut : Vector Encoding 256} {sym : Symbol} (h : CodeOf node lut sym) :
    Reaches node sym := by
  obtain ⟨bits, hpath, hcode, -⟩ := h.path
  have hlen : bits.length = lut[sym].len.toNat := by rw [← Encoding.length_bits, hcode, List.length_reverse]
  have hlt : lut[sym].len.toNat < 256 := lut[sym].len.isLt
  exact ⟨bits, hpath, by omega⟩

theorem not_reaches_of_overflow {node : Vector Node 511} {sym : Symbol} {et : Encoding}
    (h : walkFrom node sym = .overflow et) : ¬ Reaches node sym := by
  intro hreach
  obtain ⟨et', hwalk⟩ := walkFrom_of_reaches hreach
  cases h.symm.trans hwalk

/-! ## The obligations on EXTRACT -/

/-- `EXTRACT` where it is performed and every leaf is near enough to a root. -/
theorem exec_extract {s : State} (hbuilt : s.phase = .built) (hreach : ∀ sym, Reaches s.arena.node sym) :
    ∃ lut et, exec .extract s =
        .next ({ s.withCodes lut et with phase := .extracted }.respond (Response.done 0)) ∧
      CodesOf s.arena.node lut := by
  rcases extractStage_cases s with ⟨lut, et, hdone, hcodes⟩ | ⟨k, lut, et, et', hover, -⟩
  · exact ⟨lut, et, congrArg _ (command_done (i := .extract) rfl (decide_eq_true hbuilt) hdone), hcodes⟩
  · exact absurd (hreach k) (not_reaches_of_overflow hover)

/-- Settles O26: each code is the path the walk went, and a leaf has only one. -/
theorem extractReadsThePathsOfTheTree : Obligations.ExtractReadsThePathsOfTheTree := by
  refine ⟨by decide, fun s hbuilt hreach => ?_, sequencedIn_legalPhases .extract, refusedInFault rfl⟩
  obtain ⟨lut, et, hexec, hcodes⟩ := exec_extract hbuilt hreach
  refine ⟨lut, et, hexec, fun sym bits hpath => ?_⟩
  obtain ⟨bits', hpath', hcode, hpadded⟩ := CodeOf.path (hcodes sym)
  exact ⟨hpath.unique hpath' ▸ hcode, hpadded⟩

/-- `FINFO` holds every number of 32 bits whole. -/
theorem narrow_of_lt {c : Config} (hcfg : c.legal = true) {n : Nat} (h : n < 2 ^ 32) : narrow c.bw n = n := by
  have hword := narrow_word hcfg (BitVec.ofNat 32 n)
  rwa [BitVec.toNat_ofNat, Nat.mod_eq_of_lt h] at hword

/-- Settles O27: the symbol whose walk overflows is the first one that does not reach a root. -/
theorem extractOverflowsAtTheFirstLongPath : Obligations.ExtractOverflowsAtTheFirstLongPath := by
  intro s k hcfg hbuilt hbefore hlong
  rcases extractStage_cases s with ⟨lut, et, -, hcodes⟩ | ⟨k', lut, et, et', hover, hraised, hcodes, hkept⟩
  · exact absurd (CodeOf.reaches (hcodes k)) hlong
  · obtain rfl : k' = k := by
      rcases lt_trichotomy k' k with hlt | heq | hlt
      · exact absurd (hbefore k' hlt) (not_reaches_of_overflow hover)
      · exact heq
      · exact absurd (hcodes k hlt).reaches hlong
    have hk : k'.val < 2 ^ 32 := k'.isLt.trans (by decide)
    have hexec : exec .extract s = .next ((s.withCodes lut et).raise .encOverflow k'.val) :=
      congrArg _ (command_raised (i := .extract) rfl (decide_eq_true hbuilt) hraised)
    exact ⟨_, hexec, ⟨rfl, rfl, narrow_of_lt hcfg hk, rfl, rfl⟩, rfl, rfl, hkept,
      ⟨inByte_congr rfl, outByte_congr rfl⟩, ⟨rfl, rfl, rfl⟩, ⟨rfl, rfl⟩, rfl, rfl⟩

/-! ## Paths in a built tree -/

section
variable {freq : Vector Nat 256} {a : Arena} (h : BuiltTree freq a)
include h

/-- An internal node is at most as many links from the root as there are nodes above it. -/
theorem BuiltTree.path_of_internal (i : NodeIdx) (hi : 256 ≤ i.val) :
    ∃ bits, RootPath a.node i bits ∧ bits.length + i.val ≤ 510 := by
  induction hk : 510 - i.val using Nat.strong_induction_on generalizing i with
  | _ k ih =>
    by_cases hroot : i = rootIdx
    · subst hroot
      exact ⟨[], .root _ h.root.1, by simp [rootIdx]⟩
    · obtain ⟨p, hp, hlow, hlt⟩ := h.above i hroot
      have hlt : i.val < p.val := hlt
      obtain ⟨bits, hpath, hlen⟩ := ih (510 - p.val) (by omega) p hlow rfl
      exact ⟨_, .link i p bits hp hpath, by rw [List.length_cons]; omega⟩

/-- Every node is at most 255 links from the root (41_tree_builder.md R158). -/
theorem BuiltTree.path (i : NodeIdx) : ∃ bits, RootPath a.node i bits ∧ bits.length ≤ 255 := by
  by_cases hroot : i = rootIdx
  · subst hroot
    exact ⟨[], .root _ h.root.1, by simp⟩
  · obtain ⟨p, hp, hlow, -⟩ := h.above i hroot
    obtain ⟨bits, hpath, hlen⟩ := h.path_of_internal p hlow
    exact ⟨_, .link i p bits hp hpath, by rw [List.length_cons]; omega⟩

/-- Every built tree has its code table (42_lut_generator.md R171). -/
theorem BuiltTree.codes : ∃ lut, CodesOf a.node lut := by
  choose et hwalk using fun sym => walkFrom_of_reaches (node := a.node) (h.path (leafOf sym))
  exact ⟨Vector.ofFn fun sym => encReverse (et sym), fun sym => ⟨et sym, hwalk sym, by simp⟩⟩

end

/-- Settles O22. -/
theorem everyTiebreakBuildsAHuffmanTree : Obligations.EveryTiebreakBuildsAHuffmanTree := by
  intro tb cw freq htb hfreq
  obtain ⟨a, hmarked, hbuilt⟩ := buildTree_built htb hfreq
  exact ⟨a, hmarked, hbuilt, hbuilt.path⟩

end Sys2Proof.Machine
end

section
/-! The laws of the codes of a built tree: depth, no code beginning another, completeness (42_lut_generator.md R173 to
R175). -/

namespace Sys2Proof.Machine

/-- A path that ends with `bits` passes a node that has the path `bits`; if it is not the node it began at, that node
has a child. -/
theorem RootPath.split {node : Vector Node 511} {pre bits : List Bool} {j : NodeIdx}
    (h : RootPath node j (pre ++ bits)) :
    ∃ k, RootPath node k bits ∧ (k = j ∧ pre = [] ∨ ∃ c : NodeIdx, node[c].parent = some k) := by
  induction pre generalizing j with
  | nil => exact ⟨j, h, .inl ⟨rfl, rfl⟩⟩
  | cons b pre ih =>
    cases h with
    | link _ p _ hp hrest =>
      obtain ⟨k, hk, ⟨rfl, -⟩ | hchild⟩ := ih hrest
      · exact ⟨_, hk, .inr ⟨j, hp⟩⟩
      · exact ⟨k, hk, .inr hchild⟩

section
variable {freq : Vector Nat 256} {a : Arena} (h : BuiltTree freq a)
include h

theorem BuiltTree.eq_root {i : NodeIdx} (hi : a.node[i].parent = none) : i = rootIdx := by
  by_contra hne
  obtain ⟨p, hp, -⟩ := h.above i hne
  rw [hi] at hp
  cases hp

/-- The leaves have no children. -/
theorem BuiltTree.internal_of_child {i p : NodeIdx} (hp : a.node[i].parent = some p) : 256 ≤ p.val := by
  have hne : i ≠ rootIdx := by
    rintro rfl
    rw [h.root.1] at hp
    cases hp
  obtain ⟨p', hp', hlow, -⟩ := h.above i hne
  cases hp'.symm.trans hp
  exact hlow

/-- Two nodes with one parent and the same bit are one node (41_tree_builder.md R151). -/
theorem BuiltTree.eq_of_bit {i j p : NodeIdx} (hi : a.node[i].parent = some p) (hj : a.node[j].parent = some p)
    (hbit : a.node[i].bit = a.node[j].bit) : i = j := by
  obtain ⟨l, r, hc⟩ := h.children p (h.internal_of_child hi)
  obtain ⟨hl, hr⟩ := hc.bits
  rcases (hc.only i).1 hi with rfl | rfl <;> rcases (hc.only j).1 hj with rfl | rfl
  · rfl
  · rw [hl, hr] at hbit; cases hbit
  · rw [hl, hr] at hbit; cases hbit
  · rfl

/-- The path determines the node. -/
theorem BuiltTree.eq_of_path {i j : NodeIdx} {bits : List Bool} (hi : RootPath a.node i bits)
    (hj : RootPath a.node j bits) : i = j := by
  generalize hb : bits = bits' at hj
  induction hi generalizing j bits' with
  | root i hi =>
    subst hb
    cases hj with
    | root _ hj => rw [h.eq_root hi, h.eq_root hj]
  | link i p bits hp _ ih =>
    cases hj with
    | root => cases hb
    | link _ p' bits' hp' hrest =>
      rw [List.cons.injEq] at hb
      obtain ⟨hbit, rfl⟩ := hb
      obtain rfl := ih _ rfl hrest
      exact h.eq_of_bit hp hp' hbit

/-- No path to a leaf ends with the path to another leaf. -/
theorem BuiltTree.eq_of_suffix {x y : Symbol} {bx by' : List Bool} (hx : RootPath a.node (leafOf x) bx)
    (hy : RootPath a.node (leafOf y) by') (hsuffix : bx <:+ by') : x = y := by
  obtain ⟨pre, rfl⟩ := hsuffix
  obtain ⟨k, hk, hcase⟩ := hy.split
  obtain rfl := h.eq_of_path hk hx
  rcases hcase with ⟨heq, -⟩ | ⟨c, hc⟩
  · exact Fin.ext (congrArg (fun i : NodeIdx => i.val) heq)
  · exact absurd (h.internal_of_child hc) (Nat.not_le.2 x.isLt)

section
variable {lut : Vector Encoding 256} (hcodes : CodesOf a.node lut)
include hcodes

/-- No code begins another: no path to a leaf ends with another one (42_lut_generator.md R174). -/
theorem BuiltTree.prefixFree : CodesPrefixFree lut := by
  intro x y hne hprefix
  obtain ⟨bx, hx, hcx, -⟩ := CodeOf.path (hcodes x)
  obtain ⟨by', hy, hcy, -⟩ := CodeOf.path (hcodes y)
  rw [hcx, hcy, List.reverse_prefix] at hprefix
  exact hne (h.eq_of_suffix hx hy hprefix)

/-- A code has at least one bit: no leaf is the root (42_lut_generator.md R173). -/
theorem BuiltTree.one_le_len (sym : Symbol) : 1 ≤ lut[sym].len.toNat := by
  obtain ⟨bits, hpath, hcode, -⟩ := CodeOf.path (hcodes sym)
  rw [← Encoding.length_bits, hcode, List.length_reverse]
  cases hpath with
  | root _ hroot =>
    have hval : sym.val = 510 := congrArg (fun i : NodeIdx => i.val) (h.eq_root hroot)
    omega
  | link => simp

end

end

/-- The length of a code is the length of the path. -/
theorem CodeOf.len_eq {node : Vector Node 511} {lut : Vector Encoding 256} {sym : Symbol} (h : CodeOf node lut sym)
    {bits : List Bool} (hpath : RootPath node (leafOf sym) bits) : lut[sym].len.toNat = bits.length := by
  obtain ⟨bits', hpath', hcode, -⟩ := h.path
  rw [← Encoding.length_bits, hcode, List.length_reverse, hpath.unique hpath']

/-- Settles O28. -/
theorem codesOfATreeArePrefixFree : Obligations.CodesOfATreeArePrefixFree := by
  intro freq a h
  obtain ⟨lut, hcodes⟩ := h.codes
  refine ⟨lut, hcodes, h.prefixFree hcodes, fun sym => ?_⟩
  obtain ⟨bits, hpath, -, hpadded⟩ := CodeOf.path (hcodes sym)
  exact ⟨h.one_le_len hcodes sym, hpadded, bits, hpath, CodeOf.len_eq (hcodes sym) hpath⟩

/-! ## Sums over a built tree -/

/-- The nodes that a merge made. -/
def innerNodes : Finset NodeIdx := Finset.univ.filter fun i => ¬ i.val < 256

theorem mem_innerNodes {n : NodeIdx} : n ∈ innerNodes ↔ 256 ≤ n.val := by simp [innerNodes]

section
variable {freq : Vector Nat 256} {a : Arena} (h : BuiltTree freq a)
include h

/-- Every node but the root is a child once: if the values of two children add up to `g` of the parent, then the values
of all nodes but the root add up to `g` of all internal nodes. -/
theorem BuiltTree.sum_children {f g : NodeIdx → Nat}
    (hfg : ∀ n l r, Children a.node n l r → f l + f r = g n) :
    ∑ i ∈ Finset.univ.erase rootIdx, f i = ∑ n ∈ innerNodes, g n := by
  have hmaps : ∀ i ∈ Finset.univ.erase rootIdx, (a.node[i].parent).getD rootIdx ∈ innerNodes := by
    intro i hi
    obtain ⟨p, hp, hlow, -⟩ := h.above i (Finset.ne_of_mem_erase hi)
    rw [hp]
    exact mem_innerNodes.2 hlow
  rw [← Finset.sum_fiberwise_of_maps_to hmaps]
  refine Finset.sum_congr rfl fun n hn => ?_
  obtain ⟨l, r, hc⟩ := h.children n (mem_innerNodes.1 hn)
  have hfiber : (Finset.univ.erase rootIdx).filter (fun i => (a.node[i].parent).getD rootIdx = n) = {l, r} := by
    ext i
    rw [Finset.mem_filter, Finset.mem_insert, Finset.mem_singleton, ← hc.only]
    constructor
    · rintro ⟨hi, hparent⟩
      obtain ⟨p, hp, -⟩ := h.above i (Finset.ne_of_mem_erase hi)
      rw [hp] at hparent ⊢
      exact congrArg some hparent
    · intro hp
      refine ⟨Finset.mem_erase.2 ⟨?_, Finset.mem_univ i⟩, by rw [hp]; rfl⟩
      rintro rfl
      rw [h.root.1] at hp
      cases hp
  rw [hfiber, Finset.sum_pair hc.distinct, hfg n l r hc]

/-- The same with the leaves apart. -/
theorem BuiltTree.sum_leaves {f g : NodeIdx → Nat} (hfg : ∀ n l r, Children a.node n l r → f l + f r = g n) :
    ∑ sym : Symbol, f (leafOf sym) + ∑ n ∈ innerNodes, f n = f rootIdx + ∑ n ∈ innerNodes, g n := by
  rw [← Machine.sum_leaves, innerNodes, Finset.sum_filter_add_sum_filter_not, ← innerNodes, ← h.sum_children hfg,
    Finset.add_sum_erase _ _ (Finset.mem_univ _)]

/-- Every node's depth: 0 at the root, one more at a child (42_lut_generator.md R173). -/
theorem BuiltTree.exists_depth : ∃ depth : NodeIdx → Nat, (∀ i, depth i ≤ 255) ∧ depth rootIdx = 0 ∧
    (∀ n l r, Children a.node n l r → depth l = depth n + 1 ∧ depth r = depth n + 1) ∧
    ∀ sym bits, RootPath a.node (leafOf sym) bits → depth (leafOf sym) = bits.length := by
  choose path hpath hlen using h.path
  have hchild {i n : NodeIdx} (hp : a.node[i].parent = some n) : (path i).length = (path n).length + 1 := by
    rw [(hpath i).unique (.link i n _ hp (hpath n)), List.length_cons]
  refine ⟨fun i => (path i).length, hlen, ?_, fun n l r hc => ?_, fun sym bits hbits => ?_⟩
  · exact congrArg List.length ((hpath rootIdx).unique (.root _ h.root.1))
  · exact ⟨hchild ((hc.only l).2 (.inl rfl)), hchild ((hc.only r).2 (.inr rfl))⟩
  · exact congrArg List.length ((hpath _).unique hbits)

variable {lut : Vector Encoding 256} (hcodes : CodesOf a.node lut)
include hcodes

/-- The weights `2^(-depth)` of two children add up to that of the parent, so those of the leaves add up to that of the
root (42_lut_generator.md R175). -/
theorem BuiltTree.complete : CodesComplete lut := by
  obtain ⟨depth, hle, hroot, hchild, hleaf⟩ := h.exists_depth
  have hsum := h.sum_leaves (f := fun i => 2 ^ (255 - depth i)) (g := fun n => 2 ^ (255 - depth n))
    fun n l r hc => by
      obtain ⟨hl, hr⟩ := hchild n l r hc
      have hn : 255 - depth n = 255 - (depth n + 1) + 1 := by have := hle l; omega
      simp only [hl, hr]
      rw [hn, pow_succ]
      omega
  simp only [hroot, Nat.sub_zero, Nat.add_right_cancel_iff] at hsum
  rw [CodesComplete, ← hsum]
  refine Finset.sum_congr rfl fun sym _ => ?_
  obtain ⟨bits, hpath, -⟩ := CodeOf.path (hcodes sym)
  rw [CodeOf.len_eq (hcodes sym) hpath, hleaf sym bits hpath]

/-- The counts of the internal nodes add up to the packed size: a leaf's count is counted once in each node above it
(41_tree_builder.md R157). -/
theorem BuiltTree.weightedLength_eq : weightedLength freq lut = ∑ n ∈ innerNodes, a.node[n].count := by
  obtain ⟨depth, -, hroot, hchild, hleaf⟩ := h.exists_depth
  have hsum := h.sum_leaves (f := fun i => a.node[i].count * depth i)
    (g := fun n => a.node[n].count * depth n + a.node[n].count) fun n l r hc => by
      obtain ⟨hl, hr⟩ := hchild n l r hc
      simp only [hl, hr, hc.count]
      ring
  rw [Finset.sum_add_distrib, hroot, mul_zero, zero_add, add_comm, Nat.add_left_cancel_iff] at hsum
  rw [weightedLength, ← hsum]
  refine Finset.sum_congr rfl fun sym _ => ?_
  obtain ⟨bits, hpath, -⟩ := CodeOf.path (hcodes sym)
  rw [CodeOf.len_eq (hcodes sym) hpath, hleaf sym bits hpath, (h.leaves sym).1]

end

/-! ## Every bit string begins with one code -/

/-- The walk down the tree along a bit string ends at a leaf. -/
theorem BuiltTree.leaf_of_stream {freq : Vector Nat 256} {a : Arena} (h : BuiltTree freq a) (stream : Nat → Bool)
    (i : NodeIdx) (bits : List Bool) (hpath : RootPath a.node i bits)
    (hmatch : bits.reverse = (List.range bits.length).map stream) :
    ∃ (sym : Symbol) (bits : List Bool), RootPath a.node (leafOf sym) bits ∧
      bits.reverse = (List.range bits.length).map stream := by
  induction hk : i.val using Nat.strong_induction_on generalizing i bits with
  | _ k ih =>
    by_cases hi : i.val < 256
    · exact ⟨⟨i.val, hi⟩, bits, hpath, hmatch⟩
    · obtain ⟨l, r, hc⟩ := h.children i (Nat.not_lt.1 hi)
      obtain ⟨hl, hr⟩ := hc.bits
      obtain ⟨c, hparent, hbit⟩ : ∃ c : NodeIdx, a.node[c].parent = some i ∧ a.node[c].bit = stream bits.length := by
        cases hb : stream bits.length
        · exact ⟨l, (hc.only l).2 (.inl rfl), hl⟩
        · exact ⟨r, (hc.only r).2 (.inr rfl), hr⟩
      have hne : c ≠ rootIdx := by
        rintro rfl
        rw [h.root.1] at hparent
        cases hparent
      obtain ⟨p, hp, -, hlt⟩ := h.above c hne
      cases hp.symm.trans hparent
      refine ih c.val (hk ▸ hlt) c _ (.link c i bits hparent hpath) ?_ rfl
      rw [List.reverse_cons, hmatch, List.length_cons, List.range_succ, List.map_append, hbit]
      rfl

/-- An Encoding is matched by a bit string exactly when its bits are the first ones of it. -/
theorem matches_iff (e : Encoding) (stream : Nat → Bool) :
    (∀ i < e.len.toNat, e.bitAt i = stream i) ↔ e.bits = (List.range e.len.toNat).map stream := by
  rw [Encoding.bits, List.map_inj_left]
  simp only [List.mem_range]

/-- A shorter beginning of a bit string begins a longer one. -/
theorem prefix_of_le (stream : Nat → Bool) {m n : Nat} (h : m ≤ n) :
    (List.range m).map stream <+: (List.range n).map stream := by
  obtain ⟨k, rfl⟩ := Nat.exists_eq_add_of_le h
  rw [List.range_add, List.map_append]
  exact List.prefix_append _ _

/-- Where no code begins another, at most one code begins a bit string. -/
theorem CodesPrefixFree.eq_of_matches {lut : Vector Encoding 256} (h : CodesPrefixFree lut) {stream : Nat → Bool}
    {x y : Symbol} (hx : lut[x].bits = (List.range lut[x].len.toNat).map stream)
    (hy : lut[y].bits = (List.range lut[y].len.toNat).map stream) : x = y := by
  by_contra hne
  rcases le_total lut[x].len.toNat lut[y].len.toNat with hle | hle
  · exact h x y hne (by rw [hx, hy]; exact prefix_of_le stream hle)
  · exact h y x (Ne.symm hne) (by rw [hx, hy]; exact prefix_of_le stream hle)

/-- Settles O29: the sum by `BuiltTree.complete`; the code a bit string begins with is that of the leaf the walk down
the tree ends at, and no other code can begin that stream. -/
theorem codesOfATreeAreComplete : Obligations.CodesOfATreeAreComplete := by
  intro freq a lut h hcodes
  refine ⟨h.complete hcodes, fun stream => ?_⟩
  obtain ⟨sym, bits, hpath, hmatch⟩ := h.leaf_of_stream stream rootIdx [] (.root _ h.root.1) rfl
  obtain ⟨bits', hpath', hcode, -⟩ := CodeOf.path (hcodes sym)
  have hsym : lut[sym].bits = (List.range lut[sym].len.toNat).map stream := by
    rw [hcode, ← hpath.unique hpath', hmatch, CodeOf.len_eq (hcodes sym) hpath]
  refine ⟨sym, (matches_iff _ stream).2 hsym, fun y hy => ?_⟩
  exact (h.prefixFree hcodes).eq_of_matches ((matches_iff _ stream).1 hy) hsym

end Sys2Proof.Machine
end

section
/-! The tree of every legal `TIEBREAK` packs the counts in the fewest bits (41_tree_builder.md R156, R157). The idea:
code lengths that satisfy Kraft's inequality can be changed, at no cost, so that the two lightest members of the queue
have the same length `k`; a merge then goes from them to the length `k - 1` of the new node and saves its count. -/

namespace Sys2Proof.Machine

/-! ## Code lengths for a weighted set -/

section
variable {ι : Type} {Q : Finset ι} {c len : ι → Nat}

/-- The lengths satisfy Kraft's inequality. -/
def KraftLe (Q : Finset ι) (len : ι → Nat) : Prop := ∑ i ∈ Q, (1 / 2 : ℝ) ^ len i ≤ 1

/-- What a code with these lengths costs. -/
def cost (Q : Finset ι) (c len : ι → Nat) : Nat := ∑ i ∈ Q, c i * len i

/-- The lengths are no worse than `len`. -/
structure NoWorse (Q : Finset ι) (c len len' : ι → Nat) : Prop where
  kraft : KraftLe Q len'
  cost_le : cost Q c len' ≤ cost Q c len

theorem NoWorse.trans {len' len'' : ι → Nat} (h : NoWorse Q c len len') (h' : NoWorse Q c len' len'') :
    NoWorse Q c len len'' :=
  ⟨h'.kraft, h'.cost_le.trans h.cost_le⟩

variable [DecidableEq ι]

/-- A sum over a set, with two of its members apart. -/
theorem sum_eq_pair_add {M : Type} [AddCommMonoid M] {x y : ι} (hx : x ∈ Q) (hy : y ∈ Q) (hxy : x ≠ y) (f : ι → M) :
    ∑ i ∈ Q, f i = f x + f y + ∑ i ∈ (Q.erase x).erase y, f i := by
  rw [← Finset.add_sum_erase _ _ hx, ← Finset.add_sum_erase _ _ (Finset.mem_erase.2 ⟨hxy.symm, hy⟩), add_assoc]

/-- Giving the lighter of two members the longer length is no worse. -/
theorem noWorse_swap (hkraft : KraftLe Q len) {x y : ι} (hx : x ∈ Q) (hy : y ∈ Q) (hc : c x ≤ c y)
    (hlen : len x ≤ len y) : NoWorse Q c len (len ∘ Equiv.swap x y) := by
  refine ⟨?_, ?_⟩
  · have hsum := Equiv.Perm.sum_comp (Equiv.swap x y) Q (fun i => (1 / 2 : ℝ) ^ len i) fun i hi => by
      rcases Equiv.swap_apply_ne_self_iff.1 hi with ⟨-, rfl | rfl⟩
      · exact hx
      · exact hy
    rw [KraftLe] at hkraft ⊢
    exact hsum.trans_le hkraft
  · by_cases hxy : x = y
    · simp [hxy]
    · have hothers : ∑ i ∈ (Q.erase x).erase y, c i * (len ∘ Equiv.swap x y) i =
          ∑ i ∈ (Q.erase x).erase y, c i * len i := by
        refine Finset.sum_congr rfl fun i hi => ?_
        simp only [Finset.mem_erase] at hi
        rw [Function.comp_apply, Equiv.swap_apply_of_ne_of_ne hi.2.1 hi.1]
      rw [cost, cost, sum_eq_pair_add hx hy hxy, sum_eq_pair_add hx hy hxy (fun i => c i * len i), hothers]
      simp only [Function.comp_apply, Equiv.swap_apply_left, Equiv.swap_apply_right]
      exact Nat.add_le_add_right (mul_add_mul_le_mul_add_mul hc hlen) _

/-- If one length is longer than all others are at most, it can be shortened to that: the sum of the others is a multiple
of their smallest term, so it leaves room for one term of that size. -/
theorem kraftLe_shorten (hkraft : KraftLe Q len) {l : ι} {k : Nat} (hl : l ∈ Q)
    (hmax : ∀ i ∈ Q.erase l, len i ≤ k) : KraftLe Q (Function.update len l k) := by
  have hpos : (0 : ℝ) < (1 / 2) ^ k := by positivity
  have hone : (2 : ℝ) ^ k * (1 / 2) ^ k = 1 := by rw [← mul_pow]; norm_num
  have hothers : ∑ i ∈ Q.erase l, (1 / 2 : ℝ) ^ len i = (∑ i ∈ Q.erase l, 2 ^ (k - len i) : Nat) * (1 / 2) ^ k := by
    rw [Nat.cast_sum, Finset.sum_mul]
    refine Finset.sum_congr rfl fun i hi => ?_
    obtain ⟨d, hd⟩ := Nat.exists_eq_add_of_le (hmax i hi)
    rw [hd, Nat.add_sub_cancel_left, pow_add, Nat.cast_pow, Nat.cast_ofNat]
    have : (2 : ℝ) ^ d * (1 / 2) ^ d = 1 := by rw [← mul_pow]; norm_num
    linear_combination -((1 / 2 : ℝ) ^ len i) * this
  have hlt : (∑ i ∈ Q.erase l, 2 ^ (k - len i) : Nat) < 2 ^ k := by
    have hsum : ((∑ i ∈ Q.erase l, 2 ^ (k - len i) : Nat) : ℝ) * (1 / 2) ^ k < 2 ^ k * (1 / 2) ^ k := by
      rw [KraftLe, ← Finset.add_sum_erase _ _ hl, hothers] at hkraft
      have : (0 : ℝ) < (1 / 2) ^ len l := by positivity
      rw [hone]
      linarith
    exact_mod_cast lt_of_mul_lt_mul_right hsum hpos.le
  rw [KraftLe, ← Finset.add_sum_erase _ _ hl, Function.update_self]
  have hkept : ∑ i ∈ Q.erase l, (1 / 2 : ℝ) ^ Function.update len l k i = ∑ i ∈ Q.erase l, (1 / 2 : ℝ) ^ len i :=
    Finset.sum_congr rfl fun i hi => by rw [Function.update_of_ne (Finset.ne_of_mem_erase hi)]
  have hle : ((∑ i ∈ Q.erase l, 2 ^ (k - len i) : Nat) : ℝ) + 1 ≤ 2 ^ k := by exact_mod_cast hlt
  have hroom := mul_le_mul_of_nonneg_right hle hpos.le
  rw [hone] at hroom
  rw [hkept, hothers]
  linarith

/-- The two lightest members can have the same length, at no cost. -/
theorem exists_noWorse_equal (hkraft : KraftLe Q len) {l r : ι} (hl : l ∈ Q) (hr : r ∈ Q) (hlr : l ≠ r)
    (hleast : ∀ i ∈ Q, c l ≤ c i) (hnext : ∀ i ∈ Q.erase l, c r ≤ c i) :
    ∃ len', NoWorse Q c len len' ∧ len' l = len' r := by
  -- The longest length goes to `l`.
  obtain ⟨x, hx, hmax⟩ := Finset.exists_max_image Q len ⟨l, hl⟩
  have h₁ := noWorse_swap hkraft hl hx (hleast x hx) (hmax l hl)
  set len₁ := len ∘ Equiv.swap l x with hlen₁
  have hmax₁ : ∀ i ∈ Q, len₁ i ≤ len₁ l := by
    intro i hi
    rw [hlen₁, Function.comp_apply, Function.comp_apply, Equiv.swap_apply_left]
    refine hmax _ ?_
    rcases eq_or_ne i l with rfl | hil
    · rwa [Equiv.swap_apply_left]
    · rcases eq_or_ne i x with rfl | hix
      · rwa [Equiv.swap_apply_right]
      · rwa [Equiv.swap_apply_of_ne_of_ne hil hix]
  -- The longest of the others goes to `r`.
  have hr' : r ∈ Q.erase l := Finset.mem_erase.2 ⟨hlr.symm, hr⟩
  obtain ⟨y, hy, hmax'⟩ := Finset.exists_max_image (Q.erase l) len₁ ⟨r, hr'⟩
  have hyl := Finset.ne_of_mem_erase hy
  have h₂ := noWorse_swap (c := c) h₁.kraft hr (Finset.mem_of_mem_erase hy) (hnext y hy) (hmax' r hr')
  set len₂ := len₁ ∘ Equiv.swap r y with hlen₂
  have hlen₂l : len₂ l = len₁ l := by
    rw [hlen₂, Function.comp_apply, Equiv.swap_apply_of_ne_of_ne hlr hyl.symm]
  have hlen₂r : len₂ r = len₁ y := by rw [hlen₂, Function.comp_apply, Equiv.swap_apply_left]
  have hmax₂ : ∀ i ∈ Q.erase l, len₂ i ≤ len₂ r := by
    intro i hi
    rw [hlen₂r, hlen₂, Function.comp_apply]
    refine hmax' _ ?_
    rcases eq_or_ne i r with rfl | hir
    · rwa [Equiv.swap_apply_left]
    · rcases eq_or_ne i y with rfl | hiy
      · rwa [Equiv.swap_apply_right]
      · rwa [Equiv.swap_apply_of_ne_of_ne hir hiy]
  -- The length of `l` shrinks to that of `r`.
  refine ⟨Function.update len₂ l (len₂ r), (h₁.trans h₂).trans ⟨kraftLe_shorten h₂.kraft hl hmax₂, ?_⟩, ?_⟩
  · refine Finset.sum_le_sum fun i _ => Nat.mul_le_mul_left _ ?_
    rcases eq_or_ne i l with rfl | hil
    · rw [Function.update_self, hlen₂l, hlen₂r]
      exact hmax₁ y (Finset.mem_of_mem_erase hy)
    · rw [Function.update_of_ne hil]
  · rw [Function.update_self, Function.update_of_ne hlr.symm]

/-- Joining the two lightest members into one of their joint weight saves that weight. -/
theorem exists_join (hkraft : KraftLe Q len) {l r n : ι} (hl : l ∈ Q) (hr : r ∈ Q) (hlr : l ≠ r) (hn : n ∉ Q)
    (hleast : ∀ i ∈ Q, c l ≤ c i) (hnext : ∀ i ∈ Q.erase l, c r ≤ c i) {c' : ι → Nat} (hnew : c' n = c l + c r)
    (hc' : ∀ i ∈ Q, c' i = c i) :
    ∃ len', KraftLe (insert n ((Q.erase l).erase r)) len' ∧
      cost (insert n ((Q.erase l).erase r)) c' len' + c' n ≤ cost Q c len := by
  obtain ⟨len₁, ⟨hkraft₁, hcost⟩, heq⟩ := exists_noWorse_equal hkraft hl hr hlr hleast hnext
  have hrest {i : ι} (hi : i ∈ (Q.erase l).erase r) : i ∈ Q := Finset.mem_of_mem_erase (Finset.mem_of_mem_erase hi)
  have hnrest : n ∉ (Q.erase l).erase r := fun h => hn (hrest h)
  have hsum := sum_eq_pair_add hl hr hlr fun i => (1 / 2 : ℝ) ^ len₁ i
  rw [KraftLe, hsum, heq] at hkraft₁
  have hothers : 0 ≤ ∑ i ∈ (Q.erase l).erase r, (1 / 2 : ℝ) ^ len₁ i := Finset.sum_nonneg fun i _ => by positivity
  obtain ⟨k, hk⟩ : ∃ k, len₁ r = k + 1 := by
    refine Nat.exists_eq_add_one.2 (Nat.pos_of_ne_zero fun h0 => ?_)
    rw [h0, pow_zero] at hkraft₁
    linarith
  have hkept {i : ι} (hi : i ∈ (Q.erase l).erase r) : Function.update len₁ n k i = len₁ i :=
    Function.update_of_ne (by rintro rfl; exact hnrest hi) _ _
  refine ⟨Function.update len₁ n k, ?_, ?_⟩
  · rw [KraftLe, Finset.sum_insert hnrest, Function.update_self, Finset.sum_congr rfl fun i hi => by rw [hkept hi]]
    rw [hk, pow_succ] at hkraft₁
    linarith
  · rw [cost, sum_eq_pair_add hl hr hlr, heq, hk] at hcost
    rw [cost, Finset.sum_insert hnrest, Function.update_self, hnew,
      Finset.sum_congr rfl fun i hi => by rw [hkept hi, hc' i (hrest hi)]]
    refine le_trans (le_of_eq ?_) hcost
    ring

end

/-! ## The merge loop -/

/-- What is left to pack between two merges fits under `bound`: code lengths for the queue, beside what the nodes made so
far have cost. -/
def PacksUnder (bound n : Nat) (a : Arena) : Prop :=
  ∃ len : NodeIdx → Nat, KraftLe a.queue len ∧
    cost a.queue a.weight len + ∑ m ∈ innerNodes with m.val < n, a.weight m ≤ bound

/-- The nodes made up to `n`, and `n`. -/
theorem filter_innerNodes_succ {n : NodeIdx} (hn : 256 ≤ n.val) :
    (innerNodes.filter fun m => m.val < n.val + 1) = insert n (innerNodes.filter fun m => m.val < n.val) := by
  ext m
  simp only [Finset.mem_filter, Finset.mem_insert, mem_innerNodes, Fin.ext_iff]
  omega

/-- A merge keeps what is left to pack under the bound. -/
theorem packsUnder_mergeOf {freq : Vector Nat 256} {bound ncw : Nat} {n : NodeIdx} {a : Arena} {l r : NodeIdx}
    (hm : Merging freq n.val a) (hpops : PopsTwo a l r)
    (hfit : ∀ x ≤ ∑ sym : Symbol, freq[sym], narrow ncw x = x) (h : PacksUnder bound n.val a) :
    PacksUnder bound (n.val + 1) (mergeOf ncw n l r a) := by
  obtain ⟨len, hkraft, hbound⟩ := h
  have hnew := hm.new_notMem
  obtain ⟨hl, hr⟩ := hpops.mem
  have hkept {i : NodeIdx} (hi : i < n) : (mergeOf ncw n l r a).weight i = a.weight i :=
    mergeOf_count hpops hnew hi.ne
  have hweight : (mergeOf ncw n l r a).weight n = a.weight l + a.weight r := hm.count_new hpops hfit
  obtain ⟨len', hkraft', hcost⟩ := exists_join hkraft hl hr hpops.ne hnew hpops.first.2
    (fun i hi => hpops.second_le (Finset.mem_of_mem_erase hi) (Finset.ne_of_mem_erase hi)) hweight
    fun i hi => hkept (hm.of_mem hi).1
  have hmade : ∑ m ∈ innerNodes with m.val < n.val + 1, (mergeOf ncw n l r a).weight m =
      (mergeOf ncw n l r a).weight n + ∑ m ∈ innerNodes with m.val < n.val, a.weight m := by
    rw [filter_innerNodes_succ hm.started, Finset.sum_insert (by simp)]
    exact congrArg _ (Finset.sum_congr rfl fun m hm => hkept (Finset.mem_filter.1 hm).2)
  refine ⟨len', by rw [mergeOf_queue]; exact hkraft', ?_⟩
  rw [mergeOf_queue, hmade]
  omega

/-- Code lengths for the symbols bound what there is to pack at the start. -/
theorem packsUnder_buildInit (freq : Vector Nat 256) {len : Symbol → Nat} (hkraft : ∑ sym, (1 / 2 : ℝ) ^ len sym ≤ 1) :
    PacksUnder (∑ sym : Symbol, freq[sym] * len sym) 256 (buildInit freq) := by
  refine ⟨fun i => if h : i.val < 256 then len ⟨i.val, h⟩ else 0, ?_, ?_⟩
  · rw [KraftLe, buildInit_queue, sum_leaves]
    simpa [leafOf] using hkraft
  · have hnone : (innerNodes.filter fun m => m.val < 256) = ∅ := by
      ext m
      simp only [Finset.mem_filter, mem_innerNodes, Finset.notMem_empty, iff_false]
      omega
    rw [hnone, Finset.sum_empty, add_zero, cost, buildInit_queue, sum_leaves]
    refine Finset.sum_le_sum fun sym _ => ?_
    rw [Arena.weight, buildInit_leaf]
    simp [leafOf]

/-- The internal nodes of the finished merges weigh no more together than any code lengths cost. -/
theorem sum_innerNodes_le {tb : Tiebreak} (htb : LegalTiebreak tb) {ncw : Nat} {freq : Vector Nat 256}
    (hfit : ∀ x ≤ ∑ sym : Symbol, freq[sym], narrow ncw x = x) {len : Symbol → Nat}
    (hkraft : ∑ sym, (1 / 2 : ℝ) ^ len sym ≤ 1) :
    ∑ m ∈ innerNodes, (mergedTree tb ncw freq).weight m ≤ ∑ sym : Symbol, freq[sym] * len sym := by
  have hfinal := mergeLoop_of_step (tb := tb) (ncw := ncw)
    (P := fun n a => Merging freq n a ∧ PacksUnder (∑ sym : Symbol, freq[sym] * len sym) n a)
    (fun n a h => h.1.next)
    (fun n a h => by
      obtain ⟨l, r, hpops, heq, hnext⟩ := merging_mergeStep htb hfit h.1
      rw [heq]
      exact ⟨hnext, packsUnder_mergeOf h.1 hpops hfit h.2⟩)
    255 ⟨merging_buildInit freq, packsUnder_buildInit freq hkraft⟩ rfl
  obtain ⟨-, len', -, hbound⟩ := hfinal
  have hall : (innerNodes.filter fun m => m.val < 511) = innerNodes := Finset.filter_true_of_mem fun m _ => m.isLt
  rw [hall] at hbound
  exact (Nat.le_add_left _ _).trans hbound

/-- The codes of the tree of every legal `TIEBREAK` cost no more than any lengths that satisfy Kraft's inequality. -/
theorem weightedLength_le {tb : Tiebreak} (htb : LegalTiebreak tb) {cw : Nat} {freq : Vector Nat 256}
    (hfreq : ∀ sym : Symbol, freq[sym] < 2 ^ cw) {a : Arena} (hmarked : buildTree tb (cw + 8) freq = .marked a)
    {lut : Vector Encoding 256} (hcodes : CodesOf a.node lut) {len : Symbol → Nat}
    (hkraft : ∑ sym, (1 / 2 : ℝ) ^ len sym ≤ 1) :
    weightedLength freq lut ≤ ∑ sym : Symbol, freq[sym] * len sym := by
  obtain ⟨a', hmarked', hsame, hbits⟩ := buildTree_eq_marked htb (narrow_total hfreq)
  cases hmarked'.symm.trans hmarked
  have hbuilt := builtTree_of_merging (merging_mergedTree htb (narrow_total hfreq)) hsame hbits
  rw [hbuilt.weightedLength_eq hcodes, Finset.sum_congr rfl fun n _ => hsame.count n]
  exact sum_innerNodes_le htb (narrow_total hfreq) hkraft

/-! ## Prefix codes -/

/-- A set of words none of which begins another is uniquely decodable. -/
theorem uniquelyDecodable_of_prefixFree {S : Set (List Bool)} (hne : [] ∉ S)
    (hfree : ∀ w ∈ S, ∀ w' ∈ S, w <+: w' → w = w') : InformationTheory.UniquelyDecodable S := by
  intro L₁ L₂ h₁ h₂ heq
  induction L₁ generalizing L₂ with
  | nil =>
    cases L₂ with
    | nil => rfl
    | cons w L₂ =>
      obtain ⟨rfl, -⟩ := List.append_eq_nil_iff.1 (List.flatten_cons ▸ heq.symm)
      exact absurd (h₂ [] List.mem_cons_self) hne
  | cons w L₁ ih =>
    cases L₂ with
    | nil =>
      obtain ⟨rfl, -⟩ := List.append_eq_nil_iff.1 (List.flatten_cons ▸ heq)
      exact absurd (h₁ [] List.mem_cons_self) hne
    | cons w' L₂ =>
      rw [List.flatten_cons, List.flatten_cons] at heq
      have hw := h₁ w List.mem_cons_self
      have hw' := h₂ w' List.mem_cons_self
      obtain rfl : w = w' := by
        have hprefix : w <+: w' ++ L₂.flatten := heq ▸ List.prefix_append _ _
        rcases List.prefix_or_prefix_of_prefix hprefix (List.prefix_append w' L₂.flatten) with h | h
        · exact hfree w hw w' hw' h
        · exact (hfree w' hw' w hw h).symm
      rw [ih L₂ (fun v hv => h₁ v (List.mem_cons_of_mem _ hv)) (fun v hv => h₂ v (List.mem_cons_of_mem _ hv))
        (List.append_cancel_left heq)]

/-- The lengths of code words none of which begins another satisfy Kraft's inequality. -/
theorem kraft_of_prefixFree {code : Symbol → List Bool} (hfree : ∀ x y, x ≠ y → ¬ code x <+: code y) :
    ∑ sym, (1 / 2 : ℝ) ^ (code sym).length ≤ 1 := by
  have hinj : Function.Injective code := by
    intro x y heq
    by_contra hne
    exact hfree x y hne (heq ▸ List.prefix_refl _)
  have hdecodable : InformationTheory.UniquelyDecodable (↑(Finset.univ.image code) : Set (List Bool)) := by
    apply uniquelyDecodable_of_prefixFree
    · simp only [Finset.coe_image, Finset.coe_univ, Set.image_univ, Set.mem_range, not_exists]
      intro x hx
      exact hfree x (x + 1) (by simp) (hx ▸ List.nil_prefix)
    · simp only [Finset.coe_image, Finset.coe_univ, Set.image_univ, Set.mem_range]
      rintro _ ⟨x, rfl⟩ _ ⟨y, rfl⟩ hprefix
      by_contra hne
      exact hfree x y (fun h => hne (h ▸ rfl)) hprefix
  have hkraft := InformationTheory.kraft_mcmillan_inequality hdecodable
  rwa [Finset.sum_image hinj.injOn, Fintype.card_bool, Nat.cast_ofNat] at hkraft

/-! ## The obligations -/

/-- Settles O23: the code words satisfy Kraft's inequality, and no such lengths cost less than the tree. -/
theorem noPrefixCodeIsShorter : Obligations.NoPrefixCodeIsShorter := by
  intro tb cw freq code htb hfreq hfree
  obtain ⟨a, hmarked, hbuilt⟩ := buildTree_built htb hfreq
  obtain ⟨lut, hcodes⟩ := hbuilt.codes
  exact ⟨a, lut, hmarked, hcodes, weightedLength_le htb hfreq hmarked hcodes (kraft_of_prefixFree hfree)⟩

/-- Settles O24: no code of either tree begins another, so neither tree packs in fewer bits. -/
theorem totalSizeIsTheSameForEveryTiebreak : Obligations.TotalSizeIsTheSameForEveryTiebreak := by
  intro tb tb' cw freq htb htb' hfreq
  have hle {tb : Tiebreak} {a a' : Arena} {lut lut' : Vector Encoding 256} (htb : LegalTiebreak tb)
      (hmarked : buildTree tb (cw + 8) freq = .marked a) (hcodes : CodesOf a.node lut) (hbuilt' : BuiltTree freq a')
      (hcodes' : CodesOf a'.node lut') : weightedLength freq lut ≤ weightedLength freq lut' := by
    have hle := weightedLength_le htb hfreq hmarked hcodes (kraft_of_prefixFree (hbuilt'.prefixFree hcodes'))
    simp only [Encoding.length_bits] at hle
    exact hle
  obtain ⟨a, hmarked, hbuilt⟩ := buildTree_built htb hfreq
  obtain ⟨a', hmarked', hbuilt'⟩ := buildTree_built htb' hfreq
  obtain ⟨lut, hcodes⟩ := hbuilt.codes
  obtain ⟨lut', hcodes'⟩ := hbuilt'.codes
  exact ⟨a, a', lut, lut', hmarked, hcodes, hmarked', hcodes',
    (hle htb hmarked hcodes hbuilt' hcodes').antisymm (hle htb' hmarked' hcodes' hbuilt hcodes)⟩

end Sys2Proof.Machine
end

section
/-! The tree of equal counts (41_tree_builder.md R153): `INDEX_ASC` takes the nodes in index order, so that the `k`-th
merge joins nodes `2k` and `2k + 1`. -/

namespace Sys2Proof.Machine

/-! ## The choice of INDEX_ASC -/

/-- The member that comes before every other one is what the fold of `firstBy` ends at. -/
theorem foldl_earlier_eq {earlier : Nat × NodeIdx → Nat × NodeIdx → Bool} {m : Nat × NodeIdx}
    (ms : List (Nat × NodeIdx)) (b : Nat × NodeIdx) (hmem : m ∈ b :: ms)
    (hfirst : ∀ x ∈ b :: ms, x ≠ m → earlier m x = true ∧ earlier x m = false) :
    ms.foldl (fun best x => if earlier x best then x else best) b = m := by
  induction ms generalizing b with
  | nil => exact (List.mem_singleton.1 hmem).symm
  | cons y ys ih =>
    refine ih _ ?_ fun x hx => hfirst x ?_
    · rcases List.mem_cons.1 hmem with rfl | hmem
      · by_cases hy : y = m
        · simp [hy]
        · simp [(hfirst y (by simp) hy).2]
      · rcases List.mem_cons.1 hmem with rfl | hmem
        · by_cases hb : b = m
          · simp [hb]
          · simp [(hfirst b (by simp) hb).1]
        · exact List.mem_cons_of_mem _ hmem
    · rcases List.mem_cons.1 hx with rfl | hx
      · dsimp only
        split <;> simp
      · simp [hx]

/-- `INDEX_ASC` takes the member of lowest index when no other member weighs less. -/
theorem pqPop_indexAsc {a : Arena} {m : NodeIdx} (hm : m ∈ a.queue)
    (hfirst : ∀ x ∈ a.queue, x ≠ m → m < x ∧ a.weight m ≤ a.weight x) : pqPop indexAsc a = some (m, a.drop m) := by
  have hmem : (a.weight m, m) ∈ queueMembers a := mem_queueMembers.2 ⟨hm, rfl⟩
  have hbefore : ∀ x ∈ queueMembers a, x ≠ (a.weight m, m) →
      queuedBefore (a.weight m, m) x = true ∧ queuedBefore x (a.weight m, m) = false := by
    rintro ⟨c, x⟩ hx hne
    obtain ⟨hx, hc⟩ := mem_queueMembers.1 hx
    obtain rfl : c = a.weight x := hc
    have hxm : x ≠ m := by
      rintro rfl
      exact hne rfl
    obtain ⟨hlt, hle⟩ := hfirst x hx hxm
    have hnlt : ¬ x < m := not_lt.2 hlt.le
    simp only [queuedBefore, hlt, hnlt, decide_true, decide_false, Bool.and_true, Bool.and_false, Bool.or_false,
      ← Bool.decide_or, decide_eq_true_eq, decide_eq_false_iff_not]
    omega
  apply pqPop_of_pqMin
  rw [pqMin, indexAsc]
  cases hq : queueMembers a with
  | nil => rw [hq] at hmem; cases hmem
  | cons b ms =>
    rw [hq] at hmem hbefore
    rw [firstBy, foldl_earlier_eq ms b hmem hbefore]

/-! ## The weights -/

/-- How many leaves are under node `i` of the tree of equal counts: counted down from the root, node `511 - j` has the
children `511 - 2j` and `511 - (2j + 1)`. -/
def leavesUnder (i : Nat) : Nat := 2 ^ (8 - Nat.log 2 (511 - i))

theorem leavesUnder_mono {i j : Nat} (h : i ≤ j) : leavesUnder i ≤ leavesUnder j := by
  have := Nat.log_mono_right (b := 2) (show 511 - j ≤ 511 - i by omega)
  exact Nat.pow_le_pow_right (by decide) (by omega)

theorem leavesUnder_leaf {i : Nat} (h : i < 256) : leavesUnder i = 1 := by
  have hlog : Nat.log 2 (511 - i) = 8 := Nat.log_eq_of_pow_le_of_lt_pow (by omega) (by omega)
  rw [leavesUnder, hlog]
  rfl

theorem leavesUnder_join {n : Nat} (hn : 256 ≤ n) (hlt : n < 511) :
    leavesUnder (2 * (n - 256)) + leavesUnder (2 * (n - 256) + 1) = leavesUnder n := by
  have hlog {m : Nat} (hm : m / 2 = 511 - n) : Nat.log 2 m = Nat.log 2 (511 - n) + 1 := by
    rw [Nat.log_of_one_lt_of_le (by decide) (by omega : 2 ≤ m), hm]
  have hle : Nat.log 2 (511 - n) < 8 := Nat.log_lt_of_lt_pow (by omega) (by omega)
  obtain ⟨d, hd⟩ : ∃ d, 8 - Nat.log 2 (511 - n) = d + 1 := ⟨7 - Nat.log 2 (511 - n), by omega⟩
  have hchild {m : Nat} (hm : (511 - m) / 2 = 511 - n) : leavesUnder m = 2 ^ d := by
    rw [leavesUnder, hlog hm]
    exact congrArg _ (by omega)
  rw [hchild (by omega), hchild (by omega), leavesUnder, hd, pow_succ]
  omega

/-! ## The merges -/

/-- The parent of a node of the tree of equal counts. -/
def evenParent (i : NodeIdx) (h : i.val < 510) : NodeIdx := ⟨256 + i.val / 2, by omega⟩

/-- Between two merges of equal counts `c`, when the nodes below `n` are made. -/
structure EvenMerging (c n : Nat) (a : Arena) : Prop where
  parent : ∀ (i : NodeIdx) (h : i.val < 510), a.node[i].parent =
    if i.val < 2 * (n - 256) then some (evenParent i h) else none
  count : ∀ i : NodeIdx, i.val < n → a.weight i = c * leavesUnder i.val
  right : ∀ m : NodeIdx, 256 ≤ m.val → m.val < n → a.node[m].right.map Fin.val = some (2 * m.val - 511)

theorem evenMerging_buildInit {freq : Vector Nat 256} {c : Nat} (hfreq : ∀ sym : Symbol, freq[sym] = c) :
    EvenMerging c 256 (buildInit freq) := by
  refine ⟨fun i h => ?_, fun i hi => ?_, fun m hlow hm => absurd hm (Nat.not_lt.2 hlow)⟩
  · rw [buildInit_parent, if_neg (by omega)]
  · rw [leavesUnder_leaf hi, mul_one, ← hfreq ⟨i.val, hi⟩]
    exact congrArg Node.count (buildInit_leaf freq ⟨i.val, hi⟩)

/-- The queue holds the nodes from `2 (n - 256)` on, and its first two members are popped. -/
theorem EvenMerging.pops {freq : Vector Nat 256} {c ncw : Nat} {n l r : NodeIdx} {a : Arena}
    (hm : Merging freq n.val a) (h : EvenMerging c n.val a) (hl : l.val = 2 * (n.val - 256))
    (hr : r.val = 2 * (n.val - 256) + 1) : PopsTwo a l r ∧ mergeStep indexAsc ncw n a = mergeOf ncw n l r a := by
  have hstart := hm.started
  have hqueue {i : NodeIdx} : i ∈ a.queue ↔ l.val ≤ i.val ∧ i.val < n.val := by
    rw [hm.queued]
    by_cases hi : i.val < 510
    · rw [h.parent i hi]
      split <;> simp <;> omega
    · have := n.isLt
      omega
  have hcount {i j : NodeIdx} (hi : i ∈ a.queue) (hj : j ∈ a.queue) (hle : i.val ≤ j.val) :
      a.weight i ≤ a.weight j := by
    rw [h.count i (hqueue.1 hi).2, h.count j (hqueue.1 hj).2]
    exact Nat.mul_le_mul_left c (leavesUnder_mono hle)
  have hlq : l ∈ a.queue := hqueue.2 ⟨le_rfl, by omega⟩
  have hrq : r ∈ a.queue := hqueue.2 ⟨by omega, by omega⟩
  have hlr : r ≠ l := fun e => by rw [e] at hr; omega
  have hrd : r ∈ (a.drop l).queue := by rw [Arena.drop_queue]; exact Finset.mem_erase.2 ⟨hlr, hrq⟩
  have hdrop {x : NodeIdx} (hx : x ∈ (a.drop l).queue) : x ∈ a.queue ∧ r.val ≤ x.val := by
    rw [Arena.drop_queue, Finset.mem_erase] at hx
    obtain ⟨hxl, hx⟩ := hx
    have := hqueue.1 hx
    have : x.val ≠ l.val := fun e => hxl (Fin.ext e)
    exact ⟨hx, by omega⟩
  refine ⟨⟨⟨hlq, fun x hx => hcount hlq hx (hqueue.1 hx).1⟩, hrd, fun x hx => hcount hrq (hdrop hx).1 (hdrop hx).2⟩, ?_⟩
  apply mergeStep_of_pops
  · exact pqPop_indexAsc hlq fun x hx hne =>
      ⟨lt_of_le_of_ne (hqueue.1 hx).1 (Ne.symm hne), hcount hlq hx (hqueue.1 hx).1⟩
  · exact pqPop_indexAsc hrd fun x hx hne =>
      ⟨lt_of_le_of_ne (hdrop hx).2 (Ne.symm hne), hcount hrq (hdrop hx).1 (hdrop hx).2⟩

/-- The merge of nodes `2k` and `2k + 1` goes on to the next node. -/
theorem EvenMerging.next_mergeOf {freq : Vector Nat 256} {c ncw : Nat} {n l r : NodeIdx} {a : Arena}
    (hfit : ∀ x ≤ ∑ sym : Symbol, freq[sym], narrow ncw x = x) (hm : Merging freq n.val a)
    (h : EvenMerging c n.val a) (hl : l.val = 2 * (n.val - 256)) (hr : r.val = 2 * (n.val - 256) + 1)
    (hpops : PopsTwo a l r) : EvenMerging c (n.val + 1) (mergeOf ncw n l r a) := by
  have hstart := hm.started
  have hnew := hm.new_notMem
  constructor
  case parent =>
    intro i hi
    rw [mergeOf_parent hpops hnew, h.parent i hi]
    by_cases hchild : i = l ∨ i = r
    · have hval : i.val = l.val ∨ i.val = r.val := hchild.imp (congrArg Fin.val) (congrArg Fin.val)
      rw [if_pos hchild, if_pos (by omega)]
      exact congrArg some (Fin.ext (by simp only [evenParent]; omega))
    · have hval : ¬ (i.val = l.val ∨ i.val = r.val) := fun e => hchild (e.imp Fin.ext Fin.ext)
      have hiff : i.val < 2 * (n.val + 1 - 256) ↔ i.val < 2 * (n.val - 256) := by omega
      rw [if_neg hchild]
      simp only [hiff]
  case count =>
    intro i hi
    rcases Nat.lt_succ_iff_lt_or_eq.1 hi with hlt | heq
    · exact (mergeOf_count hpops hnew (Fin.ne_of_lt hlt)).trans (h.count i hlt)
    · obtain rfl : i = n := Fin.ext heq
      have hweight : (mergeOf ncw i l r a).weight i = a.weight l + a.weight r := hm.count_new hpops hfit
      rw [hweight, h.count l (by omega), h.count r (by omega), hl, hr, ← mul_add, leavesUnder_join hstart i.isLt]
  case right =>
    intro m hlow hmn
    rcases Nat.lt_succ_iff_lt_or_eq.1 hmn with hlt | heq
    · rw [mergeOf_right hpops hnew (Fin.ne_of_lt hlt)]
      exact h.right m hlow hlt
    · obtain rfl : m = n := Fin.ext heq
      rw [mergeOf_right_new hpops hnew]
      exact congrArg some (by omega)

theorem evenMerging_mergedTree {freq : Vector Nat 256} {c ncw : Nat} (hfreq : ∀ sym : Symbol, freq[sym] = c)
    (hfit : ∀ x ≤ ∑ sym : Symbol, freq[sym], narrow ncw x = x) :
    EvenMerging c 511 (mergedTree indexAsc ncw freq) := by
  refine (mergeLoop_of_step (P := fun n a => Merging freq n a ∧ EvenMerging c n a) (fun n a h => h.1.next)
    (fun n a h => ?_) 255 ⟨merging_buildInit freq, evenMerging_buildInit hfreq⟩ rfl).2
  obtain ⟨hm, heven⟩ := h
  have hstart := hm.started
  obtain ⟨l, hl⟩ : ∃ l : NodeIdx, l.val = 2 * (n.val - 256) := ⟨⟨_, by omega⟩, rfl⟩
  obtain ⟨r, hr⟩ : ∃ r : NodeIdx, r.val = 2 * (n.val - 256) + 1 := ⟨⟨_, by omega⟩, rfl⟩
  obtain ⟨hpops, heq⟩ := heven.pops (ncw := ncw) hm hl hr
  rw [heq]
  exact ⟨hm.next_mergeOf hpops hfit, heven.next_mergeOf hfit hm hl hr hpops⟩

/-! ## The tree and its codes -/

/-- The tree of equal counts: node `i` hangs under node `256 + i / 2`, with bit 1 where `i` is odd. -/
structure EvenTree (a : Arena) : Prop where
  parent : ∀ (i : NodeIdx) (h : i.val < 510), a.node[i].parent = some (evenParent i h)
  bit : ∀ i : NodeIdx, i.val < 510 → a.node[i].bit = decide (i.val % 2 = 1)

theorem evenTree_of_merging {c : Nat} {m a : Arena} (heven : EvenMerging c 511 m)
    (hsame : SameButBits (m.drop rootIdx) a)
    (hbits : ∀ i : NodeIdx, a.node[i].bit = true ↔ ∃ n : NodeIdx, 256 ≤ n.val ∧ a.node[n].right = some i) :
    EvenTree a := by
  constructor
  case parent =>
    intro i hi
    rw [hsame.parent]
    exact (heven.parent i hi).trans (if_pos (by omega))
  case bit =>
    intro i hi
    have hright {m : NodeIdx} (hm : 256 ≤ m.val) : a.node[m].right.map Fin.val = some (2 * m.val - 511) := by
      rw [hsame.right]
      exact heven.right m hm m.isLt
    rw [Bool.eq_iff_iff, hbits, decide_eq_true_iff]
    constructor
    · rintro ⟨m, hm, hmi⟩
      have hval := hright hm
      rw [hmi, Option.map_some, Option.some.injEq] at hval
      omega
    · intro hodd
      obtain ⟨m, hm⟩ : ∃ m : NodeIdx, m.val = 256 + i.val / 2 := ⟨⟨256 + i.val / 2, by omega⟩, rfl⟩
      have hlow : 256 ≤ m.val := by omega
      refine ⟨m, hlow, ?_⟩
      obtain ⟨i', hi', hval⟩ := Option.map_eq_some_iff.1 (hright hlow)
      rw [hi']
      exact congrArg some (Fin.ext (by omega))

theorem evenTree_of_buildTree {freq : Vector Nat 256} {c ncw : Nat} {a : Arena}
    (hfreq : ∀ sym : Symbol, freq[sym] = c) (hfit : ∀ x ≤ ∑ sym : Symbol, freq[sym], narrow ncw x = x)
    (hmarked : buildTree indexAsc ncw freq = .marked a) : EvenTree a := by
  obtain ⟨a', hmarked', hsame, hbits⟩ := buildTree_eq_marked indexAsc_legal hfit
  cases hmarked'.symm.trans hmarked
  exact evenTree_of_merging (evenMerging_mergedTree hfreq hfit) hsame hbits

/-- Node `q` of the `2 ^ d` nodes that are `d` links below the root. -/
def evenLevel (d q : Nat) (hd : d ≤ 8) (hq : q < 2 ^ d) : NodeIdx :=
  ⟨512 - 2 * 2 ^ d + q, by have := Nat.pow_le_pow_right (n := 2) (by decide) hd; omega⟩

/-- The path of that node is the numeral of `q`, low bit first. -/
theorem EvenTree.path {a : Arena} (h : EvenTree a) (hroot : a.node[rootIdx].parent = none) (d q : Nat) (hd : d ≤ 8)
    (hq : q < 2 ^ d) : RootPath a.node (evenLevel d q hd hq) ((List.range d).map q.testBit) := by
  induction d generalizing q with
  | zero =>
    obtain rfl : q = 0 := by omega
    exact .root _ hroot
  | succ d ih =>
    have hpow : 2 ^ (d + 1) ≤ 2 ^ 8 := Nat.pow_le_pow_right (by decide) hd
    rw [pow_succ] at hpow hq
    have hval : (evenLevel (d + 1) q hd (by rwa [pow_succ])).val = 512 - 4 * 2 ^ d + q := by
      simp only [evenLevel, pow_succ]
      omega
    have hlt : (evenLevel (d + 1) q hd (by rwa [pow_succ])).val < 510 := by omega
    have hparent : evenParent _ hlt = evenLevel d (q / 2) (by omega) (by omega) := by
      refine Fin.ext ?_
      simp only [evenParent, hval]
      simp only [evenLevel]
      omega
    have hbit : a.node[evenLevel (d + 1) q hd (by rwa [pow_succ])].bit = q.testBit 0 := by
      rw [h.bit _ hlt, hval, Nat.testBit_zero]
      exact decide_eq_decide.2 (by omega)
    have hrest : (List.range d).map (q.testBit ∘ Nat.succ) = (List.range d).map (q / 2).testBit :=
      List.map_congr_left fun k _ => Nat.testBit_succ q k
    rw [List.range_succ_eq_map, List.map_cons, List.map_map, hrest, ← hbit]
    exact .link _ _ _ (h.parent _ hlt) (hparent ▸ ih (q / 2) (by omega) (by omega))

/-- Settles O25: the leaf of a symbol is 8 links below the root, and its path is the symbol's numeral. -/
theorem equalCountsGiveByteCodes : Obligations.EqualCountsGiveByteCodes := by
  intro s c hphase hc hfreq
  have hfits : ∀ sym : Symbol, s.freq[sym] < 2 ^ s.cfg.cw := fun sym => hfreq sym ▸ hc
  obtain ⟨a, hbuild, hmarked, hbuilt⟩ := exec_build hphase hfits
  obtain ⟨lut, et, hextract, hcodes⟩ :=
    exec_extract (s := (s.withTree a).respond (Response.done (∑ sym : Symbol, s.freq[sym]))) rfl
      fun sym => hbuilt.path (leafOf sym)
  refine ⟨_, _, hbuild, hextract, rfl, fun sym => ?_⟩
  have heven := evenTree_of_buildTree hfreq (narrow_total hfits) hmarked
  have hleaf : evenLevel 8 sym.val le_rfl sym.isLt = leafOf sym := Fin.ext (Nat.zero_add _)
  obtain ⟨bits, hpath, hcode, -⟩ := CodeOf.path (hcodes sym)
  have hnumeral := hleaf ▸ heven.path hbuilt.root.1 8 sym.val le_rfl sym.isLt
  exact hcode.trans (by rw [hpath.unique hnumeral]; rfl)

end Sys2Proof.Machine
end

section
/-! COUNT and SIZE (43_count_size_pack.md sections 1 and 2): the table and the sum they make, modulo their register's
width first, then without wrapping. -/

namespace Sys2Proof.Machine

theorem narrow_eq_of_lt {w n : Nat} (h : n < 2 ^ w) : narrow w n = n := Nat.mod_eq_of_lt h

theorem narrow_lt (w n : Nat) : narrow w n < 2 ^ w := Nat.mod_lt _ (Nat.two_pow_pos w)

theorem narrow_narrow_add (w m n : Nat) : narrow w (narrow w m + n) = narrow w (m + n) := Nat.mod_add_mod m _ n

/-! ## COUNT -/

/-- How often `sym` stands in the `n` input positions from `lo` on. -/
def State.occurs (s : State) (lo n : Nat) (sym : Symbol) : Nat :=
  (List.range' lo n).countP fun j => decide (s.inSymbol j = sym)

theorem occurs_succ (s : State) (lo n : Nat) (sym : Symbol) :
    s.occurs lo (n + 1) sym = s.occurs (lo + 1) n sym + if s.inSymbol lo = sym then 1 else 0 := by
  simp only [State.occurs, List.range'_succ, List.countP_cons, decide_eq_true_eq]

theorem occurs_le (s : State) (lo n : Nat) (sym : Symbol) : s.occurs lo n sym ≤ n :=
  List.countP_le_length.trans_eq List.length_range'

/-- Positions in two runs are counted run by run. -/
theorem occurs_add (s : State) (lo m n : Nat) (sym : Symbol) :
    s.occurs lo (m + n) sym = s.occurs lo m sym + s.occurs (lo + m) n sym := by
  rw [State.occurs, ← List.range'_append_1, List.countP_append]
  rfl

theorem getElem_bump (cw : Nat) (freq : Vector Nat 256) (x sym : Symbol) :
    (bump cw freq x)[sym] = if x = sym then narrow cw (freq[sym] + 1) else freq[sym] := by
  simp only [bump, Fin.getElem_fin, Vector.getElem_set, Fin.val_inj]
  split
  next h => rw [h]
  next => rfl

/-- The tally adds to each entry how often its symbol stands in the input, in `CW` bits (43_count_size_pack.md R181). -/
theorem getElem_tally (s : State) (n lo : Nat) {freq : Vector Nat 256}
    (hfreq : ∀ sym : Symbol, freq[sym] < 2 ^ s.cfg.cw) (sym : Symbol) :
    (s.tally n lo freq)[sym] = narrow s.cfg.cw (freq[sym] + s.occurs lo n sym) := by
  induction n generalizing lo freq with
  | zero => exact (narrow_eq_of_lt (hfreq sym)).symm
  | succ n ih =>
    have hbump : ∀ y : Symbol, (bump s.cfg.cw freq (s.inSymbol lo))[y] < 2 ^ s.cfg.cw := by
      intro y
      rw [getElem_bump]
      split
      · exact narrow_lt _ _
      · exact hfreq y
    rw [State.tally, ih (lo + 1) hbump, getElem_bump, occurs_succ]
    split
    · rw [narrow_narrow_add]
      exact congrArg _ (by omega)
    · rfl

/-- The table `COUNT` makes. -/
def State.counted (s : State) : Vector Nat 256 := s.tally s.inLen 0 (Vector.replicate 256 0)

theorem getElem_tally_zero (s : State) (n lo : Nat) (sym : Symbol) :
    (s.tally n lo (Vector.replicate 256 0))[sym] = narrow s.cfg.cw (s.occurs lo n sym) := by
  have hzero (y : Symbol) : (Vector.replicate 256 0)[y] = 0 := Vector.getElem_replicate y.isLt
  rw [getElem_tally s n lo (fun y => (hzero y).trans_lt (Nat.two_pow_pos _)), hzero, zero_add]

/-- Every position is counted for one symbol (43_count_size_pack.md R183). -/
theorem sum_occurs (s : State) (lo n : Nat) : ∑ sym : Symbol, s.occurs lo n sym = n := by
  induction n generalizing lo with
  | zero => exact Finset.sum_eq_zero fun _ _ => rfl
  | succ n ih =>
    simp only [occurs_succ, Finset.sum_add_distrib, ih, Finset.sum_ite_eq, Finset.mem_univ, if_true]

/-- No entry wraps where `IN_LEN` fits its register (43_count_size_pack.md R183). -/
theorem getElem_counted {s : State} (hlen : s.inLen < 2 ^ s.cfg.cw) (sym : Symbol) :
    s.counted[sym] = s.occurs 0 s.inLen sym :=
  (getElem_tally_zero s _ _ sym).trans (narrow_eq_of_lt ((occurs_le s 0 s.inLen sym).trans_lt hlen))

theorem counted_lt (s : State) (sym : Symbol) : s.counted[sym] < 2 ^ s.cfg.cw := by
  rw [State.counted, getElem_tally_zero]
  exact narrow_lt _ _

theorem sum_counted {s : State} (hlen : s.inLen < 2 ^ s.cfg.cw) : ∑ sym : Symbol, s.counted[sym] = s.inLen := by
  rw [← sum_occurs s 0 s.inLen]
  exact Finset.sum_congr rfl fun sym _ => getElem_counted hlen sym

/-- The state `COUNT` leaves. -/
abbrev State.withCounts (s : State) : State := { s with freq := s.counted, phase := .counted }

theorem exec_count {s : State} (hidle : s.phase = .idle) (hlen : s.inLen ≠ 0) :
    exec .count s = .next (s.withCounts.respond (Response.done s.inLen)) :=
  congrArg _ (command_done (i := .count) rfl (decide_eq_true hidle) (countStage_nonempty hlen))

/-- Settles O19. -/
theorem countCountsTheInput : Obligations.CountCountsTheInput := by
  refine ⟨by decide, fun s hidle hlen hfits => ?_, fun s hidle hempty => ?_, sequencedIn_legalPhases .count,
    refusedInFault rfl⟩
  · refine ⟨s.counted, exec_count hidle hlen, fun sym => ?_, counted_lt s, sum_counted hfits⟩
    rw [getElem_counted hfits, State.occurs, ← List.range_eq_range']
  · exact ⟨_, exec_idle_empty hidle hempty (.inl rfl), raise_faultOnly s _ (Nat.zero_mod _)⟩

/-! ## The lanes of COUNT -/

theorem getElem_laneCounts (s : State) (chunk : Nat × Nat) (sym : Symbol) :
    (s.laneCounts chunk)[sym] = narrow s.cfg.cw (s.occurs chunk.1 (chunk.2 - chunk.1) sym) :=
  getElem_tally_zero s _ _ sym

/-- The lanes' tables add up, in `CW` bits, to what stands in all their chunks (43_count_size_pack.md R182). -/
theorem getElem_combineLanes (s : State) (lanes : List (Nat × Nat)) (sym : Symbol) :
    (s.combineLanes lanes)[sym] =
      narrow s.cfg.cw (lanes.map fun chunk => s.occurs chunk.1 (chunk.2 - chunk.1) sym).sum := by
  induction lanes with
  | nil => exact (Vector.getElem_replicate sym.isLt).trans (Nat.zero_mod _).symm
  | cons chunk rest ih =>
    have hadd : (s.combineLanes (chunk :: rest))[sym] =
        narrow s.cfg.cw ((s.laneCounts chunk)[sym] + (s.combineLanes rest)[sym]) := by
      simp only [State.combineLanes, addCounts, Fin.getElem_fin, Vector.getElem_ofFn]
    rw [hadd, ih, getElem_laneCounts, narrow_narrow_add, Nat.add_comm, narrow_narrow_add, List.map_cons, List.sum_cons,
      Nat.add_comm]

/-- What is made chunk by chunk: a function of runs that joins over neighbouring runs joins over a partition. -/
theorem foldr_chunks {M : Type} {op : M → M → M} {unit : M} {f : Nat → Nat → M} (hzero : ∀ lo, f lo 0 = unit)
    (hadd : ∀ lo m n, f lo (m + n) = op (f lo m) (f (lo + m) n)) (lo : Nat) (part : List Nat) (last : Nat)
    (hlast : (lo :: part).getLast? = some last) (hrising : (lo :: part).Pairwise (· < ·)) :
    lo ≤ last ∧
      (chunks (lo :: part)).foldr (fun chunk m => op (f chunk.1 (chunk.2 - chunk.1)) m) unit = f lo (last - lo) := by
  induction part generalizing lo with
  | nil =>
    obtain rfl : lo = last := Option.some.inj hlast
    exact ⟨le_rfl, by simp [chunks, hzero]⟩
  | cons hi part ih =>
    obtain ⟨hlt, hrising⟩ := List.pairwise_cons.1 hrising
    have hlohi := hlt hi List.mem_cons_self
    obtain ⟨hle, hrest⟩ := ih hi (by simpa using hlast) hrising
    have hcons : chunks (lo :: hi :: part) = (lo, hi) :: chunks (hi :: part) := rfl
    have hjoin := hadd lo (hi - lo) (last - hi)
    rw [show hi - lo + (last - hi) = last - lo by omega, show lo + (hi - lo) = hi by omega] at hjoin
    exact ⟨by omega, by rw [hcons, List.foldr_cons, hrest, hjoin]⟩

/-- A valid partition begins at 0, rises, and ends at the length of the input (00_scope.md R10). -/
theorem validPart_iff {n : Nat} {part : List Nat} (h : validPart n part = true) :
    ∃ rest, part = 0 :: rest ∧ (0 :: rest).getLast? = some n ∧ (0 :: rest).Pairwise (· < ·) := by
  simp only [validPart, Bool.and_eq_true, decide_eq_true_eq] at h
  obtain ⟨⟨⟨hhead, hlast⟩, -⟩, hrising⟩ := h
  cases part with
  | nil => cases hhead
  | cons lo rest =>
    obtain rfl : lo = 0 := Option.some.inj hhead
    exact ⟨rest, rfl, hlast, hrising⟩

/-- Settles O37: both tables hold, modulo `2 ^ CW`, how often each symbol stands in the input. -/
theorem laneCountsAddUpInAnyOrder : Obligations.LaneCountsAddUpInAnyOrder := by
  intro s part lanes hpart hperm
  obtain ⟨rest, rfl, hlast, hrising⟩ := validPart_iff hpart
  apply Vector.ext
  intro i hi
  have hlanes := getElem_combineLanes s lanes ⟨i, hi⟩
  have hall := getElem_tally_zero s s.inLen 0 ⟨i, hi⟩
  obtain ⟨-, hsum⟩ := foldr_chunks (op := (· + ·)) (f := fun lo n => s.occurs lo n ⟨i, hi⟩) (fun _ => rfl)
    (fun lo m n => occurs_add s lo m n _) 0 rest s.inLen hlast hrising
  rw [(hperm.map _).sum_eq, List.sum_eq_foldr, List.foldr_map] at hlanes
  exact hlanes.trans ((congrArg _ hsum).trans hall.symm)

/-! ## SIZE -/

/-- The sum of SIZE over a list of symbols, in `BW` bits (43_count_size_pack.md R186). -/
theorem sizeSum_eq {bw : Nat} (freq : Vector Nat 256) (lut : Vector Encoding 256) (syms : List Symbol) {t : Nat}
    (ht : t < 2 ^ bw) :
    sizeSum bw freq lut syms t = narrow bw (t + (syms.map fun sym => freq[sym] * lut[sym].len.toNat).sum) := by
  induction syms generalizing t with
  | nil => exact (narrow_eq_of_lt ht).symm
  | cons sym rest ih =>
    rw [sizeSum, ih (narrow_lt _ _), narrow_narrow_add, List.map_cons, List.sum_cons, Nat.add_assoc]

/-- The size of every table of `CW`-bit counts fits `BW` bits (43_count_size_pack.md R187). -/
theorem weightedLength_lt {c : Config} {freq : Vector Nat 256} (lut : Vector Encoding 256)
    (hfreq : ∀ sym : Symbol, freq[sym] < 2 ^ c.cw) : weightedLength freq lut < 2 ^ c.bw := by
  calc weightedLength freq lut ≤ ∑ _sym : Symbol, 2 ^ c.cw * 255 :=
        Finset.sum_le_sum fun sym _ => Nat.mul_le_mul (hfreq sym).le (Nat.le_of_lt_succ lut[sym].len.isLt)
    _ = 2 ^ c.cw * (256 * 255) := by
        rw [Finset.sum_const, Finset.card_univ, Fintype.card_fin, smul_eq_mul, Nat.mul_left_comm]
    _ < 2 ^ c.cw * 2 ^ 16 := Nat.mul_lt_mul_of_pos_left (by decide) (Nat.two_pow_pos _)
    _ = 2 ^ c.bw := (pow_add 2 _ _).symm

theorem sizeSum_all {c : Config} {freq : Vector Nat 256} (lut : Vector Encoding 256)
    (hfreq : ∀ sym : Symbol, freq[sym] < 2 ^ c.cw) :
    sizeSum c.bw freq lut (List.finRange 256) 0 = weightedLength freq lut := by
  rw [sizeSum_eq freq lut _ (Nat.two_pow_pos _), ← Fin.sum_univ_def, zero_add]
  exact narrow_eq_of_lt (weightedLength_lt lut hfreq)

/-- The state `SIZE` leaves. -/
abbrev State.withSize (s : State) : State := { s with bitsReq := weightedLength s.freq s.lut, phase := .sized }

theorem sizeStage_eq {s : State} (hfreq : ∀ sym : Symbol, s.freq[sym] < 2 ^ s.cfg.cw) :
    s.sizeStage = .done s.withSize (weightedLength s.freq s.lut) := by
  unfold State.sizeStage
  rw [sizeSum_all s.lut hfreq]

theorem exec_size {s : State} (hextracted : s.phase = .extracted) (hfreq : ∀ sym : Symbol, s.freq[sym] < 2 ^ s.cfg.cw) :
    exec .size s = .next (s.withSize.respond (Response.done (weightedLength s.freq s.lut))) :=
  congrArg _ (command_done (i := .size) rfl (decide_eq_true hextracted) (sizeStage_eq hfreq))

/-- Settles O30. -/
theorem sizeSumsCountsTimesLengths : Obligations.SizeSumsCountsTimesLengths := by
  refine ⟨by decide, fun s hextracted hfreq => ?_, sequencedIn_legalPhases .size, refusedInFault rfl⟩
  exact ⟨exec_size hextracted hfreq, weightedLength_lt s.lut hfreq⟩

end Sys2Proof.Machine
end

section
/-! Every step keeps the registers sound (10_state.md, 20_memory.md, 60_exceptions.md section 3): the answers, the fault
entry, each command's own rule and each stage, then the step. -/

namespace Sys2Proof.Machine

/-- The invariant of O57. -/
def Sound (s : State) : Prop := s.WF ∧ s.Coherent

/-! ## Numbers that fit a register -/

/-- A legal width makes every register at least 32 bits wide (10_state.md R44). -/
theorem lt_bw_of_lt {c : Config} (hcfg : c.legal = true) {n w : Nat} (hw : w ≤ 32) (h : n < 2 ^ w) : n < 2 ^ c.bw := by
  have hcw : 16 ≤ c.cw := by
    simp only [Config.legal, Bool.and_eq_true, decide_eq_true_eq] at hcfg
    exact hcfg.1
  exact h.trans_le (Nat.pow_le_pow_right (by decide) (by simp only [Config.bw]; omega))

theorem lt_bw_of_lt_cw {c : Config} {n : Nat} (h : n < 2 ^ c.cw) : n < 2 ^ c.bw :=
  h.trans_le (Nat.pow_le_pow_right (by decide) (by simp only [Config.bw]; omega))

theorem lt_bw_of_lt_ncw {c : Config} {n : Nat} (h : n < 2 ^ c.ncw) : n < 2 ^ c.bw :=
  h.trans_le (Nat.pow_le_pow_right (by decide) (by simp only [Config.bw, Config.ncw]; omega))

/-- Every register the host reads fits the data port (30_encoding.md R94). -/
theorem register_lt {s : State} (h : s.WF) (r : BitVec 8) : s.register r < 2 ^ s.cfg.bw := by
  rw [State.register]
  split
  · exact lt_bw_of_lt h.config le_rfl (by decide)
  · exact lt_bw_of_lt h.config le_rfl s.status.isLt
  · exact lt_bw_of_lt h.config (by decide) (fcodeBits s.fcode).isLt
  · exact h.finfo
  · exact lt_bw_of_lt_cw h.inLen
  · exact h.bitsReq
  · exact h.outLen
  · exact lt_bw_of_lt h.config (by decide) (narrow_lt 8 _)
  · exact Nat.two_pow_pos _

/-- `OUT` holds `BITS_REQ` bits of every width (20_memory.md R64). -/
theorem ceil8_le_spaceSize {s : State} (hbits : s.bitsReq < 2 ^ s.cfg.bw) :
    ceil8 s.bitsReq ≤ spaceSize s.cfg .output := by
  have hpow : 2 ^ s.cfg.bw = 2 ^ (s.cfg.bw - 3) * 8 := by
    rw [← Nat.pow_sub_mul_pow 2 (show 3 ≤ s.cfg.bw by simp only [Config.bw]; omega)]
  rw [ceil8, spaceSize]
  omega

/-! ## Answers, refusals, faults -/

section
variable {s : State} (h : Sound s)
include h

theorem sound_respond {r : Response} (hdata : r.data < 2 ^ s.cfg.bw) (henc : r.enc.padded = true) :
    Sound (s.respond r) :=
  ⟨{ h.1 with data := hdata, respEnc := henc }, { h.2 with }⟩

theorem sound_done {data : Nat} (hdata : data < 2 ^ s.cfg.bw) : Sound (s.respond (Response.done data)) :=
  sound_respond h hdata Encoding.padded_empty

theorem sound_len (e : Encoding) : Sound (s.respond (Response.done e.len.toNat)) :=
  sound_done h (lt_bw_of_lt h.1.config (by decide) e.len.isLt)

theorem sound_bool (b : Bool) : Sound (s.respond (Response.done (boolData b))) :=
  sound_done h (lt_bw_of_lt (w := 1) h.1.config (by decide) (by cases b <;> decide))

theorem sound_encoding {e : Encoding} (he : e.padded = true) : Sound (s.respond (encodingResponse e)) :=
  sound_respond h (lt_bw_of_lt h.1.config (by decide) e.len.isLt) he

theorem sound_refuse : Sound s.refuse := sound_respond h (Nat.two_pow_pos _) Encoding.padded_empty

/-- Fault entry of a running phase keeps the registers sound (60_exceptions.md R240). -/
theorem sound_raise (hrun : s.phase ≠ .fault) {c : Cause} (hc : c ≠ .tableSize) (n : Nat) : Sound (s.raise c n) := by
  refine ⟨{ h.1 with finfo := narrow_lt _ _, data := Nat.two_pow_pos _, respEnc := Encoding.padded_empty, lut := ?_ }, ?_⟩
  · exact (nomatch ·)
  · constructor
    case clean => exact fun hphase => absurd rfl hphase
    case faulted => exact fun _ => ⟨by simp, by simpa using hc, hrun⟩
    all_goals simp

/-- Other Encodings in `EA` and `EB`, with zero padding. -/
theorem sound_encRegs {ea eb : Encoding} (hea : ea.padded = true) (heb : eb.padded = true) :
    Sound { s with ea := ea, eb := eb } :=
  ⟨{ h.1 with ea := hea, eb := heb }, { h.2 with }⟩

/-- A command keeps the registers sound if its own rule does where it is performed. -/
theorem sound_command {i : Instr} {own : State → State}
    (hown : i.wellFormed s.cfg.cw = true → legalIn i s.phase = true → Sound (own s)) : Sound (s.command i own) := by
  rcases command_cases s i own with ⟨hwf, hlegal, heq⟩ | ⟨-, heq⟩ | ⟨hrun, -, heq⟩ | ⟨hrun, -, -, heq⟩ <;> rw [heq]
  · exact hown hwf hlegal
  · exact sound_refuse h
  · exact sound_raise h hrun (by decide) _
  · exact sound_raise h hrun (by decide) _

end

/-! ## Registers that are written -/

/-- The phases before `PACK` has completed, in which `OUT_LEN` is still 0. -/
def Phase.unpacked : Phase → Bool
  | .idle | .counted | .built | .extracted | .sized => true
  | .packed | .fault => false

/-- The phases before `SIZE` has completed, in which `BITS_REQ` is still 0. -/
def Phase.unsized : Phase → Bool
  | .idle | .counted | .built | .extracted => true
  | .sized | .packed | .fault => false

theorem unpacked_of_unsized {p : Phase} (h : p.unsized = true) : p.unpacked = true := by
  cases p
  case sized | packed | fault => cases h
  all_goals rfl

theorem unsized_iff {p : Phase} :
    p.unsized = true ↔ p = .idle ∨ p = .counted ∨ p = .built ∨ p = .extracted := by
  cases p <;> decide

theorem unpacked_iff {p : Phase} : p.unpacked = true ↔ p ≠ .packed ∧ p ≠ .fault := by
  cases p <;> decide

/-- From one phase before `PACK` to another one the fault and result registers stay coherent, if `BITS_REQ` is written
by `SIZE` only (10_state.md R42, R43). -/
theorem State.Coherent.advance {s t : State} (h : s.Coherent) (hs : s.phase.unpacked = true) (ht : t.phase.unpacked = true)
    (hregs : SameFaultRegs s t) (hout : t.outLen = s.outLen)
    (hbits : t.phase.unsized = true → s.phase.unsized = true ∧ t.bitsReq = s.bitsReq) : t.Coherent := by
  obtain ⟨hsp, hsf⟩ := unpacked_iff.1 hs
  obtain ⟨htp, htf⟩ := unpacked_iff.1 ht
  obtain ⟨hfcode, hfinfo, hfphase⟩ := hregs
  constructor
  case clean => rw [hfcode, hfinfo, hfphase]; exact fun _ => h.clean hsf
  case faulted => exact fun hf => absurd hf htf
  case unsized =>
    intro hunsized
    obtain ⟨hs, hbits⟩ := hbits (unsized_iff.2 hunsized)
    rw [hbits]
    exact h.unsized (unsized_iff.1 hs)
  case unpacked => rw [hout]; exact fun _ _ => h.unpacked hsp hsf
  case packed => exact fun hp => absurd hp htp

/-- No node of a built tree weighs more than the root. -/
theorem BuiltTree.count_le {freq : Vector Nat 256} {a : Arena} (h : BuiltTree freq a) (i : NodeIdx) :
    a.node[i].count ≤ ∑ sym : Symbol, freq[sym] := by
  obtain ⟨bits, hpath, -⟩ := h.path i
  induction hpath with
  | root i hroot => exact h.eq_root hroot ▸ h.total.le
  | link i p bits hp _ ih =>
    obtain ⟨l, r, hc⟩ := h.children p (h.internal_of_child hp)
    have hcount := hc.count
    rcases (hc.only i).1 hp with rfl | rfl <;> omega

/-- All counts together fit a node's count (41_tree_builder.md R147). -/
theorem total_lt {c : Config} {freq : Vector Nat 256} (hfreq : ∀ sym : Symbol, freq[sym] < 2 ^ c.cw) :
    ∑ sym : Symbol, freq[sym] < 2 ^ c.ncw := by
  have htotal := narrow_total hfreq _ le_rfl
  rw [← htotal]
  exact narrow_lt _ _

section
variable {s : State} (h : Sound s)
include h

/-- `CLR` (44_host_access.md R211). -/
theorem sound_clear (hrun : s.phase ≠ .fault) : Sound s.clear := by
  have hpos (w : Nat) : 0 < 2 ^ w := Nat.two_pow_pos w
  have hcounts (i : NodeIdx) : s.clear.arena.node[i].count < 2 ^ s.cfg.ncw := by
    simp only [State.clear_arena, freeArena, Fin.getElem_fin, Vector.getElem_ofFn]
    exact narrow_lt _ _
  constructor
  · exact { h.1 with
      freq := fun sym => (Vector.getElem_replicate sym.isLt).trans_lt (hpos _)
      inLen := hpos _
      bitsReq := hpos _
      outLen := hpos _
      counts := hcounts
      ea := Encoding.padded_empty
      eb := Encoding.padded_empty
      lut := (nomatch ·) }
  · constructor
    case clean => exact fun _ => h.2.clean hrun
    case faulted => exact (nomatch ·)
    all_goals simp

theorem sound_inLen (n : Nat) : Sound { s with inLen := narrow s.cfg.cw n } :=
  ⟨{ h.1 with inLen := narrow_lt _ _ }, { h.2 with }⟩

/-- A table of counts written in phase 0, or by `COUNT` on the way to phase 1. -/
theorem sound_freq {freq : Vector Nat 256} (hfreq : ∀ sym : Symbol, freq[sym] < 2 ^ s.cfg.cw) {p : Phase}
    (hidle : s.phase = .idle) (hp : p = .idle ∨ p = .counted) : Sound { s with freq := freq, phase := p } := by
  have hunsized : p.unsized = true := unsized_iff.2 (hp.imp_right .inl)
  refine ⟨{ h.1 with freq := hfreq, lut := ?_ }, h.2.advance (by rw [hidle]; rfl) (unpacked_of_unsized hunsized)
    ⟨rfl, rfl, rfl⟩ rfl fun _ => ⟨by rw [hidle]; rfl, rfl⟩⟩
  rcases hp with rfl | rfl <;> exact (nomatch ·)

/-! ## The stages -/

theorem sound_counted (hidle : s.phase = .idle) : Sound s.withCounts := sound_freq h (counted_lt s) hidle (.inr rfl)

theorem sound_withTree (hphase : s.phase = .idle ∨ s.phase = .counted) {a : Arena} (hbuilt : BuiltTree s.freq a) :
    Sound (s.withTree a) := by
  have hunsized : s.phase.unsized = true := unsized_iff.2 (hphase.imp_right .inl)
  refine ⟨{ h.1 with counts := fun i => ?_, lut := (nomatch ·) },
    h.2.advance (unpacked_of_unsized hunsized) rfl ⟨rfl, rfl, rfl⟩ rfl fun _ => ⟨hunsized, rfl⟩⟩
  exact (hbuilt.count_le i).trans_lt (total_lt h.1.freq)

theorem sound_withCodes (hbuilt : s.phase = .built) {lut : Vector Encoding 256} (et : Encoding)
    (hcodes : CodesOf s.arena.node lut) : Sound { s.withCodes lut et with phase := .extracted } := by
  refine ⟨{ h.1 with lut := fun _ sym => ?_ },
    h.2.advance (by rw [hbuilt]; rfl) rfl ⟨rfl, rfl, rfl⟩ rfl fun _ => ⟨by rw [hbuilt]; rfl, rfl⟩⟩
  obtain ⟨bits, -, -, hpadded⟩ := CodeOf.path (hcodes sym)
  exact hpadded

theorem sound_withSize (hextracted : s.phase = .extracted) : Sound s.withSize :=
  ⟨{ h.1 with bitsReq := weightedLength_lt s.lut h.1.freq, lut := fun _ => h.1.lut (by rw [hextracted]; rfl) },
    h.2.advance (by rw [hextracted]; rfl) rfl ⟨rfl, rfl, rfl⟩ rfl (nomatch ·)⟩

/-- A fault of `PACK` (60_exceptions.md R241). -/
theorem sound_packFault (hsized : s.phase = .sized) {c : Cause} (hc : c ≠ .tableSize) (n : Nat) :
    Sound (s.packFault c n) := by
  refine sound_raise (s := { s with
    outMem := writeOutBytes (Config.freeOutByte s.fresh) (ceil8 s.bitsReq) s.outMem, fresh := s.fresh + 1 })
    ⟨{ h.1 with outMem := writeOutBytes_wf _ (ceil8_le_spaceSize h.1.bitsReq) h.1.outMem }, { h.2 with }⟩ ?_ hc n
  rw [hsized]
  exact (nomatch ·)

/-- The state `PACK` leaves. -/
abbrev State.withOut (s : State) (image : List Bool) : State :=
  { s with
    outMem := writeOutBytes (imageByte image) (ceil8 s.bitsReq) s.outMem
    outLen := narrow s.cfg.bw image.length
    phase := .packed }

theorem sound_withOut (hsized : s.phase = .sized) {image : List Bool} (hlen : image.length = s.bitsReq) :
    Sound (s.withOut image) := by
  have hrun : s.phase ≠ .fault := by rw [hsized]; exact (nomatch ·)
  have hcodes : s.phase.hasCodes = true := by rw [hsized]; rfl
  constructor
  · exact { h.1 with
      outLen := narrow_lt _ _
      outMem := writeOutBytes_wf _ (ceil8_le_spaceSize h.1.bitsReq) h.1.outMem
      lut := fun _ => h.1.lut hcodes }
  · constructor
    case clean => exact fun _ => h.2.clean hrun
    case packed => exact fun _ => (congrArg _ hlen).trans (narrow_eq_of_lt h.1.bitsReq)
    all_goals simp

end

end Sys2Proof.Machine
end

section
/-! Every step keeps the invariants (10_state.md R31, 60_exceptions.md section 3): the stages, the commands, the step.
-/

namespace Sys2Proof.Machine

/-! ## The scan of PACK -/

/-- A scan that succeeds has placed the codes of the input and ends with `BITS_REQ` bits (43_count_size_pack.md R190). -/
theorem packScan_packed {s : State} {n j : Nat} {image image' : List Bool}
    (h : s.packScan n j image = .packed image') :
    image' = image ++ s.codeBits n j ∧ image'.length = s.bitsReq := by
  induction n generalizing j image with
  | zero =>
    rw [State.packScan] at h
    split at h
    next hlen =>
      cases h
      exact ⟨(List.append_nil _).symm, hlen⟩
    next => cases h
  | succ n ih =>
    simp only [State.packScan] at h
    split at h
    · cases h
    · split at h
      · cases h
      · obtain ⟨himage, hlen⟩ := ih h
        exact ⟨by rw [himage, State.codeBits, List.append_assoc], hlen⟩

/-- A scan that fails has met an empty code, or a length that does not fit `BITS_REQ` (43_count_size_pack.md R190). -/
theorem packScan_failed {s : State} {n j : Nat} {image : List Bool} {c : Cause} {info : Nat}
    (h : s.packScan n j image = .failed c info) :
    (c = .lookupEmpty ∧ ∃ sym : Symbol, s.lut[sym].len = 0) ∨ c = .outOverrun ∨ c = .outUnderrun := by
  induction n generalizing j image with
  | zero =>
    rw [State.packScan] at h
    split at h <;> cases h
    exact .inr (.inr rfl)
  | succ n ih =>
    simp only [State.packScan] at h
    split at h
    next hlen => cases h; exact .inl ⟨rfl, _, hlen⟩
    next =>
      split at h
      · cases h; exact .inr (.inl rfl)
      · exact ih h

/-- The causes `PACK` raises (60_exceptions.md R232, R235, R238, R239). -/
theorem packFault_cause {s : State} {c : Cause} {n : Nat}
    (h : c = .emptyInput ∨ s.packScan s.inLen 0 [] = .failed c n) :
    c = .emptyInput ∨ (c = .lookupEmpty ∧ ∃ sym : Symbol, s.lut[sym].len = 0) ∨ c = .outOverrun ∨ c = .outUnderrun :=
  h.imp_right packScan_failed

/-! ## How a stage ends -/

/-- A stage is done in phase `p` with `P` of its state and response, or has raised a fault with `P` of the state. -/
inductive Stage.Ends (P : State → Nat → Prop) (p : Phase) : Stage → Prop
  | done {t : State} {data : Nat} (h : P t data) (hphase : t.phase = p) : Ends P p (.done t data)
  | raised {t : State} (h : P t 0) : Ends P p (.raised t)

theorem Stage.Ends.andThen {P : State → Nat → Prop} {p q : Phase} {r : Stage} {next : State → Stage} (h : r.Ends P p)
    (hnext : ∀ t data, P t data → t.phase = p → (next t).Ends P q) : (r.andThen next).Ends P q := by
  cases h with
  | done h hphase => exact hnext _ _ h hphase
  | raised h => exact .raised h

/-- Sound registers and a response that fits the data port. -/
def SoundWith (t : State) (data : Nat) : Prop := Sound t ∧ data < 2 ^ t.cfg.bw

theorem Stage.Ends.sound_finish {p : Phase} {r : Stage} (h : r.Ends SoundWith p) : Sound r.finish := by
  cases h with
  | done h hphase => exact sound_done h.1 h.2
  | raised h => exact h.1

theorem ends_raised {t : State} (p : Phase) (h : Sound t) : (Stage.raised t).Ends SoundWith p :=
  .raised ⟨h, Nat.two_pow_pos _⟩

/-- `BUILD` completes on every table of `CW`-bit counts (41_tree_builder.md R152). -/
theorem buildStage_built {s : State} (hfreq : ∀ sym : Symbol, s.freq[sym] < 2 ^ s.cfg.cw) :
    ∃ a, buildTree indexAsc s.cfg.ncw s.freq = .marked a ∧ BuiltTree s.freq a ∧
      s.buildStage = .done (s.withTree a) a.node[rootIdx].count := by
  obtain ⟨a, hmarked, hbuilt⟩ := buildTree_built indexAsc_legal hfreq
  exact ⟨a, hmarked, hbuilt, buildStage_marked hmarked⟩

section
variable {s : State} (h : Sound s)
include h

theorem countStage_sound (hidle : s.phase = .idle) : s.countStage.Ends SoundWith .counted := by
  by_cases hempty : s.inLen = 0
  · rw [countStage_empty hempty]
    exact ends_raised _ (sound_raise h (by rw [hidle]; exact (nomatch ·)) (by decide) _)
  · rw [countStage_nonempty hempty]
    exact .done ⟨sound_counted h hidle, lt_bw_of_lt_cw h.1.inLen⟩ rfl

theorem buildStage_sound (hphase : s.phase = .idle ∨ s.phase = .counted) : s.buildStage.Ends SoundWith .built := by
  obtain ⟨a, -, hbuilt, heq⟩ := buildStage_built h.1.freq
  rw [heq]
  exact .done ⟨sound_withTree h hphase hbuilt,
    lt_bw_of_lt_ncw ((hbuilt.count_le rootIdx).trans_lt (total_lt h.1.freq))⟩ rfl

theorem extractStage_sound (hbuilt : s.phase = .built) : s.extractStage.Ends SoundWith .extracted := by
  rcases extractStage_cases s with ⟨lut, et, heq, hcodes⟩ | ⟨k, lut, et, et', -, heq, -⟩ <;> rw [heq]
  · exact .done ⟨sound_withCodes h hbuilt et hcodes, Nat.two_pow_pos _⟩ rfl
  · have hrun : s.phase ≠ .fault := by rw [hbuilt]; exact (nomatch ·)
    have hnocodes : s.phase.hasCodes = true → ∀ sym : Symbol, lut[sym].padded = true := by rw [hbuilt]; exact (nomatch ·)
    exact ends_raised _ (sound_raise (s := s.withCodes lut et) ⟨{ h.1 with lut := hnocodes }, { h.2 with }⟩ hrun
      (by decide) _)

theorem sizeStage_sound (hextracted : s.phase = .extracted) : s.sizeStage.Ends SoundWith .sized := by
  rw [sizeStage_eq h.1.freq]
  exact .done ⟨sound_withSize h hextracted, weightedLength_lt s.lut h.1.freq⟩ rfl

theorem packStage_sound (hsized : s.phase = .sized) : s.packStage.Ends SoundWith .packed := by
  rcases packStage_cases s with ⟨c, n, hc, heq⟩ | ⟨image, -, hscan, heq⟩ <;> rw [heq]
  · have hcause : c ≠ .tableSize := by
      rintro rfl
      simpa using packFault_cause hc
    exact ends_raised _ (sound_packFault h hsized hcause n)
  · exact .done ⟨sound_withOut h hsized (packScan_packed hscan).2, narrow_lt _ _⟩ rfl

theorem genencStage_sound (hidle : s.phase = .idle) : s.genencStage.Ends SoundWith .sized :=
  (((countStage_sound h hidle).andThen fun _ _ h hp => buildStage_sound h.1 (.inr hp)).andThen
    fun _ _ h hp => extractStage_sound h.1 hp).andThen fun _ _ h hp => sizeStage_sound h.1 hp

theorem compressStage_sound (hidle : s.phase = .idle) : (s.genencStage.andThen State.packStage).Ends SoundWith .packed :=
  (genencStage_sound h hidle).andThen fun _ _ h hp => packStage_sound h.1 hp

/-! ## The commands -/

/-- Every command keeps the registers sound. -/
theorem exec_sound (i : Instr) : ∃ t, exec i s = .next t ∧ Sound t := by
  have hea := h.1.ea
  have heb := h.1.eb
  have hcommand {own : State → State} (hown : legalIn i s.phase = true → Sound (own s)) : Sound (s.command i own) :=
    sound_command h fun _ => hown
  have hrun (hlegal : s.phase.running = true) : s.phase ≠ .fault := by
    intro hf
    rw [hf] at hlegal
    cases hlegal
  cases i
  case nop => exact ⟨_, rfl, hcommand fun _ => sound_done h (Nat.two_pow_pos _)⟩
  case clr => exact ⟨_, rfl, hcommand fun hlegal => sound_done (sound_clear h (hrun hlegal)) (Nat.two_pow_pos _)⟩
  case rdreg r => exact ⟨_, rfl, hcommand fun _ => sound_done h (register_lt h.1 r)⟩
  case wrreg r wdata => exact ⟨_, rfl, hcommand fun _ => sound_done (sound_inLen h wdata) (Nat.two_pow_pos _)⟩
  case enew =>
    exact ⟨_, rfl, hcommand fun _ => sound_done (sound_encRegs h Encoding.padded_empty heb) (Nat.two_pow_pos _)⟩
  case epush b =>
    refine ⟨_, rfl, hcommand fun hlegal => ?_⟩
    rcases encPush_cases s.ea b with ⟨-, hpush⟩ | ⟨hne, hpush, -⟩ <;> simp only [hpush]
    · exact sound_raise h (hrun hlegal) (by decide) _
    · exact sound_len (sound_encRegs h (Encoding.padded_append b hne hea) heb) _
  case elen => exact ⟨_, rfl, hcommand fun _ => sound_len h _⟩
  case eempty => exact ⟨_, rfl, hcommand fun _ => sound_bool h _⟩
  case erev =>
    exact ⟨_, rfl, hcommand fun _ => sound_done (sound_encRegs h (encReverse_spec _).2 heb) (Nat.two_pow_pos _)⟩
  case eeq => exact ⟨_, rfl, hcommand fun _ => sound_bool h _⟩
  case exch => exact ⟨_, rfl, hcommand fun _ => sound_done (sound_encRegs h heb hea) (Nat.two_pow_pos _)⟩
  case elut sym =>
    exact ⟨_, rfl, hcommand fun hlegal => sound_len (sound_encRegs h (h.1.lut hlegal _) heb) _⟩
  case erd => exact ⟨_, rfl, hcommand fun _ => sound_encoding h hea⟩
  case wrfreq sym wdata =>
    refine ⟨_, rfl, hcommand fun hlegal => ?_⟩
    have hidle := of_decide_eq_true hlegal
    refine sound_done (s := { s with freq := s.freq.set (symbolIndex sym) (narrow s.cfg.cw wdata) })
      ?_ (Nat.two_pow_pos _)
    have hfreq : ∀ x : Symbol, (s.freq.set (symbolIndex sym) (narrow s.cfg.cw wdata))[x] < 2 ^ s.cfg.cw := by
      intro x
      simp only [Fin.getElem_fin, Vector.getElem_set]
      split
      · exact narrow_lt _ _
      · exact h.1.freq x
    have hsound := sound_freq h hfreq hidle (.inl rfl)
    rwa [← hidle] at hsound
  case rdfreq sym => exact ⟨_, rfl, hcommand fun _ => sound_done h (lt_bw_of_lt_cw (h.1.freq _))⟩
  case rdnode n =>
    refine ⟨_, rfl, hcommand fun _ => ?_⟩
    split
    next m _ => exact sound_respond h (lt_bw_of_lt_ncw (h.1.counts m)) Encoding.padded_empty
    next => exact h
  case rdlut sym => exact ⟨_, rfl, hcommand fun hlegal => sound_encoding h (h.1.lut hlegal _)⟩
  case count => exact ⟨_, rfl, hcommand fun hlegal => (countStage_sound h (of_decide_eq_true hlegal)).sound_finish⟩
  case build =>
    refine ⟨_, rfl, hcommand fun hlegal => (buildStage_sound h ?_).sound_finish⟩
    simpa [legalIn] using hlegal
  case extract => exact ⟨_, rfl, hcommand fun hlegal => (extractStage_sound h (of_decide_eq_true hlegal)).sound_finish⟩
  case size => exact ⟨_, rfl, hcommand fun hlegal => (sizeStage_sound h (of_decide_eq_true hlegal)).sound_finish⟩
  case pack => exact ⟨_, rfl, hcommand fun hlegal => (packStage_sound h (of_decide_eq_true hlegal)).sound_finish⟩
  case genenc => exact ⟨_, rfl, hcommand fun hlegal => (genencStage_sound h (of_decide_eq_true hlegal)).sound_finish⟩
  case compress =>
    exact ⟨_, rfl, hcommand fun hlegal => (compressStage_sound h (of_decide_eq_true hlegal)).sound_finish⟩

/-! ## The step -/

theorem sound_taken : Sound s.taken :=
  ⟨{ h.1 with port := fun c hc => h.1.port c (List.mem_of_mem_tail hc) }, { h.2 with }⟩

end

/-- What a step can do: wait, run a command, raise `ILLEGAL_CMD` or refuse, write a byte the host names, reset. -/
theorem step_cases {s t : State} (h : step s = .next t) :
    t = s ∨ (∃ i, exec i s.taken = .next t) ∨ (∃ w, t = s.taken.illegalWord w) ∨
    (∃ a v, a < spaceSize s.cfg .input ∧ t = { s.taken with inMem := Memory.write .input s.inMem a v }) ∨
    (∃ a v, a < spaceSize s.cfg .output ∧ t = { s.taken with outMem := Memory.write .output s.outMem a v }) ∨
    t = s.taken.hostReset := by
  rw [step] at h
  split at h
  next => cases h; exact .inl rfl
  next c _ _ =>
    rw [State.process] at h
    split at h
    next i _ => exact .inr (.inl ⟨i, h⟩)
    next => cases h; exact .inr (.inr (.inl ⟨_, rfl⟩))
  next a v _ _ =>
    have ha : a < spaceSize s.cfg .input := by
      by_contra hge
      rw [State.hostWriteIn, State.taken_cfg, if_neg hge] at h
      cases h
    exact .inr (.inr (.inr (.inl ⟨a, v, ha, hostWriteIn_next h⟩)))
  next a v _ _ =>
    have ha : a < spaceSize s.cfg .output := by
      by_contra hge
      rw [State.hostWriteOut, State.taken_cfg, if_neg hge] at h
      cases h
    exact .inr (.inr (.inr (.inr (.inl ⟨a, v, ha, hostWriteOut_next h⟩))))
  next => cases h; exact .inr (.inr (.inr (.inr (.inr rfl))))

theorem sound_illegalWord {s : State} (h : Sound s) (w : BitVec 32) : Sound (s.illegalWord w) := by
  rw [State.illegalWord]
  split
  next => exact sound_refuse h
  next hrun => exact sound_raise h hrun (by decide) _

theorem inv_taken_hostReset {s : State} (h : Sound s) : s.taken.hostReset.Inv := by
  have h := (sound_taken h).1
  exact inv_hostReset h.config h.inMem h.outMem h.port

/-- Settles O57: each thing a step can do keeps the registers sound. -/
theorem stepKeepsTheRegistersSound : Obligations.StepKeepsTheRegistersSound := by
  intro s t hwf hcoherent hstep
  have h := sound_taken (s := s) ⟨hwf, hcoherent⟩
  show Sound t
  rcases step_cases hstep with rfl | ⟨i, hexec⟩ | ⟨w, rfl⟩ | ⟨a, v, ha, rfl⟩ | ⟨a, v, ha, rfl⟩ | rfl
  · exact ⟨hwf, hcoherent⟩
  · obtain ⟨t', hexec', ht⟩ := exec_sound h i
    cases hexec.symm.trans hexec'
    exact ht
  · exact sound_illegalWord h w
  · exact ⟨{ h.1 with inMem := Memory.wf_write v ha h.1.inMem }, { h.2 with }⟩
  · exact ⟨{ h.1 with outMem := Memory.wf_write v ha h.1.outMem }, { h.2 with }⟩
  · obtain ⟨hwf, hcoherent, -⟩ := inv_taken_hostReset ⟨hwf, hcoherent⟩
    exact ⟨hwf, hcoherent⟩

end Sys2Proof.Machine
end

section
/-! Every step keeps the tables what their stages make, and the faults the spec calls unreachable are never raised
(41_tree_builder.md R152, 42_lut_generator.md R177, R179, 60_exceptions.md R231). -/

namespace Sys2Proof.Machine

/-! ## Consistency by phase -/

theorem hasTree_of_hasCodes {p : Phase} (h : p.hasCodes = true) : p.hasTree = true := by
  cases p
  case extracted | sized | packed => rfl
  all_goals cases h

theorem hasCodes_of_hasSize {p : Phase} (h : p.hasSize = true) : p.hasCodes = true := by
  cases p
  case sized | packed => rfl
  all_goals cases h

/-- Where no table can be read there is nothing to be consistent. -/
theorem consistent_of_no_tree {t : State} (h : t.phase.hasTree = false) : t.Consistent := by
  have hno : ¬ t.phase.hasTree = true := by rw [h]; exact Bool.false_ne_true
  exact ⟨fun htree => absurd htree hno, fun hcodes => absurd (hasTree_of_hasCodes hcodes) hno,
    fun hsize => absurd (hasTree_of_hasCodes (hasCodes_of_hasSize hsize)) hno⟩

/-- What is consistent stays so while the phase, the tables and `BITS_REQ` do. -/
theorem State.Consistent.congr {s t : State} (h : s.Consistent) (hphase : t.phase = s.phase) (hcfg : t.cfg = s.cfg)
    (hfreq : t.freq = s.freq) (harena : t.arena = s.arena) (hlut : t.lut = s.lut) (hbits : t.bitsReq = s.bitsReq) :
    t.Consistent := by
  constructor
  · rw [hphase, hcfg, hfreq, harena]; exact h.tree
  · rw [hphase, harena, hlut]; exact h.codes
  · rw [hphase, hfreq, hlut, hbits]; exact h.size

section
variable {s : State} (h : s.Inv)
include h

theorem State.Inv.sound : Sound s := ⟨h.1, h.2.1⟩

/-- Where `NODE` can be read it is a built tree (10_state.md R22). -/
theorem State.Inv.built (htree : s.phase.hasTree = true) : BuiltTree s.freq s.arena := by
  obtain ⟨a, hmarked, hbuilt⟩ := buildTree_built indexAsc_legal h.1.freq
  cases hmarked.symm.trans (h.2.2.tree htree)
  exact hbuilt

/-- Where `LUT` can be read no code in it is empty (42_lut_generator.md R177). -/
theorem State.Inv.len_ne_zero (hcodes : s.phase.hasCodes = true) (sym : Symbol) : s.lut[sym].len ≠ 0 := by
  intro hzero
  have hlen := (h.built (hasTree_of_hasCodes hcodes)).one_le_len (h.2.2.codes hcodes) sym
  rw [hzero] at hlen
  exact absurd hlen (by decide)

theorem State.Inv.no_fault (hrun : s.phase ≠ .fault) : s.fcode = none := (h.2.1.clean hrun).1

end

/-! ## The faults to expect -/

/-- The causes that can be raised where the tables are what their stages made, beside `ENC_OVERFLOW` of `EPUSH`. -/
def Cause.expected : Cause → Bool
  | .emptyInput | .illegalCmd | .seqError | .outOverrun | .outUnderrun => true
  | .tableSize | .encOverflow | .doubleMark | .lookupEmpty => false

/-- The tables are consistent, and `FCODE` holds no cause that is not expected of the command. -/
structure Settled (overflow : Prop) (t : State) : Prop where
  consistent : t.Consistent
  cause : ∀ c, t.fcode = some c → c.expected = true ∨ (c = .encOverflow ∧ overflow)

/-- A fault entry with an expected cause. -/
theorem settled_raise (s : State) (overflow : Prop) {c : Cause} (hc : c.expected = true) (n : Nat) :
    Settled overflow (s.raise c n) :=
  ⟨consistent_of_no_tree rfl, fun c' hc' => .inl (by cases hc'; exact hc)⟩

theorem settled_of_no_fault {t : State} (overflow : Prop) (h : t.Consistent) (hfcode : t.fcode = none) :
    Settled overflow t :=
  ⟨h, fun c hc => by rw [hfcode] at hc; cases hc⟩

/-- A stage that keeps the invariants and raises expected causes only. -/
abbrev Stage.Settles (p : Phase) (r : Stage) : Prop := r.Ends (fun t _ => t.Inv ∧ Settled False t) p

theorem Stage.Ends.settles {p : Phase} {r : Stage} (h : r.Ends SoundWith p) (h' : r.Ends (fun t _ => Settled False t) p) :
    r.Settles p := by
  cases h with
  | done hsound hphase =>
    cases h' with
    | done hsettled _ => exact .done ⟨⟨hsound.1.1, hsound.1.2, hsettled.consistent⟩, hsettled⟩ hphase
  | raised hsound =>
    cases h' with
    | raised hsettled => exact .raised ⟨⟨hsound.1.1, hsound.1.2, hsettled.consistent⟩, hsettled⟩

theorem settled_respond {t : State} {overflow : Prop} (h : Settled overflow t) (r : Response) :
    Settled overflow (t.respond r) :=
  ⟨h.consistent.congr rfl rfl rfl rfl rfl rfl, h.cause⟩

theorem Stage.Ends.settled_finish {p : Phase} {r : Stage} {overflow : Prop} (h : r.Settles p) :
    Settled overflow r.finish := by
  have hfinish : Settled False r.finish := by
    cases h with
    | done h _ => exact settled_respond h.2 _
    | raised h => exact h.2
  exact ⟨hfinish.consistent, fun c hc => .inl ((hfinish.cause c hc).resolve_right fun hno => hno.2)⟩

/-! ## The stages -/

/-- On a built tree `EXTRACT` completes (42_lut_generator.md R179). -/
theorem extractStage_built {s : State} (htree : BuiltTree s.freq s.arena) : ∃ lut et, CodesOf s.arena.node lut ∧
    s.extractStage = .done { s.withCodes lut et with phase := .extracted } 0 := by
  rcases extractStage_cases s with ⟨lut, et, heq, hcodes⟩ | ⟨k, lut, et, et', hover, -⟩
  · exact ⟨lut, et, hcodes, heq⟩
  · exact absurd (htree.path (leafOf k)) (not_reaches_of_overflow hover)

section
variable {s : State} (h : s.Inv)
include h

theorem countStage_settles (hidle : s.phase = .idle) : s.countStage.Settles .counted := by
  refine (countStage_sound h.sound hidle).settles ?_
  by_cases hempty : s.inLen = 0
  · rw [countStage_empty hempty]
    exact .raised (settled_raise s False rfl _)
  · rw [countStage_nonempty hempty]
    exact .done (settled_of_no_fault False (consistent_of_no_tree rfl) (h.no_fault (by rw [hidle]; exact (nomatch ·)))) rfl

theorem buildStage_settles (hphase : s.phase = .idle ∨ s.phase = .counted) : s.buildStage.Settles .built := by
  refine (buildStage_sound h.sound hphase).settles ?_
  obtain ⟨a, hmarked, -, heq⟩ := buildStage_built h.1.freq
  have hrun : s.phase ≠ .fault := by rcases hphase with hp | hp <;> rw [hp] <;> exact (nomatch ·)
  rw [heq]
  exact .done (settled_of_no_fault False ⟨fun _ => hmarked, (nomatch ·), (nomatch ·)⟩ (h.no_fault hrun)) rfl

theorem extractStage_settles (hbuilt : s.phase = .built) : s.extractStage.Settles .extracted := by
  refine (extractStage_sound h.sound hbuilt).settles ?_
  obtain ⟨lut, et, hcodes, heq⟩ := extractStage_built (h.built (by rw [hbuilt]; rfl))
  have htree := h.2.2.tree (by rw [hbuilt]; rfl)
  rw [heq]
  exact .done (settled_of_no_fault False ⟨fun _ => htree, fun _ => hcodes, (nomatch ·)⟩
    (h.no_fault (by rw [hbuilt]; exact (nomatch ·)))) rfl

theorem sizeStage_settles (hextracted : s.phase = .extracted) : s.sizeStage.Settles .sized := by
  refine (sizeStage_sound h.sound hextracted).settles ?_
  have htree := h.2.2.tree (by rw [hextracted]; rfl)
  have hcodes := h.2.2.codes (by rw [hextracted]; rfl)
  rw [sizeStage_eq h.1.freq]
  exact .done (settled_of_no_fault False ⟨fun _ => htree, fun _ => hcodes, fun _ => rfl⟩
    (h.no_fault (by rw [hextracted]; exact (nomatch ·)))) rfl

theorem packStage_settles (hsized : s.phase = .sized) : s.packStage.Settles .packed := by
  refine (packStage_sound h.sound hsized).settles ?_
  have htree := h.2.2.tree (by rw [hsized]; rfl)
  have hcodes := h.2.2.codes (by rw [hsized]; rfl)
  have hsize := h.2.2.size (by rw [hsized]; rfl)
  rcases packStage_cases s with ⟨c, n, hc, heq⟩ | ⟨image, -, -, heq⟩ <;> rw [heq]
  · refine .raised (settled_raise _ False ?_ n)
    rcases packFault_cause hc with rfl | ⟨rfl, sym, hzero⟩ | rfl | rfl
    · rfl
    · exact absurd hzero (h.len_ne_zero (by rw [hsized]; rfl) sym)
    · rfl
    · rfl
  · exact .done (settled_of_no_fault False ⟨fun _ => htree, fun _ => hcodes, fun _ => hsize⟩
      (h.no_fault (by rw [hsized]; exact (nomatch ·)))) rfl

theorem genencStage_settles (hidle : s.phase = .idle) : s.genencStage.Settles .sized :=
  (((countStage_settles h hidle).andThen fun _ _ h hp => buildStage_settles h.1 (.inr hp)).andThen
    fun _ _ h hp => extractStage_settles h.1 hp).andThen fun _ _ h hp => sizeStage_settles h.1 hp

theorem compressStage_settles (hidle : s.phase = .idle) : (s.genencStage.andThen State.packStage).Settles .packed :=
  (genencStage_settles h hidle).andThen fun _ _ h hp => packStage_settles h.1 hp

/-! ## The commands -/

/-- In a running phase every command leaves consistent tables and raises expected causes only. -/
theorem exec_settled (hrun : s.phase ≠ .fault) (i : Instr) :
    ∃ t, exec i s = .next t ∧ Settled (∃ b, i = .epush b) t := by
  have hclean := h.no_fault hrun
  have hcommand {overflow : Prop} {own : State → State} (hown : legalIn i s.phase = true → Settled overflow (own s)) :
      Settled overflow (s.command i own) := by
    rcases command_cases s i own with ⟨-, hlegal, heq⟩ | ⟨hf, -⟩ | ⟨-, -, heq⟩ | ⟨-, -, -, heq⟩
    · rw [heq]; exact hown hlegal
    · exact absurd hf hrun
    · rw [heq]; exact settled_raise s _ rfl _
    · rw [heq]; exact settled_raise s _ rfl _
  have hsame {overflow : Prop} {t : State} (hphase : t.phase = s.phase) (hcfg : t.cfg = s.cfg) (hfreq : t.freq = s.freq)
      (harena : t.arena = s.arena) (hlut : t.lut = s.lut) (hbits : t.bitsReq = s.bitsReq) (hfcode : t.fcode = s.fcode) :
      Settled overflow t :=
    settled_of_no_fault _ (h.2.2.congr hphase hcfg hfreq harena hlut hbits) (hfcode.trans hclean)
  have hidle {overflow : Prop} {t : State} (hphase : t.phase = .idle) (hfcode : t.fcode = s.fcode) :
      Settled overflow t :=
    settled_of_no_fault _ (consistent_of_no_tree (by rw [hphase]; rfl)) (hfcode.trans hclean)
  cases i
  case clr => exact ⟨_, rfl, hcommand fun _ => hidle rfl rfl⟩
  case wrreg | wrfreq => exact ⟨_, rfl, hcommand fun hlegal => hidle (of_decide_eq_true hlegal) rfl⟩
  case epush b =>
    refine ⟨_, rfl, hcommand fun _ => ?_⟩
    split
    · exact hsame rfl rfl rfl rfl rfl rfl rfl
    · exact ⟨consistent_of_no_tree rfl, fun c hc => .inr ⟨(Option.some.inj hc).symm, ⟨b, rfl⟩⟩⟩
  case rdnode =>
    refine ⟨_, rfl, hcommand fun _ => ?_⟩
    split <;> exact hsame rfl rfl rfl rfl rfl rfl rfl
  case count => exact ⟨_, rfl, hcommand fun hlegal => (countStage_settles h (of_decide_eq_true hlegal)).settled_finish⟩
  case build =>
    refine ⟨_, rfl, hcommand fun hlegal => (buildStage_settles h ?_).settled_finish⟩
    simpa [legalIn] using hlegal
  case extract =>
    exact ⟨_, rfl, hcommand fun hlegal => (extractStage_settles h (of_decide_eq_true hlegal)).settled_finish⟩
  case size => exact ⟨_, rfl, hcommand fun hlegal => (sizeStage_settles h (of_decide_eq_true hlegal)).settled_finish⟩
  case pack => exact ⟨_, rfl, hcommand fun hlegal => (packStage_settles h (of_decide_eq_true hlegal)).settled_finish⟩
  case genenc =>
    exact ⟨_, rfl, hcommand fun hlegal => (genencStage_settles h (of_decide_eq_true hlegal)).settled_finish⟩
  case compress =>
    exact ⟨_, rfl, hcommand fun hlegal => (compressStage_settles h (of_decide_eq_true hlegal)).settled_finish⟩
  all_goals exact ⟨_, rfl, hcommand fun _ => hsame rfl rfl rfl rfl rfl rfl rfl⟩

/-- In every phase a command leaves consistent tables: in phase `FAULT` nothing can be read. -/
theorem exec_consistent (i : Instr) : ∃ t, exec i s = .next t ∧ t.Consistent := by
  by_cases hfault : s.phase = .fault
  · obtain ⟨t, hexec, ht⟩ : ∃ t, exec i s = .next t ∧ t.phase = .fault := by
      by_cases hrdreg : ∃ r : BitVec 8, r.toNat < 8 ∧ i = .rdreg r
      · obtain ⟨r, hr, rfl⟩ := hrdreg
        exact ⟨_, exec_rdreg hr, hfault⟩
      · exact ⟨_, exec_refused hfault hrdreg, hfault⟩
    exact ⟨t, hexec, consistent_of_no_tree (by rw [ht]; rfl)⟩
  · obtain ⟨t, hexec, ht⟩ := exec_settled h hfault i
    exact ⟨t, hexec, ht.consistent⟩

end

/-! ## The obligations -/

/-- Settles O58: O57 keeps the registers sound, and each thing a step can do keeps the tables consistent. -/
theorem stepKeepsTheTablesConsistent : Obligations.StepKeepsTheTablesConsistent := by
  intro s t h hstep
  obtain ⟨hwf, hcoherent⟩ := stepKeepsTheRegistersSound s t h.1 h.2.1 hstep
  refine ⟨hwf, hcoherent, ?_⟩
  have htaken : s.taken.Inv := by
    obtain ⟨hwf, hcoherent⟩ := sound_taken h.sound
    exact ⟨hwf, hcoherent, h.2.2.congr rfl rfl rfl rfl rfl rfl⟩
  rcases step_cases hstep with rfl | ⟨i, hexec⟩ | ⟨w, rfl⟩ | ⟨a, v, -, rfl⟩ | ⟨a, v, -, rfl⟩ | rfl
  · exact h.2.2
  · obtain ⟨t', hexec', ht⟩ := exec_consistent htaken i
    cases hexec.symm.trans hexec'
    exact ht
  · rw [State.illegalWord]
    split
    · exact htaken.2.2.congr rfl rfl rfl rfl rfl rfl
    · exact consistent_of_no_tree rfl
  · exact htaken.2.2.congr rfl rfl rfl rfl rfl rfl
  · exact htaken.2.2.congr rfl rfl rfl rfl rfl rfl
  · exact (inv_taken_hostReset h.sound).2.2

/-- Settles O46. -/
theorem unreachableFaultsAreNeverRaised : Obligations.UnreachableFaultsAreNeverRaised := by
  intro i s h hrun
  obtain ⟨t, hexec, ht⟩ := exec_settled h hrun i
  refine ⟨t, hexec, ?_, ?_, ?_, fun hc => ?_⟩
  · exact fun hc => by simpa [Cause.expected] using ht.cause _ hc
  · exact fun hc => by simpa [Cause.expected] using ht.cause _ hc
  · exact fun hc => by simpa [Cause.expected] using ht.cause _ hc
  · simpa [Cause.expected] using ht.cause _ hc

end Sys2Proof.Machine
end

section
/-! PACK (43_count_size_pack.md section 3): where the bits of each code stand in the concatenation of the codes, what the
scan of the input comes to, and what `OUT` holds afterwards. -/

namespace Sys2Proof.Machine

/-! ## The concatenation of the codes -/

theorem startAt_succ (s : State) (j : Nat) : s.startAt (j + 1) = s.startAt j + s.lenAt j := Finset.sum_range_succ _ _

theorem startAt_mono (s : State) {j k : Nat} (h : j ≤ k) : s.startAt j ≤ s.startAt k :=
  Finset.sum_le_sum_of_subset (Finset.range_mono h)

/-- The code of a position ends where that of the next one starts. -/
theorem startAt_add_lenAt_le (s : State) {j n : Nat} (h : j < n) : s.startAt j + s.lenAt j ≤ s.startAt n := by
  rw [← startAt_succ]
  exact startAt_mono s h

theorem codeBits_add (s : State) (m n lo : Nat) :
    s.codeBits (m + n) lo = s.codeBits m lo ++ s.codeBits n (lo + m) := by
  induction m generalizing lo with
  | zero => rw [Nat.zero_add, State.codeBits, List.nil_append, Nat.add_zero]
  | succ m ih =>
    rw [Nat.add_right_comm, State.codeBits, ih, State.codeBits, List.append_assoc, Nat.add_right_comm lo 1 m,
      Nat.add_assoc lo m 1]

/-- The codes along the input depend on `LUT` and `IN` only. -/
theorem codeBits_congr {s t : State} (hlut : t.lut = s.lut) (hin : t.inMem = s.inMem) (n lo : Nat) :
    t.codeBits n lo = s.codeBits n lo := by
  induction n generalizing lo with
  | zero => rfl
  | succ n ih =>
    have hsym : t.inSymbol lo = s.inSymbol lo := congrArg symbolIndex (inByte_congr hin lo)
    simp only [State.codeBits, ih, hlut, hsym]

theorem startAt_add_length_codeBits (s : State) (n lo : Nat) :
    s.startAt lo + (s.codeBits n lo).length = s.startAt (lo + n) := by
  induction n generalizing lo with
  | zero => rfl
  | succ n ih =>
    rw [State.codeBits, List.length_append, Encoding.length_bits, ← Nat.add_assoc, ← State.lenAt, ← startAt_succ, ih,
      Nat.add_right_comm, Nat.add_assoc]

theorem length_codeBits (s : State) (n : Nat) : (s.codeBits n 0).length = s.startAt n := by
  have hlen := startAt_add_length_codeBits s n 0
  rwa [Nat.zero_add, show s.startAt 0 = 0 from rfl, Nat.zero_add] at hlen

theorem Encoding.getElem?_bits (e : Encoding) {i : Nat} (hi : i < e.len.toNat) : e.bits[i]? = some (e.bitAt i) := by
  rw [Encoding.bits, List.getElem?_map, List.getElem?_range hi, Option.map_some]

/-- Bit `i` of the code of input position `j` stands `i` bits behind the codes of the earlier positions. -/
theorem getElem?_codeBits (s : State) {n j i : Nat} (hj : j < n) (hi : i < s.lenAt j) :
    (s.codeBits n 0)[s.startAt j + i]? = some (s.lut[s.inSymbol j].bitAt i) := by
  obtain ⟨m, rfl⟩ : ∃ m, n = j + (m + 1) := ⟨n - j - 1, by omega⟩
  have hlen := length_codeBits s j
  rw [codeBits_add, Nat.zero_add, List.getElem?_append_right (by omega), hlen, Nat.add_sub_cancel_left, State.codeBits,
    List.getElem?_append_left (by rw [Encoding.length_bits]; exact hi), Encoding.getElem?_bits _ hi]

/-! ## The scan -/

/-- Over positions that pass their checks the scan collects the codes. -/
theorem packScan_fits {s : State} {n j : Nat} {image : List Bool} (m : Nat) (hlen : image.length = s.startAt j)
    (hfits : ∀ k, j ≤ k → k < j + n → s.fitsAt k) :
    s.packScan (n + m) j image = s.packScan m (j + n) (image ++ s.codeBits n j) := by
  induction n generalizing j image with
  | zero => rw [Nat.zero_add, State.codeBits, List.append_nil, Nat.add_zero]
  | succ n ih =>
    obtain ⟨hne, hle⟩ := hfits j le_rfl (by omega)
    have hcode : s.lut[s.inSymbol j].len ≠ 0 := fun hzero => hne (congrArg BitVec.toNat hzero)
    have hroom : ¬ image.length + s.lut[s.inSymbol j].len.toNat > s.bitsReq := by
      rw [hlen]
      exact not_lt.2 hle
    have hnext : (image ++ s.lut[s.inSymbol j].bits).length = s.startAt (j + 1) := by
      rw [List.length_append, Encoding.length_bits, hlen, startAt_succ, State.lenAt]
    rw [Nat.add_right_comm, State.packScan, if_neg hcode, if_neg hroom, State.codeBits,
      ih hnext fun k hjk hk => hfits k (by omega) (by omega), List.append_assoc, Nat.add_right_comm j 1 n,
      Nat.add_assoc j n 1]

/-- The first position that fails a check ends the scan (43_count_size_pack.md R197, 60_exceptions.md R244). -/
theorem packScan_first_failing {s : State} {n j : Nat} (hj : j < n) (hfits : ∀ k < j, s.fitsAt k)
    (hfails : ¬ s.fitsAt j) :
    s.packScan n 0 [] = .failed (if s.lenAt j = 0 then .lookupEmpty else .outOverrun) j := by
  obtain ⟨m, rfl⟩ : ∃ m, n = j + (m + 1) := ⟨n - j - 1, by omega⟩
  rw [packScan_fits (m + 1) rfl fun k _ hk => hfits k (by omega), Nat.zero_add, List.nil_append, State.packScan,
    length_codeBits]
  by_cases hempty : s.lenAt j = 0
  · have hcode : s.lut[s.inSymbol j].len = 0 := BitVec.eq_of_toNat_eq hempty
    rw [if_pos hcode, if_pos hempty]
  · have hcode : s.lut[s.inSymbol j].len ≠ 0 := fun hzero => hempty (congrArg BitVec.toNat hzero)
    have hover : s.startAt j + s.lut[s.inSymbol j].len.toNat > s.bitsReq :=
      not_le.1 fun hle => hfails ⟨hempty, hle⟩
    rw [if_neg hcode, if_pos hover, if_neg hempty]

/-- Where every position passes, the length decides. -/
theorem packScan_all {s : State} {n : Nat} (hfits : ∀ j < n, s.fitsAt j) :
    s.packScan n 0 [] =
      if s.startAt n = s.bitsReq then .packed (s.codeBits n 0) else .failed .outUnderrun (s.startAt n) := by
  have hscan := packScan_fits (n := n) (j := 0) (image := []) 0 rfl fun k _ hk => hfits k (by omega)
  rw [Nat.add_zero, List.nil_append, State.packScan, length_codeBits] at hscan
  exact hscan

/-! ## The bits of `OUT` -/

/-- Bit `r` of byte `m` is bit `8 m + r` of the image, the first at the most significant place (20_memory.md R66). -/
theorem getLsbD_imageByte (image : List Bool) (m : Nat) {r : Nat} (hr : r < 8) :
    (imageByte image m).getLsbD (7 - r) = image.getD (8 * m + r) false := by
  simp only [imageByte, BitVec.getLsbD_append]
  interval_cases r <;> simp

/-- The state `PACK` leaves where the codes of the input take `BITS_REQ` bits. -/
abbrev State.withPacked (s : State) : State :=
  { s with
    outMem := writeOutBytes (imageByte (s.codeBits s.inLen 0)) (ceil8 s.bitsReq) s.outMem
    outLen := s.bitsReq
    phase := .packed }

/-- Where no code looked up is empty and all of them take `BITS_REQ` bits, `PACK` completes. -/
theorem packStage_complete {s : State} (hbits : s.bitsReq < 2 ^ s.cfg.bw) (hlen : s.inLen ≠ 0)
    (hne : ∀ j < s.inLen, s.lenAt j ≠ 0) (hsum : s.startAt s.inLen = s.bitsReq) :
    s.packStage = .done s.withPacked s.bitsReq := by
  have hfits (j : Nat) (hj : j < s.inLen) : s.fitsAt j := ⟨hne j hj, hsum ▸ startAt_add_lenAt_le s hj⟩
  have hscan := packScan_all hfits
  rw [if_pos hsum] at hscan
  have hnarrow : narrow s.cfg.bw (s.codeBits s.inLen 0).length = s.bitsReq := by
    rw [length_codeBits, hsum]
    exact narrow_eq_of_lt hbits
  simp only [State.packStage, if_neg hlen, hscan, hnarrow]

theorem exec_pack {s : State} (hbits : s.bitsReq < 2 ^ s.cfg.bw) (hsized : s.phase = .sized) (hlen : s.inLen ≠ 0)
    (hne : ∀ j < s.inLen, s.lenAt j ≠ 0) (hsum : s.startAt s.inLen = s.bitsReq) :
    exec .pack s = .next (s.withPacked.respond (Response.done s.bitsReq)) :=
  congrArg _ (command_done (i := .pack) rfl (decide_eq_true hsized) (packStage_complete hbits hlen hne hsum))

theorem lt_ceil8 {k n : Nat} (h : k < n) : k < 8 * ceil8 n := by
  rw [ceil8]
  omega

/-- What `PACK` does does not depend on the response register. -/
theorem exec_pack_respond {s : State} (p : Response) (hbits : s.bitsReq < 2 ^ s.cfg.bw) (hsized : s.phase = .sized)
    (hlen : s.inLen ≠ 0) (hne : ∀ j < s.inLen, s.lenAt j ≠ 0) (hsum : s.startAt s.inLen = s.bitsReq) :
    exec .pack (s.respond p) = .next (s.withPacked.respond (Response.done s.bitsReq)) := by
  have hexec := exec_pack (s := s.respond p) hbits hsized hlen hne hsum
  rw [State.withPacked, codeBits_congr (s := s) (t := s.respond p) rfl rfl] at hexec
  exact hexec

section
variable {s : State} (hbits : s.bitsReq < 2 ^ s.cfg.bw)
  (hmem : Memory.wf .output (spaceSize s.cfg .output) s.outMem = true)
include hbits hmem

/-- After `PACK` the bytes of `OUT` below `ceil8(BITS_REQ)` are those of the codes. -/
theorem outByte_withPacked {m : Nat} (hm : m < ceil8 s.bitsReq) :
    s.withPacked.outByte m = some (imageByte (s.codeBits s.inLen 0) m) :=
  writeOutBytes_read_below _ hm (ceil8_le_spaceSize hbits) hmem

theorem outBit_withPacked {k : Nat} (hk : k < 8 * ceil8 s.bitsReq) :
    s.withPacked.outBit k = some ((s.codeBits s.inLen 0).getD k false) := by
  rw [State.outBit, outByte_withPacked hbits hmem (by omega), Option.map_some, getLsbD_imageByte _ _ (by omega),
    Nat.div_add_mod]

/-- Every bit of every code stands in `OUT` at its place (43_count_size_pack.md R190). -/
theorem outBit_withPacked_code (hsum : s.startAt s.inLen = s.bitsReq) {j i : Nat} (hj : j < s.inLen)
    (hi : i < s.lenAt j) : s.withPacked.outBit (s.startAt j + i) = some (s.lut[s.inSymbol j].bitAt i) := by
  have hend := startAt_add_lenAt_le s hj
  rw [outBit_withPacked hbits hmem (lt_ceil8 (by omega)), List.getD_eq_getElem?_getD, getElem?_codeBits s hj hi,
    Option.getD_some]

end

/-- Settles O31. -/
theorem packPlacesEveryCodeBit : Obligations.PackPlacesEveryCodeBit := by
  refine ⟨by decide, fun s h hsized hlen hne hsum => ?_, sequencedIn_legalPhases .pack, refusedInFault rfl⟩
  refine ⟨_, exec_pack h.bitsReq hsized hlen hne hsum,
    fun j hj i hi => outBit_withPacked_code h.bitsReq h.outMem hsum hj hi,
    fun k hle hk => ?_, fun a ha => writeOutBytes_read_above _ ha⟩
  have hbeyond : (s.codeBits s.inLen 0).getD k false = false := by
    rw [List.getD_eq_default _ _ (by rw [length_codeBits]; omega)]
  exact (outBit_withPacked h.bitsReq h.outMem hk).trans (congrArg some hbeyond)

/-! ## The faults of PACK -/

/-- What a fault of `PACK` leaves as it was (60_exceptions.md R241). -/
def KeptByPackFault (s t : State) : Prop :=
  (∀ a, t.inByte a = s.inByte a) ∧ (∀ a, ceil8 s.bitsReq ≤ a → t.outByte a = s.outByte a) ∧
    SameHostRegs s t ∧ SameTables s t ∧ SameEncRegs s t ∧ SameHost s t

theorem exec_pack_failed {s : State} (hsized : s.phase = .sized) (hlen : s.inLen ≠ 0) {c : Cause} {n : Nat}
    (hn : n < 2 ^ s.cfg.bw) (hscan : s.packScan s.inLen 0 [] = .failed c n) :
    ∃ t, exec .pack s = .next t ∧ FaultEntered s t c n ∧ KeptByPackFault s t := by
  have hstage : s.packStage = .raised (s.packFault c n) := by simp only [State.packStage, if_neg hlen, hscan]
  have hexec : exec .pack s = .next (s.packFault c n) :=
    congrArg _ (command_raised (i := .pack) rfl (decide_eq_true hsized) hstage)
  exact ⟨_, hexec, ⟨rfl, rfl, narrow_eq_of_lt hn, rfl, rfl⟩, inByte_congr rfl, fun _ ha => packFault_outByte s c n ha,
    ⟨rfl, rfl, rfl⟩, ⟨rfl, rfl, rfl, rfl⟩, ⟨rfl, rfl⟩, rfl, rfl⟩

/-- Settles O32. -/
theorem packFaultsAtTheFirstFailingCheck : Obligations.PackFaultsAtTheFirstFailingCheck := by
  intro s h hsized hlen
  refine ⟨fun j hj hfits hfails => ?_, fun hfits hshort => ?_⟩
  · exact exec_pack_failed hsized hlen (lt_bw_of_lt_cw (hj.trans h.inLen)) (packScan_first_failing hj hfits hfails)
  · have hscan := packScan_all hfits
    rw [if_neg hshort.ne] at hscan
    exact exec_pack_failed hsized hlen (hshort.trans h.bitsReq) hscan

/-! ## The lanes of PACK, as bit strings -/

theorem joinedBits_eq {s : State} {part : List Nat} (hpart : validPart s.inLen part = true) :
    s.joinedBits part = s.codeBits s.inLen 0 := by
  obtain ⟨rest, rfl, hlast, hrising⟩ := validPart_iff hpart
  rw [State.joinedBits, List.flatMap_def, ← List.append_nil (List.map _ _).flatten, ← List.foldr_append_eq_append]
  exact (foldr_chunks (op := (· ++ ·)) (f := fun lo n => s.codeBits n lo) (fun _ => rfl)
    (fun lo m n => codeBits_add s m n lo) 0 rest s.inLen hlast hrising).2

/-- Settles O38. -/
theorem laneStringsJoinInInputOrder : Obligations.LaneStringsJoinInInputOrder := by
  intro s part hpart
  refine ⟨joinedBits_eq hpart, fun image hscan => ?_⟩
  rw [joinedBits_eq hpart, (packScan_packed hscan).1, List.nil_append]

end Sys2Proof.Machine
end

section
/-! The composite commands (43_count_size_pack.md section 6): the state `GENENC` leaves, and what `PACK` makes of it. -/

namespace Sys2Proof.Machine

/-! ## The stages one after another -/

/-- What `EXTRACT` does does not depend on the response register. -/
theorem extractFrom_respond {syms : List Symbol} {s t : State} {data : Nat} (p : Response)
    (h : extractFrom syms s = .done t data) : extractFrom syms (s.respond p) = .done (t.respond p) data := by
  induction syms generalizing s with
  | nil =>
    cases h
    rfl
  | cons sym rest ih =>
    rw [extractFrom] at h
    rw [extractFrom, State.respond_arena]
    cases hwalk : walkFrom s.arena.node sym with
    | overflow et =>
      rw [hwalk] at h
      cases h
    | root et =>
      rw [hwalk] at h
      exact ih h

theorem exec_build_marked {s : State} {a : Arena} (hphase : legalIn .build s.phase = true)
    (hmarked : buildTree indexAsc s.cfg.ncw s.freq = .marked a) :
    exec .build s = .next ((s.withTree a).respond (Response.done a.node[rootIdx].count)) :=
  congrArg _ (command_done (i := .build) rfl hphase (buildStage_marked hmarked))

theorem exec_extract_done {s t : State} (hbuilt : s.phase = .built) (hdone : s.extractStage = .done t 0) :
    exec .extract s = .next (t.respond (Response.done 0)) :=
  congrArg _ (command_done (i := .extract) rfl (decide_eq_true hbuilt) hdone)

/-- The state after `COUNT`, `BUILD` and `EXTRACT`, with the tree `a` and the codes `lut`. -/
abbrev State.withTables (s : State) (a : Arena) (lut : Vector Encoding 256) (et : Encoding) : State :=
  { (s.withCounts.withTree a).withCodes lut et with phase := .extracted }

/-- The state `GENENC` leaves. -/
abbrev State.generated (s : State) (a : Arena) (lut : Vector Encoding 256) (et : Encoding) : State :=
  (s.withTables a lut et).withSize

/-- A tree of the counts of the input, its codes, and the `ET` its extraction ends with. -/
structure Generates (s : State) (a : Arena) (lut : Vector Encoding 256) (et : Encoding) : Prop where
  marked : buildTree indexAsc s.cfg.ncw s.counted = .marked a
  built : BuiltTree s.counted a
  codes : CodesOf a.node lut
  extracted : (s.withCounts.withTree a).extractStage = .done (s.withTables a lut et) 0

theorem exists_generates (s : State) : ∃ a lut et, Generates s a lut et := by
  obtain ⟨a, hmarked, hbuilt, -⟩ := buildStage_built (s := s.withCounts) (counted_lt s)
  obtain ⟨lut, et, hcodes, hextracted⟩ := extractStage_built (s := s.withCounts.withTree a) hbuilt
  exact ⟨a, lut, et, hmarked, hbuilt, hcodes, hextracted⟩

section
variable {s : State} {a : Arena} {lut : Vector Encoding 256} {et : Encoding} (h : Generates s a lut et)
include h

/-- The four stages complete one after another (43_count_size_pack.md R200, R202). -/
theorem Generates.genencStage (hlen : s.inLen ≠ 0) :
    s.genencStage = .done (s.generated a lut et) (weightedLength s.counted lut) := by
  have hcount : s.countStage = .done s.withCounts s.inLen := countStage_nonempty hlen
  have hbuild := buildStage_marked (s := s.withCounts) h.marked
  have hsize := sizeStage_eq (s := s.withTables a lut et) (counted_lt s)
  rw [State.genencStage, hcount, Stage.andThen, hbuild, Stage.andThen, h.extracted, Stage.andThen, hsize]

/-- So do the commands `COUNT`, `BUILD`, `EXTRACT`, `SIZE`. -/
theorem Generates.commands (hidle : s.phase = .idle) (hlen : s.inLen ≠ 0) :
    ∃ b c d, exec .count s = .next b ∧ exec .build b = .next c ∧ exec .extract c = .next d ∧
      exec .size d =
        .next ((s.generated a lut et).respond (Response.done (weightedLength s.counted lut))) := by
  have hbuild := exec_build_marked (s := s.withCounts.respond (Response.done s.inLen)) rfl h.marked
  have hextract := exec_extract_done (s := (s.withCounts.withTree a).respond (Response.done a.node[rootIdx].count)) rfl
    (extractFrom_respond _ h.extracted)
  exact ⟨_, _, _, exec_count hidle hlen, hbuild, hextract,
    exec_size (s := (s.withTables a lut et).respond (Response.done 0)) rfl (counted_lt s)⟩

theorem Generates.exec_genenc (hidle : s.phase = .idle) (hlen : s.inLen ≠ 0) :
    exec .genenc s = .next ((s.generated a lut et).respond (Response.done (weightedLength s.counted lut))) :=
  congrArg _ (command_done (i := .genenc) rfl (decide_eq_true hidle) (h.genencStage hlen))

end

/-- Settles O33. -/
theorem genencIsItsFourStages : Obligations.GenencIsItsFourStages := by
  refine ⟨by decide, fun s _ hidle hlen => ?_, sequencedIn_legalPhases .genenc, refusedInFault rfl⟩
  obtain ⟨a, lut, et, h⟩ := exists_generates s
  obtain ⟨b, c, d, hcount, hbuild, hextract, hsize⟩ := h.commands hidle hlen
  exact ⟨b, c, d, _, hcount, hbuild, hextract, hsize, h.exec_genenc hidle hlen, rfl, rfl,
    ⟨inByte_congr rfl, outByte_congr rfl⟩, ⟨rfl, rfl, rfl⟩, ⟨rfl, rfl⟩, ⟨rfl, rfl⟩, rfl, rfl⟩

/-! ## The size of the packed input -/

/-- The lengths along the input, summed symbol by symbol. -/
theorem startAt_eq_sum (s : State) (n : Nat) :
    s.startAt n = ∑ sym : Symbol, s.occurs 0 n sym * s.lut[sym].len.toNat := by
  induction n with
  | zero => exact (Finset.sum_eq_zero fun sym _ => Nat.zero_mul _).symm
  | succ n ih =>
    have hlast (sym : Symbol) : s.occurs n 1 sym = if s.inSymbol n = sym then 1 else 0 := by
      rw [occurs_succ, Nat.add_eq_right]
      rfl
    simp only [startAt_succ, ih, occurs_add s 0 n 1, Nat.zero_add, hlast, Nat.add_mul, Finset.sum_add_distrib, ite_mul,
      Nat.one_mul, Nat.zero_mul, Finset.sum_ite_eq, Finset.mem_univ, if_true, State.lenAt]

/-- `BITS_REQ` after `GENENC` is what the codes take along the input (43_count_size_pack.md R192). -/
theorem startAt_generated {s : State} (a : Arena) (lut : Vector Encoding 256) (et : Encoding)
    (hfits : s.inLen < 2 ^ s.cfg.cw) :
    (s.generated a lut et).startAt s.inLen = weightedLength s.counted lut := by
  rw [startAt_eq_sum, weightedLength]
  refine Finset.sum_congr rfl fun sym _ => ?_
  rw [getElem_counted hfits]
  rfl

section
variable {s : State} {a : Arena} {lut : Vector Encoding 256} {et : Encoding} (h : Generates s a lut et)
include h

theorem Generates.one_le_len (sym : Symbol) : 1 ≤ lut[sym].len.toNat := h.built.one_le_len h.codes sym

theorem Generates.bits_ne_nil (sym : Symbol) : lut[sym].bits ≠ [] := by
  intro hnil
  have hlen := h.one_le_len sym
  rw [← Encoding.length_bits, hnil] at hlen
  exact absurd hlen (by decide)

/-- A counted input takes at least one bit and at most 255 bits a byte (43_count_size_pack.md R188). -/
theorem Generates.size_bounds (hfits : s.inLen < 2 ^ s.cfg.cw) :
    s.inLen ≤ weightedLength s.counted lut ∧ weightedLength s.counted lut ≤ 255 * s.inLen := by
  rw [← sum_counted hfits]
  constructor
  · exact Finset.sum_le_sum fun sym _ => Nat.le_mul_of_pos_right _ (h.one_le_len sym)
  · rw [Finset.mul_sum]
    refine Finset.sum_le_sum fun sym _ => ?_
    rw [Nat.mul_comm 255]
    exact Nat.mul_le_mul_left _ (Nat.le_of_lt_succ lut[sym].len.isLt)

/-- After `GENENC` the packing completes (43_count_size_pack.md R192). -/
theorem Generates.packStage (hfits : s.inLen < 2 ^ s.cfg.cw) (hlen : s.inLen ≠ 0) :
    (s.generated a lut et).packStage = .done (s.generated a lut et).withPacked (weightedLength s.counted lut) :=
  packStage_complete (weightedLength_lt lut (counted_lt s)) hlen
    (fun j _ => Nat.one_le_iff_ne_zero.1 (h.one_le_len (s.inSymbol j))) (startAt_generated a lut et hfits)

theorem Generates.exec_pack (hfits : s.inLen < 2 ^ s.cfg.cw) (hlen : s.inLen ≠ 0) (p : Response) :
    exec .pack ((s.generated a lut et).respond p) =
      .next ((s.generated a lut et).withPacked.respond (Response.done (weightedLength s.counted lut))) :=
  exec_pack_respond p (weightedLength_lt lut (counted_lt s)) rfl hlen
    (fun j _ => Nat.one_le_iff_ne_zero.1 (h.one_le_len (s.inSymbol j))) (startAt_generated a lut et hfits)

/-- `COMPRESS` is `GENENC` and `PACK` (43_count_size_pack.md R201). -/
theorem Generates.exec_compress (hfits : s.inLen < 2 ^ s.cfg.cw) (hidle : s.phase = .idle) (hlen : s.inLen ≠ 0) :
    exec .compress s =
      .next ((s.generated a lut et).withPacked.respond (Response.done (weightedLength s.counted lut))) := by
  have hstage : s.genencStage.andThen State.packStage =
      .done (s.generated a lut et).withPacked (weightedLength s.counted lut) := by
    rw [h.genencStage hlen, Stage.andThen, h.packStage hfits hlen]
  exact congrArg _ (command_done (i := .compress) rfl (decide_eq_true hidle) hstage)

end

/-- Settles O35. -/
theorem sizeIsBetweenOneAnd255BitsPerByte : Obligations.SizeIsBetweenOneAnd255BitsPerByte := by
  intro s hwf hidle hlen
  obtain ⟨a, lut, et, h⟩ := exists_generates s
  exact ⟨_, h.exec_genenc hidle hlen, h.size_bounds hwf.inLen⟩

/-- Settles O34. -/
theorem compressPacksTheWholeInput : Obligations.CompressPacksTheWholeInput := by
  refine ⟨by decide, fun s hwf hidle hlen => ?_, sequencedIn_legalPhases .compress, refusedInFault rfl⟩
  obtain ⟨a, lut, et, h⟩ := exists_generates s
  have hsum := startAt_generated a lut et hwf.inLen
  refine ⟨_, _, h.exec_genenc hidle hlen, h.exec_pack hwf.inLen hlen _, h.exec_compress hwf.inLen hidle hlen, rfl, rfl,
    rfl, rfl, hsum.symm, h.built, h.codes, fun j hj i hi => ?_, fun k hk => writeOutBytes_read_above _ hk,
    inByte_congr rfl, rfl, ⟨rfl, rfl, rfl⟩, ⟨rfl, rfl⟩, rfl, rfl⟩
  exact outBit_withPacked_code (s := s.generated a lut et) (weightedLength_lt lut (counted_lt s)) hwf.outMem hsum hj hi

/-! ## Reading the packed bits back -/

/-- At the head of a stream that begins with a code the automaton finds that code. -/
theorem CodesPrefixFree.find_code {lut : Vector Encoding 256} (h : CodesPrefixFree lut) {x : Symbol}
    {stream : List Bool} (hx : lut[x].bits <+: stream) :
    ((List.finRange 256).find? fun sym => lut[sym].bits.isPrefixOf stream) = some x := by
  cases hfind : (List.finRange 256).find? fun sym => lut[sym].bits.isPrefixOf stream with
  | none => exact absurd (List.isPrefixOf_iff_prefix.2 hx) (List.find?_eq_none.1 hfind x (List.mem_finRange x))
  | some y =>
    have hfound := List.find?_some hfind
    have hy : lut[y].bits <+: stream := List.isPrefixOf_iff_prefix.1 hfound
    by_contra hne
    have hyx : y ≠ x := fun heq => hne (congrArg some heq)
    rcases List.prefix_or_prefix_of_prefix hx hy with hpre | hpre
    · exact h x y hyx.symm hpre
    · exact h y x hyx hpre

/-- The automaton reads the codes of a run of the input back as its symbols (43_count_size_pack.md R199). -/
theorem decodeBits_codeBits {s : State} (hfree : CodesPrefixFree s.lut) (hne : ∀ sym : Symbol, s.lut[sym].bits ≠ [])
    {n fuel : Nat} (lo : Nat) (hfuel : n ≤ fuel) :
    decodeBits s.lut fuel (s.codeBits n lo) = some ((List.range' lo n).map s.inSymbol) := by
  induction n generalizing lo fuel with
  | zero => cases fuel <;> rfl
  | succ n ih =>
    obtain ⟨fuel, rfl⟩ : ∃ f, fuel = f + 1 := ⟨fuel - 1, by omega⟩
    obtain ⟨b, bs, hstream⟩ := List.exists_cons_of_ne_nil
      (show s.codeBits (n + 1) lo ≠ [] from fun h => hne _ (List.append_eq_nil_iff.1 h).1)
    have hhead := hfree.find_code (x := s.inSymbol lo) (stream := s.codeBits (n + 1) lo) (List.prefix_append _ _)
    have hrest : (s.codeBits (n + 1) lo).drop s.lut[s.inSymbol lo].len.toNat = s.codeBits n (lo + 1) := by
      rw [← Encoding.length_bits, State.codeBits, List.drop_left]
    rw [hstream] at hhead hrest ⊢
    simp only [decodeBits, hhead, hrest, ih (lo + 1) (Nat.le_of_succ_le_succ hfuel), Option.map_some, List.range'_succ,
      List.map_cons]

/-- Settles O36. -/
theorem packedOutputDecodesToTheInput : Obligations.PackedOutputDecodesToTheInput := by
  intro s hwf hidle hlen
  obtain ⟨a, lut, et, h⟩ := exists_generates s
  have hbits := weightedLength_lt lut (counted_lt s)
  have hlength : ((s.generated a lut et).codeBits s.inLen 0).length = weightedLength s.counted lut :=
    (length_codeBits _ _).trans (startAt_generated a lut et hwf.inLen)
  refine ⟨_, (s.generated a lut et).codeBits s.inLen 0, h.exec_compress hwf.inLen hidle hlen, hlength, fun k hk => ?_, ?_⟩
  · have hout := outBit_withPacked (s := s.generated a lut et) hbits hwf.outMem (k := k)
      (lt_ceil8 (hk.trans_eq hlength))
    rw [List.getD_eq_getElem _ _ hk] at hout
    exact hout
  · have hdecode := decodeBits_codeBits (s := s.generated a lut et) (h.built.prefixFree h.codes) h.bits_ne_nil 0
      (h.size_bounds hwf.inLen).1
    rw [← List.range_eq_range'] at hdecode
    exact hdecode

end Sys2Proof.Machine
end

section
/-! The barrel shifter and the lanes of PACK as bytes (43_count_size_pack.md section 4): placing a code and joining a lane
both OR a bit string into the byte image at a bit position. -/

namespace Sys2Proof.Machine

/-! ## Bits of a byte image -/

theorem imageBit_of_le {acc : ByteImage} {k : Nat} (h : 8 * acc.length ≤ k) : imageBit acc k = false := by
  rw [imageBit, List.getD_eq_default _ _ (by omega)]
  exact BitVec.getLsbD_zero

@[simp] theorem length_orByte (acc : ByteImage) (m : Nat) (b : Byte) : (orByte acc m b).length = acc.length :=
  List.length_modify _ _ _

theorem imageBit_orByte {acc : ByteImage} (m : Nat) (b : Byte) {k : Nat} (hk : k < 8 * acc.length) :
    imageBit (orByte acc m b) k = (imageBit acc k || decide (k / 8 = m) && b.getLsbD (7 - k % 8)) := by
  have hbyte : k / 8 < acc.length := by omega
  have hget : (orByte acc m b).getD (k / 8) 0 = if m = k / 8 then acc.getD (k / 8) 0 ||| b else acc.getD (k / 8) 0 := by
    rw [List.getD_eq_getElem _ _ (by rwa [length_orByte]), List.getD_eq_getElem _ _ hbyte]
    exact List.getElem_modify ..
  rw [imageBit, imageBit, hget]
  by_cases hm : m = k / 8
  · rw [if_pos hm, BitVec.getLsbD_or, decide_eq_true hm.symm, Bool.true_and]
  · rw [if_neg hm, decide_eq_false (Ne.symm hm), Bool.false_and, Bool.or_false]

/-- The bytes `f 0 .. f (n - 1)` ORed into an image from byte `base` on. -/
def orBytes (acc : ByteImage) (base n : Nat) (f : Nat → Byte) : ByteImage :=
  (List.range n).foldl (fun acc t => orByte acc (base + t) (f t)) acc

theorem orBytes_succ (acc : ByteImage) (base n : Nat) (f : Nat → Byte) :
    orBytes acc base (n + 1) f = orByte (orBytes acc base n f) (base + n) (f n) := by
  rw [orBytes, List.range_succ, List.foldl_append]
  rfl

@[simp] theorem length_orBytes (acc : ByteImage) (base n : Nat) (f : Nat → Byte) :
    (orBytes acc base n f).length = acc.length := by
  induction n with
  | zero => rfl
  | succ n ih => rw [orBytes_succ, length_orByte, ih]

theorem imageBit_orBytes {acc : ByteImage} (base n : Nat) (f : Nat → Byte) {k : Nat} (hk : k < 8 * acc.length) :
    imageBit (orBytes acc base n f) k =
      (imageBit acc k || decide (base ≤ k / 8 ∧ k / 8 < base + n) && (f (k / 8 - base)).getLsbD (7 - k % 8)) := by
  induction n with
  | zero =>
    have hno : ¬ (base ≤ k / 8 ∧ k / 8 < base + 0) := by omega
    rw [decide_eq_false hno, Bool.false_and, Bool.or_false]
    rfl
  | succ n ih =>
    rw [orBytes_succ, imageBit_orByte _ _ (by rwa [length_orBytes]), ih, Bool.or_assoc]
    congr 1
    by_cases hlast : k / 8 = base + n
    · have hbefore : ¬ (base ≤ k / 8 ∧ k / 8 < base + n) := by omega
      have hin : base ≤ k / 8 ∧ k / 8 < base + (n + 1) := by omega
      rw [decide_eq_false hbefore, decide_eq_true hlast, decide_eq_true hin, show k / 8 - base = n by omega,
        Bool.false_and, Bool.false_or]
    · have hsame : (base ≤ k / 8 ∧ k / 8 < base + n) ↔ base ≤ k / 8 ∧ k / 8 < base + (n + 1) := by omega
      rw [decide_eq_false hlast, Bool.false_and, Bool.or_false, decide_eq_decide.2 hsame]

/-! ## Bit strings ORed into an image -/

/-- `acc'` is `acc` with the string `bits` ORed in from bit `pos` on. -/
structure OrsBits (acc : ByteImage) (pos : Nat) (bits : List Bool) (acc' : ByteImage) : Prop where
  length : acc'.length = acc.length
  bit : ∀ k, imageBit acc' k = (imageBit acc k || decide (pos ≤ k) && bits.getD (k - pos) false)

/-- Bytes that hold a string moved right by `pos mod 8` bits, ORed in from byte `pos div 8` on. -/
theorem orsBits_orBytes {acc : ByteImage} {pos n : Nat} {bits : List Bool} {f : Nat → Byte}
    (hbytes : ∀ t < n, ∀ r < 8,
      (f t).getLsbD (7 - r) = (decide (pos % 8 ≤ 8 * t + r) && bits.getD (8 * t + r - pos % 8) false))
    (hall : pos % 8 + bits.length ≤ 8 * n) (hroom : pos + bits.length ≤ 8 * acc.length) :
    OrsBits acc pos bits (orBytes acc (pos / 8) n f) := by
  refine ⟨length_orBytes _ _ _ _, fun k => ?_⟩
  by_cases hk : k < 8 * acc.length
  · rw [imageBit_orBytes _ _ _ hk]
    congr 1
    by_cases hin : pos / 8 ≤ k / 8 ∧ k / 8 < pos / 8 + n
    · have hpos : pos % 8 ≤ 8 * (k / 8 - pos / 8) + k % 8 ↔ pos ≤ k := by omega
      rw [decide_eq_true hin, Bool.true_and, hbytes _ (by omega) _ (by omega), decide_eq_decide.2 hpos,
        show 8 * (k / 8 - pos / 8) + k % 8 - pos % 8 = k - pos by omega]
    · rw [decide_eq_false hin, Bool.false_and]
      by_cases hpos : pos ≤ k
      · rw [List.getD_eq_default _ _ (by omega), Bool.and_false]
      · rw [decide_eq_false hpos, Bool.false_and]
  · rw [imageBit_of_le (by rw [length_orBytes]; omega), imageBit_of_le (by omega), List.getD_eq_default _ _ (by omega),
      Bool.and_false, Bool.false_or]

/-- The image holds the string and zeros behind it. -/
def HoldsBits (acc : ByteImage) (bits : List Bool) : Prop := ∀ k, imageBit acc k = bits.getD k false

theorem holdsBits_zeros (n : Nat) : HoldsBits (List.replicate n 0) [] := by
  intro k
  by_cases hk : k / 8 < n
  · rw [imageBit, List.getD_eq_getElem _ _ (by rwa [List.length_replicate]), List.getElem_replicate]
    exact BitVec.getLsbD_zero
  · exact imageBit_of_le (by rw [List.length_replicate]; omega)

/-- A string ORed in where the held one ends is appended to it. -/
theorem HoldsBits.append {acc acc' : ByteImage} {image bits : List Bool} (h : HoldsBits acc image)
    (hors : OrsBits acc image.length bits acc') : HoldsBits acc' (image ++ bits) := by
  intro k
  rw [hors.bit, h k]
  by_cases hk : image.length ≤ k
  · rw [List.getD_eq_default _ _ hk, List.getD_append_right _ _ _ _ hk, decide_eq_true hk, Bool.true_and, Bool.false_or]
  · rw [List.getD_append _ _ _ _ (not_le.1 hk), decide_eq_false hk, Bool.false_and, Bool.or_false]

/-! ## The barrel shifter -/

theorem Encoding.getD_bits (e : Encoding) (i : Nat) :
    e.bits.getD i false = (decide (i < e.len.toNat) && e.bitAt i) := by
  by_cases hi : i < e.len.toNat
  · rw [List.getD_eq_getElem?_getD, Encoding.getElem?_bits e hi, Option.getD_some, decide_eq_true hi, Bool.true_and]
  · rw [List.getD_eq_default _ _ (by rw [Encoding.length_bits]; omega), decide_eq_false hi, Bool.false_and]

/-- The shifter holds the bits of `v`, moved right by `sh` (43_count_size_pack.md R195). -/
theorem getLsbD_shiftedByte (e : Encoding) (sh : Nat) {t r : Nat} (ht : t ≤ 32) (hr : r < 8) :
    (shiftedByte (shiftedCode e sh) t).getLsbD (7 - r) =
      (decide (sh ≤ 8 * t + r ∧ 8 * t + r - sh < 256) && e.bitAt (8 * t + r - sh)) := by
  rw [shiftedByte, BitVec.getLsbD_extractLsb', shiftedCode, BitVec.getLsbD_ushiftRight, BitVec.getLsbD_append,
    decide_eq_true (show 7 - r < 8 by omega), Bool.true_and, Encoding.bitAt]
  by_cases hleft : sh ≤ 8 * t + r
  · by_cases hfits : 8 * t + r - sh < 256
    · have hindex : ¬ sh + (256 - 8 * t + (7 - r)) < 8 := by omega
      rw [if_neg hindex, decide_eq_true ⟨hleft, hfits⟩, Bool.true_and,
        show sh + (256 - 8 * t + (7 - r)) - 8 = 255 - (8 * t + r - sh) by omega]
    · have hindex : sh + (256 - 8 * t + (7 - r)) < 8 := by omega
      rw [if_pos hindex, BitVec.getLsbD_zero, decide_eq_false fun h => hfits h.2, Bool.false_and]
  · have hindex : ¬ sh + (256 - 8 * t + (7 - r)) < 8 := by omega
    rw [if_neg hindex, decide_eq_false fun h => hleft h.1, Bool.false_and]
    exact BitVec.getLsbD_of_ge _ _ (by omega)

/-- The barrel shifter ORs the bits of the code in at `pos` (43_count_size_pack.md R195). -/
theorem orsBits_placeCode {acc : ByteImage} {pos : Nat} {e : Encoding} (hpadded : e.padded = true)
    (hroom : pos + e.len.toNat ≤ 8 * acc.length) : OrsBits acc pos e.bits (placeCode acc pos e) := by
  have hlen := e.len.isLt
  refine orsBits_orBytes (n := (pos % 8 + e.len.toNat - 1) / 8 + 1) (f := shiftedByte (shiftedCode e (pos % 8)))
    (fun t ht r hr => ?_) ?_ ?_
  · rw [getLsbD_shiftedByte e _ (by omega) hr, Encoding.getD_bits]
    by_cases hcode : 8 * t + r - pos % 8 < e.len.toNat
    · have hsame : pos % 8 ≤ 8 * t + r ∧ 8 * t + r - pos % 8 < 256 ↔ pos % 8 ≤ 8 * t + r := by omega
      rw [decide_eq_decide.2 hsame, decide_eq_true hcode, Bool.true_and]
    · rw [decide_eq_false hcode, Bool.false_and, Bool.and_false]
      by_cases hfits : 8 * t + r - pos % 8 < 256
      · rw [(Encoding.padded_iff e).1 hpadded _ (not_lt.1 hcode) hfits, Bool.and_false]
      · rw [decide_eq_false fun h => hfits h.2, Bool.false_and]
  · rw [Encoding.length_bits]
    omega
  · rwa [Encoding.length_bits]

/-- Settles O39. -/
theorem shifterPlacesExactlyTheCode : Obligations.ShifterPlacesExactlyTheCode := by
  intro acc pos e hpadded _ hroom hzero k
  rw [(orsBits_placeCode hpadded hroom).bit, Encoding.getD_bits]
  by_cases hpos : pos ≤ k
  · rw [hzero k hpos, decide_eq_true hpos, Bool.false_or, Bool.true_and]
    by_cases hcode : k - pos < e.len.toNat
    · rw [decide_eq_true hcode, if_pos (by omega), Bool.true_and]
    · rw [decide_eq_false hcode, if_neg (by omega), Bool.false_and]
  · rw [decide_eq_false hpos, if_neg (by omega), Bool.false_and, Bool.or_false]

/-! ## The buffer of a lane -/

section
variable {s : State} (hpadded : ∀ sym : Symbol, s.lut[sym].padded = true)
include hpadded

/-- A lane's buffer grows by the codes of its input positions. -/
theorem placeCodes_holdsBits (n j : Nat) {image : List Bool} {acc : ByteImage} (h : HoldsBits acc image)
    (hroom : image.length + (s.codeBits n j).length ≤ 8 * acc.length) :
    (s.placeCodes n j image.length acc).length = acc.length ∧
      HoldsBits (s.placeCodes n j image.length acc) (image ++ s.codeBits n j) := by
  induction n generalizing j image acc with
  | zero => exact ⟨rfl, (List.append_nil image).symm ▸ h⟩
  | succ n ih =>
    rw [State.codeBits, List.length_append, Encoding.length_bits] at hroom
    have hors := orsBits_placeCode (acc := acc) (pos := image.length) (hpadded (s.inSymbol j)) (by omega)
    obtain ⟨hlength, hholds⟩ := ih (j + 1) (h.append hors) (by
      rw [hors.length, List.length_append, Encoding.length_bits]
      omega)
    rw [List.length_append, Encoding.length_bits] at hlength hholds
    exact ⟨hlength.trans hors.length, by rwa [State.codeBits, ← List.append_assoc]⟩

theorem laneBuffer_holdsBits (chunk : Nat × Nat) : HoldsBits (s.laneBuffer chunk) (s.laneBits chunk) := by
  refine (placeCodes_holdsBits hpadded _ chunk.1 (holdsBits_zeros _) ?_).2
  rw [List.length_nil, List.length_replicate, Nat.zero_add, ceil8, State.laneBits]
  omega

end

/-! ## The join -/

/-- A byte of a buffer moved right by `sh` bits takes the bits carried out of the byte before it
(43_count_size_pack.md R196). -/
theorem getLsbD_joinByte (buffer : ByteImage) {sh : Nat} (hsh : sh < 8) (t : Nat) {r : Nat} (hr : r < 8) :
    (joinByte buffer sh t).getLsbD (7 - r) = (decide (sh ≤ 8 * t + r) && imageBit buffer (8 * t + r - sh)) := by
  rw [joinByte, BitVec.getLsbD_or, BitVec.getLsbD_ushiftRight, BitVec.getLsbD_shiftLeft, imageBit]
  by_cases hown : sh ≤ r
  · have hcarry : 7 - r < 8 - sh := by omega
    rw [decide_eq_true hcarry, Bool.not_true, Bool.and_false, Bool.false_and, Bool.or_false,
      decide_eq_true (show sh ≤ 8 * t + r by omega), Bool.true_and, show (8 * t + r - sh) / 8 = t by omega,
      show 7 - (8 * t + r - sh) % 8 = sh + (7 - r) by omega]
  · have hcarry : ¬ 7 - r < 8 - sh := by omega
    rw [BitVec.getLsbD_of_ge _ _ (show 8 ≤ sh + (7 - r) by omega), Bool.false_or, decide_eq_false hcarry, Bool.not_false,
      Bool.and_true, decide_eq_true (show 7 - r < 8 by omega), Bool.true_and]
    by_cases ht : t = 0
    · rw [if_pos ht, decide_eq_false (show ¬ sh ≤ 8 * t + r by omega), Bool.false_and]
      exact BitVec.getLsbD_zero
    · rw [if_neg ht, decide_eq_true (show sh ≤ 8 * t + r by omega), Bool.true_and,
        show (8 * t + r - sh) / 8 = t - 1 by omega,
        show 7 - (8 * t + r - sh) % 8 = 7 - r - (8 - sh) by omega]

/-- The join ORs the bits of the lane in at `start` (43_count_size_pack.md R196). -/
theorem orsBits_joinLane {acc buffer : ByteImage} {start : Nat} {bits : List Bool} (hbuffer : HoldsBits buffer bits)
    (hroom : start + bits.length ≤ 8 * acc.length) :
    OrsBits acc start bits (joinLane acc start buffer bits.length) := by
  refine orsBits_orBytes (n := ceil8 (start % 8 + bits.length)) (f := joinByte buffer (start % 8)) (fun t _ r hr => ?_)
    ?_ hroom
  · rw [getLsbD_joinByte buffer (Nat.mod_lt _ (by decide)) t hr, hbuffer]
  · rw [ceil8]
    omega

section
variable {s : State} (hpadded : ∀ sym : Symbol, s.lut[sym].padded = true)
include hpadded

/-- The lanes joined in their order append their strings (43_count_size_pack.md R193, R194). -/
theorem joinLanes_holdsBits (lanes : List (Nat × Nat)) {image : List Bool} {acc : ByteImage} (h : HoldsBits acc image)
    (hroom : image.length + (lanes.flatMap s.laneBits).length ≤ 8 * acc.length) :
    HoldsBits (s.joinLanes lanes image.length acc) (image ++ lanes.flatMap s.laneBits) := by
  induction lanes generalizing image acc with
  | nil => exact (List.append_nil image).symm ▸ h
  | cons chunk rest ih =>
    rw [List.flatMap_cons, List.length_append] at hroom
    have hors := orsBits_joinLane (acc := acc) (start := image.length) (laneBuffer_holdsBits hpadded chunk) (by omega)
    have hholds := ih (h.append hors) (by
      rw [hors.length, List.length_append]
      omega)
    rw [List.length_append] at hholds
    rwa [List.flatMap_cons, ← List.append_assoc]

theorem lanesImage_holdsBits (part : List Nat) : HoldsBits (s.lanesImage part) (s.joinedBits part) := by
  refine joinLanes_holdsBits hpadded (chunks part) (holdsBits_zeros _) ?_
  rw [List.length_nil, List.length_replicate, Nat.zero_add, ceil8, State.joinedBits]
  omega

end

/-- The bytes of an image that holds a string are those `PACK` makes of the string. -/
theorem HoldsBits.getD_eq_imageByte {acc : ByteImage} {bits : List Bool} (h : HoldsBits acc bits) (m : Nat) :
    acc.getD m 0 = imageByte bits m := by
  refine BitVec.eq_of_getLsbD_eq fun i hi => ?_
  have hbit := h (8 * m + (7 - i))
  rw [← getLsbD_imageByte bits m (show 7 - i < 8 by omega), imageBit, show (8 * m + (7 - i)) / 8 = m by omega,
    show 7 - (8 * m + (7 - i)) % 8 = i by omega, show 7 - (7 - i) = i by omega] at hbit
  exact hbit

/-- An input with a partition is not empty. -/
theorem pos_of_validPart {n : Nat} {part : List Nat} (h : validPart n part = true) : n ≠ 0 := by
  have htwo : 2 ≤ part.length := by
    simp only [validPart, Bool.and_eq_true, decide_eq_true_eq] at h
    exact h.1.2
  obtain ⟨rest, rfl, hlast, hrising⟩ := validPart_iff h
  cases rest with
  | nil => simp at htwo
  | cons b rest =>
    rw [List.getLast?_cons_cons] at hlast
    exact ((List.pairwise_cons.1 hrising).1 n (List.mem_of_getLast? hlast)).ne'

/-- Settles O40. -/
theorem lanesWriteTheBytesOfPack : Obligations.LanesWriteTheBytesOfPack := by
  intro s part hwf hsized hpart
  have hpadded := hwf.lut (by rw [hsized]; rfl)
  have hbytes (m : Nat) : (s.lanesImage part).getD m 0 = imageByte (s.codeBits s.inLen 0) m := by
    rw [(lanesImage_holdsBits hpadded part).getD_eq_imageByte, joinedBits_eq hpart]
  refine ⟨hbytes, fun hne hsum => ⟨_, exec_pack hwf.bitsReq hsized (pos_of_validPart hpart) hne hsum, fun m hm => ?_⟩⟩
  rw [hbytes]
  exact outByte_withPacked hwf.bitsReq hwf.outMem hm

end Sys2Proof.Machine
end
